-- ==== Sys2Proof/Word.lean ====
section
/-! DEFINITION. The word types of the engine and their plainest arithmetic (spec/00_scope.md rules R7 and R9). -/

namespace Sys2Proof

/-- A sample, residual or coefficient register: 32 bits, two's complement (R7 `SAMPLE_WIDTH`). -/
abbrev Word := BitVec 32

/-- The LPC accumulator: 64 bits, two's complement (R7 `ACC_WIDTH`, R26). -/
abbrev Acc := BitVec 64

end Sys2Proof
end

