-- ==== Sys2Proof/Config.lean ====
section
/-! DEFINITION. The implementation parameters of spec/00_scope.md rule R7, and the values the spec leaves open, as constants
without a body. -/

namespace Sys2Proof

/-- `BLOCK_SIZE_MAX` (R7, decided by 92_eei_decisions.md D3). -/
def Config.blockSizeMax : Nat := 65535

/-- The largest legal bits per sample (R7). -/
def Config.bpsMax : Nat := 32

/-- `LPC_ORDER_MAX`, the number of coefficient registers (R7, R25). -/
def Config.lpcOrderMax : Nat := 32

/-- `ESCAPE_RAW_SIGNED`: the spec leaves it OPEN (R7, R60, D13), so it has no body and every claim holds for both values. -/
opaque Config.escapeRawSigned : Bool

/-- A free value: the `n`-th position the spec leaves unspecified (R17, R35, R112). A step applies it to `State.freeCount` and
keeps the spec's bound by a remainder. -/
opaque Config.freePosition : Nat → Nat

/-- A free value: what a register of `w` bits holds after it was given `v`, where `v` does not fit in `w` bits. The spec states
no result there: R70 writes the wasted count before it checks it, R107 latches the configuration before it checks it. -/
opaque Config.overwide (w v : Nat) : BitVec w

end Sys2Proof
end

