-- ==== Sys2Proof/Syntax.lean ====
section
/-! DEFINITION. The instructions: one constructor per row of spec/opcode_table.json, with the fields the row itself holds.
Payload of variable width (sample fields, unary codes, Rice codes, raw values) is read by the meanings from the bit source, in
the order of the spec's decode procedure (R66), because its width depends on fields already read. -/

namespace Sys2Proof

/-- One instruction. `wf` is the header's "wasted bits present" flag `h[0]` (R50). -/
inductive Instr where
  /-- CONSTANT, `0 000000 WF` (R74). -/
  | constant (wf : Bool)
  /-- VERBATIM, `0 000001 WF` (R75). -/
  | verbatim (wf : Bool)
  /-- FIXED0, `0 001000 WF` (R81). -/
  | fixed0 (wf : Bool)
  /-- FIXED1, `0 001001 WF` (R82). -/
  | fixed1 (wf : Bool)
  /-- FIXED2, `0 001010 WF` (R83). -/
  | fixed2 (wf : Bool)
  /-- FIXED3, `0 001011 WF` (R84). -/
  | fixed3 (wf : Bool)
  /-- FIXED4, `0 001100 WF` (R85). -/
  | fixed4 (wf : Bool)
  /-- LPC, `0 1ooooo WF`, of order `o + 1` (R94). -/
  | lpc (o : BitVec 5) (wf : Bool)
  /-- RESERVED_RSV, a first header bit 1: nothing after that bit is read (R69, R118). -/
  | reservedRsv
  /-- RESERVED_TYPE_2_3, `0 00001o`: rejected before the wasted flag is read (R71, R118). -/
  | reservedType2_3 (o : BitVec 1)
  /-- RESERVED_TYPE_4_7, `0 0001oo` (R71). -/
  | reservedType4_7 (o : BitVec 2)
  /-- RESERVED_TYPE_13, `0 001101` (R71). -/
  | reservedType13
  /-- RESERVED_TYPE_14_15, `0 00111o` (R71). -/
  | reservedType14_15 (o : BitVec 1)
  /-- RESERVED_TYPE_16_31, `0 01oooo` (R71). -/
  | reservedType16_31 (o : BitVec 4)
  /-- RES_RICE, `00 pppp`: method 0, partition order `p` (R56, R105). -/
  | resRice (p : BitVec 4)
  /-- RES_RICE2, `01 pppp`: method 1, partition order `p` (R56, R105). -/
  | resRice2 (p : BitVec 4)
  /-- RES_RESERVED, method `1x`: rejected before the partition order is read (R97). -/
  | resReserved (x : Bool)
  /-- PART_RICE4, a 4-bit parameter `k` below the escape code (R58, R102). -/
  | partRice4 (k : BitVec 4)
  /-- PART_ESC4, the 4-bit escape code `1111` (R58, R104). -/
  | partEsc4
  /-- PART_RICE5, a 5-bit parameter `k` below the escape code (R58, R102). -/
  | partRice5 (k : BitVec 5)
  /-- PART_ESC5, the 5-bit escape code `11111` (R58, R104). -/
  | partEsc5
  /-- CMD_RESET, code 0 (R112). -/
  | cmdReset
  /-- CMD_START, code 1, with the arguments as the host gives them (R107). -/
  | cmdStart (bs bps : Nat) (truncEn : Bool)
  /-- CMD_READ, code 2: a host buffer of `len` words whose first word is host word `dest` (R108). -/
  | cmdRead (dest len : Nat)
  /-- CMD_QUERY_TYPE, code 3 (R109). -/
  | cmdQueryType
  /-- CMD_QUERY_WASTED, code 4 (R110). -/
  | cmdQueryWasted
  /-- CMD_QUERY_STATUS, code 5 (R111). -/
  | cmdQueryStatus
  /-- CMD_RESERVED, codes 6 and 7, `11x` (R106). -/
  | cmdReserved (x : Bool)
deriving DecidableEq, Repr

/-- The formats of the opcode table. A partition's format is chosen by the method register (R56). -/
inductive Format where
  | hdr | res | part4 | part5 | cmd
deriving DecidableEq, Repr

/-- The arguments that accompany a command code (R106 to R108). A command reads only the arguments it has. -/
structure CommandArgs where
  bs : Nat := 0
  bps : Nat := 0
  truncEn : Bool := false
  dest : Nat := 0
  len : Nat := 0
deriving DecidableEq, Repr

/-- An instruction as it is transmitted: the format it is read in, its bits in wire order (R8), and a command's arguments. -/
structure Encoded where
  format : Format
  bits : List Bool
  args : CommandArgs := { }
deriving DecidableEq, Repr

end Sys2Proof
end

