-- ==== Sys2Proof/WellFormed.lean ====
section
/-! DEFINITION. Which terms of `Instr` stand for an encoding of the table. -/

namespace Sys2Proof

/-- A Rice parameter is below the escape code of its method (R58): the escape code is another row. Every other field may hold
any value of its width. -/
def Instr.wellFormed : Instr → Bool
  | .constant _ => true
  | .verbatim _ => true
  | .fixed0 _ => true
  | .fixed1 _ => true
  | .fixed2 _ => true
  | .fixed3 _ => true
  | .fixed4 _ => true
  | .lpc _ _ => true
  | .reservedRsv => true
  | .reservedType2_3 _ => true
  | .reservedType4_7 _ => true
  | .reservedType13 => true
  | .reservedType14_15 _ => true
  | .reservedType16_31 _ => true
  | .resRice _ => true
  | .resRice2 _ => true
  | .resReserved _ => true
  | .partRice4 k => decide (k.toNat < 15)
  | .partEsc4 => true
  | .partRice5 k => decide (k.toNat < 31)
  | .partEsc5 => true
  | .cmdReset => true
  | .cmdStart _ _ _ => true
  | .cmdRead _ _ => true
  | .cmdQueryType => true
  | .cmdQueryWasted => true
  | .cmdQueryStatus => true
  | .cmdReserved _ => true

end Sys2Proof
end

