-- ==== Sys2Proof/Decode.lean ====
section
/-! DEFINITION. The decoder of spec/30_encoding.md (R49 to R64), total on any bits, and the encoder. Every field is read most
significant bit first (R8, R36). -/

namespace Sys2Proof

/-- Take a field of `n` bits, most significant bit first (R32); nothing when fewer than `n` bits are left. -/
def takeBits : Nat → List Bool → Option (Nat × List Bool)
  | 0, bits => some (0, bits)
  | _ + 1, [] => none
  | n + 1, b :: bits =>
    match takeBits n bits with
    | none => none
    | some (v, rest) => some (b.toNat * 2 ^ n + v, rest)

/-- The low `n` bits of `v`, most significant bit first (R8). -/
def natToBits : Nat → Nat → List Bool
  | 0, _ => []
  | n + 1, v => v.testBit n :: natToBits n v

/-- The bits of a stream delivered as bytes: each byte from bit 7 to bit 0, the bytes in increasing address order (R36, D25). -/
def bitsOfBytes : List (BitVec 8) → List Bool
  | [] => []
  | b :: bytes => natToBits 8 b.toNat ++ bitsOfBytes bytes

/-- Why no instruction is read. Every encoding is an instruction or a reserved row of the table (R63), so the one reason is that
the bits end inside the item; the engine then raises the read failure of R116. -/
inductive DecodeError where
  | short
deriving DecidableEq, Repr

/-- What the decoder answers: an instruction and the bits after it, or a rejection by name. -/
inductive Decoded where
  | item (i : Instr) (rest : List Bool)
  | rejected (why : DecodeError)
deriving DecidableEq, Repr

/-- The type codes the dispatcher rejects: 2..7, 13..15 and 16..31 (R51, R71). -/
def typeReserved (t : Nat) : Bool :=
  (decide (2 ≤ t) && decide (t ≤ 7)) || (decide (13 ≤ t) && decide (t ≤ 31))

/-- The row of the opcode table that a 6-bit type code and the wasted flag select (R51). -/
def instrOfType (t : Nat) (wf : Bool) : Instr :=
  if t = 0 then .constant wf
  else if t = 1 then .verbatim wf
  else if t < 4 then .reservedType2_3 (BitVec.ofNat 1 t)
  else if t < 8 then .reservedType4_7 (BitVec.ofNat 2 t)
  else if t = 8 then .fixed0 wf
  else if t = 9 then .fixed1 wf
  else if t = 10 then .fixed2 wf
  else if t = 11 then .fixed3 wf
  else if t = 12 then .fixed4 wf
  else if t = 13 then .reservedType13
  else if t < 16 then .reservedType14_15 (BitVec.ofNat 1 t)
  else if t < 32 then .reservedType16_31 (BitVec.ofNat 4 t)
  else .lpc (BitVec.ofNat 5 t) wf

/-- The header word (R50), read in the order of R69: the reserved bit, then the type code, then the wasted flag; a reserved
encoding ends at the field that shows it (R118). -/
def decodeHeader : List Bool → Decoded
  | [] => .rejected .short
  | true :: rest => .item .reservedRsv rest
  | false :: bits =>
    match takeBits 6 bits with
    | none => .rejected .short
    | some (t, rest) =>
      if typeReserved t then .item (instrOfType t false) rest
      else match rest with
        | [] => .rejected .short
        | wf :: rest' => .item (instrOfType t wf) rest'

/-- The residual header (R56), read in the order of R96: a reserved method ends before the partition order (R97). -/
def decodeResidualHeader : List Bool → Decoded
  | true :: x :: rest => .item (.resReserved x) rest
  | false :: m :: bits =>
    match takeBits 4 bits with
    | none => .rejected .short
    | some (p, rest) => .item (if m then .resRice2 (BitVec.ofNat 4 p) else .resRice (BitVec.ofNat 4 p)) rest
  | _ => .rejected .short

/-- A 4-bit partition parameter (R58). -/
def decodePartition4 (bits : List Bool) : Decoded :=
  match takeBits 4 bits with
  | none => .rejected .short
  | some (k, rest) => .item (if k = 15 then .partEsc4 else .partRice4 (BitVec.ofNat 4 k)) rest

/-- A 5-bit partition parameter (R58). -/
def decodePartition5 (bits : List Bool) : Decoded :=
  match takeBits 5 bits with
  | none => .rejected .short
  | some (k, rest) => .item (if k = 31 then .partEsc5 else .partRice5 (BitVec.ofNat 5 k)) rest

/-- The command of a 3-bit code (R106). -/
def commandOfCode (code : Nat) (args : CommandArgs) : Instr :=
  if code = 0 then .cmdReset
  else if code = 1 then .cmdStart args.bs args.bps args.truncEn
  else if code = 2 then .cmdRead args.dest args.len
  else if code = 3 then .cmdQueryType
  else if code = 4 then .cmdQueryWasted
  else if code = 5 then .cmdQueryStatus
  else .cmdReserved (decide (code = 7))

/-- A host command: its code and its arguments (R106). -/
def decodeCommand (args : CommandArgs) (bits : List Bool) : Decoded :=
  match takeBits 3 bits with
  | none => .rejected .short
  | some (code, rest) => .item (commandOfCode code args) rest

/-- The decoder: which format is read is fixed by fields already read (R62) or, for a command, by the port it arrives at. -/
def decode (format : Format) (bits : List Bool) (args : CommandArgs := { }) : Decoded :=
  match format with
  | .hdr => decodeHeader bits
  | .res => decodeResidualHeader bits
  | .part4 => decodePartition4 bits
  | .part5 => decodePartition5 bits
  | .cmd => decodeCommand args bits

/-- A header word with its wasted flag: `0 TYPE WF` (R50). -/
def headerBits (typeCode : Nat) (wf : Bool) : List Bool := false :: (natToBits 6 typeCode ++ [wf])

/-- The encoder, from the formats of R49 to R58 and the command codes of R106. A reserved row is encoded up to the field at which
the engine rejects it (R118). -/
def encode : Instr → Encoded
  | .constant wf => ⟨.hdr, headerBits 0 wf, { }⟩
  | .verbatim wf => ⟨.hdr, headerBits 1 wf, { }⟩
  | .fixed0 wf => ⟨.hdr, headerBits 8 wf, { }⟩
  | .fixed1 wf => ⟨.hdr, headerBits 9 wf, { }⟩
  | .fixed2 wf => ⟨.hdr, headerBits 10 wf, { }⟩
  | .fixed3 wf => ⟨.hdr, headerBits 11 wf, { }⟩
  | .fixed4 wf => ⟨.hdr, headerBits 12 wf, { }⟩
  | .lpc o wf => ⟨.hdr, headerBits (32 + o.toNat) wf, { }⟩
  | .reservedRsv => ⟨.hdr, [true], { }⟩
  | .reservedType2_3 o => ⟨.hdr, false :: natToBits 6 (2 + o.toNat), { }⟩
  | .reservedType4_7 o => ⟨.hdr, false :: natToBits 6 (4 + o.toNat), { }⟩
  | .reservedType13 => ⟨.hdr, false :: natToBits 6 13, { }⟩
  | .reservedType14_15 o => ⟨.hdr, false :: natToBits 6 (14 + o.toNat), { }⟩
  | .reservedType16_31 o => ⟨.hdr, false :: natToBits 6 (16 + o.toNat), { }⟩
  | .resRice p => ⟨.res, [false, false] ++ natToBits 4 p.toNat, { }⟩
  | .resRice2 p => ⟨.res, [false, true] ++ natToBits 4 p.toNat, { }⟩
  | .resReserved x => ⟨.res, [true, x], { }⟩
  | .partRice4 k => ⟨.part4, natToBits 4 k.toNat, { }⟩
  | .partEsc4 => ⟨.part4, natToBits 4 15, { }⟩
  | .partRice5 k => ⟨.part5, natToBits 5 k.toNat, { }⟩
  | .partEsc5 => ⟨.part5, natToBits 5 31, { }⟩
  | .cmdReset => ⟨.cmd, natToBits 3 0, { }⟩
  | .cmdStart bs bps t => ⟨.cmd, natToBits 3 1, { bs := bs, bps := bps, truncEn := t }⟩
  | .cmdRead dest len => ⟨.cmd, natToBits 3 2, { dest := dest, len := len }⟩
  | .cmdQueryType => ⟨.cmd, natToBits 3 3, { }⟩
  | .cmdQueryWasted => ⟨.cmd, natToBits 3 4, { }⟩
  | .cmdQueryStatus => ⟨.cmd, natToBits 3 5, { }⟩
  | .cmdReserved x => ⟨.cmd, natToBits 3 (6 + x.toNat), { }⟩

/-- The format a table row of `nbits` bits is read in. The table's five formats have five widths (8, 6, 5, 4, 3); rows of the
same bits in different formats differ only in that width (log entry 3). -/
def formatOfWidth (nbits : Nat) : Format :=
  if nbits = 3 then .cmd
  else if nbits = 4 then .part4
  else if nbits = 5 then .part5
  else if nbits = 6 then .res
  else .hdr

/-- The bits of a table row's word in wire order (R8), then zeros. No row of the table is wider than one byte. -/
def tableWordBits (nbits w : Nat) : List Bool := natToBits (min nbits 8) w ++ natToBits 64 0

/-- The instruction the decoder reads from a table row's word (a command's arguments are zero). -/
def decodeTableWord (nbits w : Nat) : Option Instr :=
  match decode (formatOfWidth nbits) (tableWordBits nbits w) { } with
  | .item i _ => some i
  | .rejected _ => none

end Sys2Proof
end

