-- ==== Sys2Proof/Machine/State.lean ====
section
/-! DEFINITION. The state of the engine, its bit source and its host port (spec/10_state.md R14 to R29), the ways a step can stop,
and the state after reset (spec/70_reset_and_hazards.md R127). -/

namespace Sys2Proof.Machine

/-- `STATUS.PHASE` (R19); `Phase.code` gives the numbers. -/
inductive Phase where
  | idle | readHeader | readRaw | readWarmup | readPredParams | decodeResidual | restore | done | failed
deriving DecidableEq, Repr

/-- `STATUS.ERR` (R19, R115). -/
inductive Err where
  | none | invalidStream | truncated | invalidConfig
deriving DecidableEq, Repr

/-- `STATUS.CAUSE` (R115). -/
inductive Cause where
  | none | reservedBit | reservedType | wastedTooLarge | orderExceedsBlock | reservedPrecision | negativeShift
  | reservedMethod | partitionTooSmall | partitionMisaligned | riceOverflow | readFailField | readFailPayload | badConfig
deriving DecidableEq, Repr

/-- `VARIANT` (R19); `Variant.code` gives the numbers. -/
inductive Variant where
  | constant | verbatim | fixed | lpc
deriving DecidableEq, Repr

/-- A buffer of words: (index, word) pairs, indices strictly rising. An index is listed exactly when its word carries the
written-mark of R27 and R29; a word without the mark holds no value, and a read of it is a fault (R27). -/
abbrev Memory := List (Nat × Word)

/-- The engine's three buffers (R23, R24, R25). -/
inductive Buffer where
  | samples | residuals | coefficients
deriving DecidableEq, Repr

/-- How far the residual section has been read: the locals `q` and `j` of R96. -/
structure ResidualProgress where
  /-- The number of the next partition. -/
  q : Nat
  /-- The index in `E` of the next residual. -/
  j : Nat
deriving DecidableEq, Repr

/-- A command as the host issues it: a 3-bit code and arguments (R106). -/
structure Command where
  code : BitVec 3
  args : CommandArgs
deriving DecidableEq, Repr

/-- What the host does: issue a command (R106), or position the bit source at bit `pos` of a stream, which it has as bits or as
bytes (R36, R38, R113, R129). -/
inductive HostEvent where
  | command (c : Command)
  | supply (bits : List Bool) (pos : Nat)
  | supplyBytes (bytes : List (BitVec 8)) (pos : Nat)
deriving DecidableEq, Repr

/-- A host event and when it arrives: while a decode is in progress it arrives after `wait` further engine steps. -/
structure Arrival where
  wait : Nat
  event : HostEvent
deriving DecidableEq, Repr

/-- The engine's answer to a command (R106 to R112). -/
inductive Response where
  | ok
  | done
  | failed (err : BitVec 2) (cause : BitVec 4)
  | busy
  | count (n : Nat)
  | endOfStream
  | notReady
  | subFrameType (value : BitVec 8)
  | wastedBits (value : BitVec 32)
  | status (phase : BitVec 4) (err : BitVec 2) (cause : BitVec 4)
  | illegalCommand
deriving DecidableEq, Repr

/-- The whole state (R29, with the bit source and the host of R14). -/
structure State where
  /-- `CTRL` bit 0, `TRUNC_EN` (R19). -/
  truncEn : Bool
  /-- `CFG_BS`, the block size (R19). -/
  cfgBs : BitVec 16
  /-- `CFG_BPS`, bits per sample (R19). -/
  cfgBps : BitVec 6
  /-- `STATUS.PHASE` (R19). -/
  phase : Phase
  /-- `STATUS.ERR` (R19). -/
  err : Err
  /-- `STATUS.CAUSE` (R19). -/
  cause : Cause
  /-- `TYPE`, the type code as read (R19). -/
  typeCode : BitVec 6
  /-- `WASTED` (R19, R20). -/
  wasted : BitVec 5
  /-- `VARIANT` (R19). -/
  variant : Variant
  /-- `ORDER` (R19). -/
  order : BitVec 6
  /-- `PRECISION` (R19). -/
  precision : BitVec 4
  /-- `SHIFT` (R19, R21). -/
  shift : BitVec 4
  /-- `METHOD` (R19). -/
  method : BitVec 1
  /-- `PART_ORDER` (R19). -/
  partOrder : BitVec 4
  /-- The coefficient file `C` (R25). -/
  c : Memory
  /-- The sample buffer `X` (R23). -/
  x : Memory
  /-- The residual buffer `E` (R24). -/
  e : Memory
  /-- `ACC` (R26). -/
  acc : Acc
  /-- `CURSOR`, the bits consumed since the current START (R17). -/
  cursor : Nat
  /-- The residual section in progress: none until its header has been read (R96). -/
  residual : Option ResidualProgress
  /-- The content of the bit source, in wire order; the engine never writes it (R15, R30). -/
  source : List Bool
  /-- The bit source's read position (R14). -/
  srcPos : Nat
  /-- What the host has issued and the engine has not yet taken, oldest first (R106). -/
  inbox : List Arrival
  /-- The answers given, oldest first (R106). -/
  responses : List Response
  /-- The host words READ has written (R108); a host word not listed is as the host left it. -/
  hostMem : Memory
  /-- The model's own: how many unspecified positions have been taken from `Config.freePosition`. -/
  freeCount : Nat
deriving DecidableEq, Repr

/-- Why a step stops with a fault of the MODEL. (A fault of the engine, R114, is no stop: it is the next state FAILED.) -/
inductive Fault where
  /-- Raised by the meaning of a wire item when the engine is in a phase that does not read it; the spec gives the item no effect
  there (R67), and `step` never runs one so. Safe. -/
  | outOfPhase
  /-- Raised by every read of a buffer word the current decode has not written (R27); the engine performs none. Safe. -/
  | unwritten (b : Buffer)
  /-- Raised by a write past the end of a buffer (R42); the engine performs none. Safe. -/
  | outsideBuffer (b : Buffer)
  /-- Raised when the host changes the bit source during a decode: the spec gives such a run no meaning (R47, I15). Safe. -/
  | streamChanged
deriving DecidableEq, Repr

/-- Why a step is refused. -/
inductive Refusal where
  /-- Raised only by an arm of `exec` whose instruction has no meaning yet; no arm is one now. Safe. -/
  | notModelled (mnemonic : String)
deriving DecidableEq, Repr

/-- What a meaning answers. -/
abbrev Result := Host.Outcome State Fault Refusal

/-- The state after power-on reset (R127): every register of R19 at the value of its table, every buffer word unwritten. `ACC`,
`CURSOR` and the bit source have no value in the spec there: log entry 1. -/
def State.reset : State where
  truncEn := false
  cfgBs := 0
  cfgBps := 0
  phase := .idle
  err := .none
  cause := .none
  typeCode := 0
  wasted := 0
  variant := .constant
  order := 0
  precision := 0
  shift := 0
  method := 0
  partOrder := 0
  c := []
  x := []
  e := []
  acc := 0
  cursor := 0
  residual := none
  source := []
  srcPos := 0
  inbox := []
  responses := []
  hostMem := []
  freeCount := 0

end Sys2Proof.Machine
end

