-- ==== Sys2Proof/Machine/Flags.lean ====
section
/-! DEFINITION. The status fields (spec/10_state.md R19, R22; spec/60_exceptions.md R115): the engine has no condition codes, so
`STATUS` is all that stands here. -/

namespace Sys2Proof.Machine

/-- The number of a phase (R19). -/
def Phase.code : Phase → BitVec 4
  | .idle => 0
  | .readHeader => 1
  | .readRaw => 2
  | .readWarmup => 3
  | .readPredParams => 4
  | .decodeResidual => 5
  | .restore => 6
  | .done => 7
  | .failed => 8

/-- The number of a variant (R19). -/
def Variant.code : Variant → BitVec 2
  | .constant => 0
  | .verbatim => 1
  | .fixed => 2
  | .lpc => 3

/-- The number of an error code (R115). -/
def Err.code : Err → BitVec 2
  | .none => 0
  | .invalidStream => 1
  | .truncated => 2
  | .invalidConfig => 3

/-- The number of a cause (R115). -/
def Cause.code : Cause → BitVec 4
  | .none => 0
  | .reservedBit => 1
  | .reservedType => 2
  | .wastedTooLarge => 3
  | .orderExceedsBlock => 4
  | .reservedPrecision => 5
  | .negativeShift => 6
  | .reservedMethod => 7
  | .partitionTooSmall => 8
  | .partitionMisaligned => 9
  | .riceOverflow => 10
  | .readFailField => 11
  | .readFailPayload => 12
  | .badConfig => 13

/-- A decode is in progress in phases 1 to 6 (R107, R111). -/
def Phase.busy : Phase → Bool
  | .idle => false
  | .readHeader => true
  | .readRaw => true
  | .readWarmup => true
  | .readPredParams => true
  | .decodeResidual => true
  | .restore => true
  | .done => false
  | .failed => false

/-- Answer a command (R106): the answer joins the answers already given. -/
def State.respond (r : Response) (s : State) : State := { s with responses := s.responses ++ [r] }

/-- The phase transition of R66. -/
def State.enter (p : Phase) (s : State) : State := { s with phase := p }

/-- The end of a successful decode: `PHASE` becomes DONE and START is answered (R66, R107). DESIGN CHOICE (log entry 19): `E`, `C`
and `ACC` keep what the decode last wrote; the spec allows any value of them in DONE (I13) and no command reads one. -/
def State.finish (s : State) : State := (s.enter .done).respond .done

/-- The two classes of bit read of R116. -/
inductive ReadClass where
  | field | payload
deriving DecidableEq, Repr

/-- The error code of a read failure (R116). -/
def ReadClass.err (cls : ReadClass) (truncEn : Bool) : Err :=
  match cls with
  | .payload => .invalidStream
  | .field => if truncEn then .truncated else .invalidStream

/-- The cause of a read failure (R116). -/
def ReadClass.cause : ReadClass → Cause
  | .field => .readFailField
  | .payload => .readFailPayload

end Sys2Proof.Machine
end

