-- ==== Sys2Proof/Machine/Ops.lean ====
section
/-! DEFINITION. The named operations every meaning is written from: exact arithmetic (spec/00_scope.md R9), the buffers
(spec/10_state.md R23 to R27), the bit-input primitives (spec/20_memory.md R32 to R35, spec/30_encoding.md R59), entering FAILED
(spec/60_exceptions.md R116, R117) and leaving it (R119). -/

namespace Sys2Proof.Machine

/-! ## Arithmetic -/

/-- `sext_n` (R9). -/
def sext (n v : Nat) : Int :=
  if n = 0 then 0 else if v < 2 ^ (n - 1) then (v : Int) else (v : Int) - (2 : Int) ^ n

/-- `wrap32`, as the register that holds it (R9). -/
def wrap32 (v : Int) : Word := BitVec.ofInt 32 v

/-- `wrap64`, as the register that holds it (R9). -/
def wrap64 (v : Int) : Acc := BitVec.ofInt 64 v

/-- The residual of a Rice code's unsigned value: 0, -1, 1, -2, 2, ... (R59). -/
def foldRice (u : Nat) : Int :=
  if u % 2 = 0 then ((u / 2 : Nat) : Int) else - (((u + 1) / 2 : Nat) : Int)

/-- The sum of the products of coefficients and samples, term by term, exact (R79, R90). -/
def dot : List Int → List Int → Int
  | c :: cs, v :: vs => c * v + dot cs vs
  | _, _ => 0

/-- What a register of `w` bits holds after it was given `v`; a `v` that does not fit leaves a free value (log entry 5). -/
def latch (w v : Nat) : BitVec w := if v < 2 ^ w then BitVec.ofNat w v else Config.overwide w v

/-! ## Buffers -/

/-- The indices of a buffer rise strictly: the one canonical form. -/
def Memory.wf : Memory → Bool
  | [] => true
  | (i, _) :: rest =>
    (match rest with
      | [] => true
      | (j, _) :: _ => decide (i < j)) && Memory.wf rest

/-- Read one word; nothing where no word has been written. -/
def Memory.read (m : Memory) (i : Nat) : Option Word :=
  match m with
  | [] => none
  | (j, w) :: rest => if j = i then some w else Memory.read rest i

/-- Write one word, in the canonical form. -/
def Memory.write (m : Memory) (i : Nat) (v : Word) : Memory :=
  match m with
  | [] => [(i, v)]
  | (j, w) :: rest =>
    if i < j then (i, v) :: (j, w) :: rest
    else if i = j then (i, v) :: rest
    else (j, w) :: Memory.write rest i v

/-- Write words at consecutive indices from `base`. -/
def Memory.writeRun (m : Memory) (base : Nat) : List Word → Memory
  | [] => m
  | v :: vs => Memory.writeRun (Memory.write m base v) (base + 1) vs

/-- The `n` words from index `i` up. -/
def Memory.readUp (m : Memory) (i : Nat) : Nat → Option (List Word)
  | 0 => some []
  | n + 1 =>
    match Memory.read m i, Memory.readUp m (i + 1) n with
    | some v, some vs => some (v :: vs)
    | _, _ => none

/-- The `n` words before index `i`, nearest first: the words at `i - 1`, `i - 2`, ... -/
def Memory.readDown (m : Memory) : Nat → Nat → Option (List Word)
  | _, 0 => some []
  | 0, _ + 1 => none
  | i + 1, n + 1 =>
    match Memory.read m i, Memory.readDown m i n with
    | some v, some vs => some (v :: vs)
    | _, _ => none

/-- How many words a buffer has (R23, R24, R25). -/
def Buffer.capacity : Buffer → Nat
  | .samples => Config.blockSizeMax
  | .residuals => Config.blockSizeMax
  | .coefficients => Config.lpcOrderMax

/-- The contents of a buffer. -/
def State.buffer (s : State) : Buffer → Memory
  | .samples => s.x
  | .residuals => s.e
  | .coefficients => s.c

/-- Replace the contents of a buffer. -/
def State.setBuffer (s : State) (b : Buffer) (m : Memory) : State :=
  match b with
  | .samples => { s with x := m }
  | .residuals => { s with e := m }
  | .coefficients => { s with c := m }

/-- Write words into a buffer from index `base`; past its end there is no word to write (R42). -/
def writeWords (b : Buffer) (base : Nat) (vs : List Word) (s : State) : Result :=
  if base + vs.length ≤ b.capacity then .next (s.setBuffer b (Memory.writeRun (s.buffer b) base vs))
  else .fault (.outsideBuffer b)

/-- Go on with a word of a buffer; an unwritten word is a fault (R27). -/
def withWord (b : Buffer) (i : Nat) (s : State) (k : Word → Result) : Result :=
  match Memory.read (s.buffer b) i with
  | none => .fault (.unwritten b)
  | some v => k v

/-- Go on with the `n` samples before index `i`, nearest first. -/
def withHistory (i n : Nat) (s : State) (k : List Word → Result) : Result :=
  match Memory.readDown s.x i n with
  | none => .fault (.unwritten .samples)
  | some vs => k vs

/-! ## Sequencing -/

/-- Go on from a next state; a stop stays a stop. -/
def andThen (r : Result) (k : State → Result) : Result :=
  match r with
  | .next s => k s
  | .fault f => .fault f
  | .refused q => .refused q

/-- A loop over `n` indices, strictly rising from `i` (R18, R79, R90). -/
def forEach (body : Nat → State → Result) : Nat → Nat → State → Result
  | 0, _, s => .next s
  | n + 1, i, s => andThen (body i s) (forEach body n (i + 1))

/-! ## Entering and leaving FAILED -/

/-- An unspecified position, at most `bound`: a free value under the spec's own bound (log entry 4). -/
def State.unspecified (s : State) (bound : Nat) : Nat := Config.freePosition s.freeCount % (bound + 1)

/-- Entering FAILED, the engine's one exception (R117): `PHASE`, `ERR` and `CAUSE` are written in one step and START is answered
(R107). `CURSOR` and the bit source's position are unspecified then, but not beyond the end of the stream (R17, R35, D26). -/
def raise (err : Err) (cause : Cause) (s : State) : State :=
  let start := s.srcPos - s.cursor
  let consumed := s.unspecified (s.source.length - start)
  { s with
    phase := .failed
    err := err
    cause := cause
    residual := none
    cursor := consumed
    srcPos := start + consumed
    freeCount := s.freeCount + 1
    responses := s.responses ++ [.failed err.code cause.code] }

/-- `raise InvalidStream(cause)` (R12). -/
def raiseStream (cause : Cause) (s : State) : State := raise .invalidStream cause s

/-- `raise ReadFail(cls)` (R116). -/
def readFail (cls : ReadClass) (s : State) : State := raise (cls.err s.truncEn) cls.cause s

/-- The way out of FAILED, DONE and IDLE into a new decode (R119, first two lines of `Decode()` in R66): the status is cleared,
`CURSOR` counts from 0 again and every written-mark is cleared. -/
def beginDecode (s : State) : State :=
  { s with
    phase := .readHeader
    err := .none
    cause := .none
    cursor := 0
    residual := none
    c := []
    x := []
    e := [] }

/-- The way out of any phase into IDLE (R112, R127): every register of R19 at its reset value and every written-mark cleared. The
bit source's position is unspecified afterwards. What belongs to the host stays: the stream, the events still to come, the
answers and the host words. -/
def resetEngine (s : State) : State :=
  { State.reset with
    source := s.source
    srcPos := s.unspecified s.source.length
    inbox := s.inbox
    responses := s.responses
    hostMem := s.hostMem
    freeCount := s.freeCount + 1 }

/-! ## Bit input -/

/-- The bits at the read position and after it. -/
def State.unread (s : State) : List Bool := s.source.drop s.srcPos

/-- Move the read position to `rest`, a tail of the unread bits, and count the bits consumed (R17, R32). -/
def State.advanceTo (rest : List Bool) (s : State) : State :=
  { s with
    cursor := s.cursor + (s.unread.length - rest.length)
    srcPos := s.srcPos + (s.unread.length - rest.length) }

/-- What one read of a payload code answers: a word and the bits after it, a failure, or a Rice code too large. -/
inductive CodeRead where
  | value (v : Word) (rest : List Bool)
  | short
  | overflow
deriving DecidableEq, Repr

/-- How a run of reads ends. -/
inductive RunEnd where
  | complete (rest : List Bool)
  | short
  | overflow
deriving DecidableEq, Repr

/-- `ReadS(n)` (R33), the value as the `i32` register holds it. -/
def readS (n : Nat) (bits : List Bool) : CodeRead :=
  match takeBits n bits with
  | none => .short
  | some (v, rest) => .value (wrap32 (sext n v)) rest

/-- `ReadUnary()` (R34): the zeros before the first one. -/
def readUnary : List Bool → Option (Nat × List Bool)
  | [] => none
  | true :: rest => some (0, rest)
  | false :: rest =>
    match readUnary rest with
    | none => none
    | some (n, rest') => some (n + 1, rest')

/-- `ReadRice(k)` (R59, R102): the quotient is checked when its unary code ends, before the remainder is read (R103). -/
def readRice (k : Nat) (bits : List Bool) : CodeRead :=
  match readUnary bits with
  | none => .short
  | some (q, rest) =>
    if 2 ^ (32 - k) ≤ q then .overflow
    else match takeBits k rest with
      | none => .short
      | some (r, rest') => .value (wrap32 (foldRice (q * 2 ^ k + r))) rest'

/-- `EscapeValue(v, n)` for one reading of `ESCAPE_RAW_SIGNED` (R60, R104). -/
def escapeValue (signed : Bool) (n v : Nat) : Int := if signed then sext n v else (v : Int)

/-- An escape raw field of `n` bits (R60, R104). -/
def readRaw (signed : Bool) (n : Nat) (bits : List Bool) : CodeRead :=
  match takeBits n bits with
  | none => .short
  | some (v, rest) => .value (wrap32 (escapeValue signed n v)) rest

/-- `n` reads one after another in wire order (R43), up to the first that fails: the values read, and how the run ends. -/
def readRun (code : List Bool → CodeRead) : Nat → List Bool → List Word × RunEnd
  | 0, bits => ([], .complete bits)
  | n + 1, bits =>
    match code bits with
    | .short => ([], .short)
    | .overflow => ([], .overflow)
    | .value v rest =>
      match readRun code n rest with
      | (vs, fin) => (v :: vs, fin)

/-- Read `n` codes into a buffer from index `base` and go on. The first failing read ends the decode, with the words read before
it written and nothing after it (R117). -/
def readInto (cls : ReadClass) (b : Buffer) (base n : Nat) (code : List Bool → CodeRead) (s : State)
    (k : State → Result) : Result :=
  match readRun code n s.unread with
  | (vs, fin) =>
    andThen (writeWords b base vs s) fun t =>
      match fin with
      | .complete rest => k (t.advanceTo rest)
      | .short => .next (readFail cls t)
      | .overflow => .next (raiseStream .riceOverflow t)

/-- Read an unsigned field of `n` bits and go on, the cursor moved past it (R32). -/
def withField (cls : ReadClass) (n : Nat) (s : State) (k : Nat → State → Result) : Result :=
  match takeBits n s.unread with
  | none => .next (readFail cls s)
  | some (v, rest) => k v (s.advanceTo rest)

end Sys2Proof.Machine
end

