-- ==== Sys2Proof/Machine/Operands.lean ====
section
/-! DEFINITION. The operands of the wire items: the values that fields already read give the later ones (spec/00_scope.md
glossary, spec/20_memory.md R39, spec/30_encoding.md R57 and R62). -/

namespace Sys2Proof.Machine

/-- `BS`, the block size. -/
def State.blockSize (s : State) : Nat := s.cfgBs.toNat

/-- `W = bps - WASTED`, the width of a sample field (R39, D4). -/
def State.sampleWidth (s : State) : Nat := s.cfgBps.toNat - s.wasted.toNat

/-- `BS >> PART_ORDER`, the samples of a partition (R57). -/
def State.partitionSamples (s : State) : Nat := s.blockSize / 2 ^ s.partOrder.toNat

/-- `2^PART_ORDER`, the number of partitions (R56, R100). -/
def State.partitionCount (s : State) : Nat := 2 ^ s.partOrder.toNat

/-- `count(q)`, the residuals of partition `q` (R57, R100). -/
def State.residualCount (s : State) (q : Nat) : Nat :=
  if q = 0 then s.partitionSamples - s.order.toNat else s.partitionSamples

/-- The format of a partition's parameter, by method (R56, R101). -/
def State.partitionFormat (s : State) : Format := if s.method = 0 then .part4 else .part5

/-- The variant a legal type code selects (R71). -/
def variantOfType (t : Nat) : Variant :=
  if t = 0 then .constant else if t = 1 then .verbatim else if t < 32 then .fixed else .lpc

/-- The order a legal type code selects (R71): 0 for Constant and Verbatim, `TYPE[2:0]` for Fixed, `TYPE[4:0] + 1` for LPC. -/
def orderOfType (t : Nat) : Nat := if t < 2 then 0 else if t < 32 then t % 8 else t % 32 + 1

end Sys2Proof.Machine
end

