-- ==== Sys2Proof/Machine/Command.lean ====
section
/-! DEFINITION. The host commands (spec/45_host.md R106 to R112). -/

namespace Sys2Proof.Machine

/-- The ranges of R7, the check of `Decode()` (R66). -/
def configLegal (bs bps : Nat) : Bool :=
  decide (1 ≤ bs) && decide (bs ≤ Config.blockSizeMax) && decide (1 ≤ bps) && decide (bps ≤ Config.bpsMax)

/-- CMD_RESET (R112). -/
def execCmdReset (s : State) : Result := .next ((resetEngine s).respond .ok)

/-- CMD_START (R107): the configuration is latched as given, then the decode begins with the configuration check (R66). While a
decode is in progress the answer is BUSY. START's own answer comes when the decode ends. -/
def execCmdStart (bs bps : Nat) (truncEn : Bool) (s : State) : Result :=
  if s.phase.busy then .next (s.respond .busy)
  else
    let t := beginDecode { s with truncEn := truncEn, cfgBs := latch 16 bs, cfgBps := latch 6 bps }
    if configLegal bs bps then .next t else .next (raise .invalidConfig .badConfig t)

/-- CMD_READ (R108): all `BS` words or none. -/
def execCmdRead (dest len : Nat) (s : State) : Result :=
  match s.phase with
  | .done =>
    if len < s.blockSize then .next (s.respond .endOfStream)
    else
      match Memory.readUp s.x 0 s.blockSize with
      | none => .fault (.unwritten .samples)
      | some words =>
        .next ({ s with hostMem := Memory.writeRun s.hostMem dest words }.respond (.count s.blockSize))
  | .failed => .next (s.respond (.failed s.err.code s.cause.code))
  | _ => .next (s.respond .notReady)

/-- CMD_QUERY_TYPE (R109). -/
def execCmdQueryType (s : State) : Result :=
  match s.phase with
  | .done => .next (s.respond (.subFrameType (s.typeCode.setWidth 8)))
  | _ => .next (s.respond .notReady)

/-- CMD_QUERY_WASTED (R110). -/
def execCmdQueryWasted (s : State) : Result :=
  match s.phase with
  | .done => .next (s.respond (.wastedBits (s.wasted.setWidth 32)))
  | _ => .next (s.respond .notReady)

/-- CMD_QUERY_STATUS, in every phase (R111). -/
def execCmdQueryStatus (s : State) : Result :=
  .next (s.respond (.status s.phase.code s.err.code s.cause.code))

/-- CMD_RESERVED: refused by its answer, with no other change (R106). -/
def execCmdReserved (_x : Bool) (s : State) : Result := .next (s.respond .illegalCommand)

end Sys2Proof.Machine
end

