-- ==== Sys2Proof/Machine/Header.lean ====
section
/-! DEFINITION. The header shared by every variant, the warm-up and the wasted-bits shift (spec/40_dispatch.md R69 to R73, R76),
and the meanings of the reserved header rows. -/

namespace Sys2Proof.Machine

/-- `Dispatch()` for a legal type code, with the `TYPE` it was read from (R69, R71). -/
def State.dispatch (t : Nat) (s : State) : State :=
  { s with
    typeCode := BitVec.ofNat 6 t
    variant := variantOfType t
    order := BitVec.ofNat 6 (orderOfType t) }

/-- The wasted count (R70): the check is made after the whole unary code has been read. -/
def readWasted (wf : Bool) (s : State) (k : State → Result) : Result :=
  match wf with
  | false => k { s with wasted := 0 }
  | true =>
    match readUnary s.unread with
    | none => .next (readFail .field s)
    | some (zeros, rest) =>
      if s.cfgBps.toNat ≤ zeros + 1 then
        .next (raiseStream .wastedTooLarge { s.advanceTo rest with wasted := latch 5 (zeros + 1) })
      else k { s.advanceTo rest with wasted := latch 5 (zeros + 1) }

/-- `ReadHeader()` for a legal type code from its wasted flag on, the eight bits of the header word being read already: the wasted
count, then the order check (R69 to R72; for Constant and Verbatim the order is 0 and the check passes). -/
def header (t : Nat) (wf : Bool) (body : Phase) (s : State) : Result :=
  readWasted wf (s.dispatch t) fun u =>
    if u.blockSize < u.order.toNat then .next (raiseStream .orderExceedsBlock u) else .next (u.enter body)

/-- `Warmup()`, then the phase that follows it (R73). -/
def warmup (following : Phase) (s : State) : Result :=
  readInto .field .samples 0 s.order.toNat (readS s.sampleWidth) s fun t => .next (t.enter following)

/-- One sample of `WastedShift()` (R76). -/
def shiftSample (i : Nat) (s : State) : Result :=
  withWord .samples i s fun v => writeWords .samples i [wrap32 (v.toInt * 2 ^ s.wasted.toNat)] s

/-- `WastedShift()`, then DONE (R66, R76). -/
def complete (s : State) : Result :=
  andThen (forEach shiftSample s.blockSize 0 s) fun t => .next t.finish

/-- A reserved type code: `TYPE` is read, then the dispatcher rejects it (R71, R118). -/
def rejectType (t : Nat) (s : State) : Result :=
  match s.phase with
  | .readHeader => .next (raiseStream .reservedType { s with typeCode := BitVec.ofNat 6 t })
  | _ => .fault .outOfPhase

/-- RESERVED_RSV (R69, R118): rejected before the type code is read. -/
def execReservedRsv (s : State) : Result :=
  match s.phase with
  | .readHeader => .next (raiseStream .reservedBit s)
  | _ => .fault .outOfPhase

/-- RESERVED_TYPE_2_3 (R71). -/
def execReservedType2_3 (o : BitVec 1) (s : State) : Result := rejectType (2 + o.toNat) s

/-- RESERVED_TYPE_4_7 (R71). -/
def execReservedType4_7 (o : BitVec 2) (s : State) : Result := rejectType (4 + o.toNat) s

/-- RESERVED_TYPE_13 (R71). -/
def execReservedType13 (s : State) : Result := rejectType 13 s

/-- RESERVED_TYPE_14_15 (R71). -/
def execReservedType14_15 (o : BitVec 1) (s : State) : Result := rejectType (14 + o.toNat) s

/-- RESERVED_TYPE_16_31 (R71). -/
def execReservedType16_31 (o : BitVec 4) (s : State) : Result := rejectType (16 + o.toNat) s

end Sys2Proof.Machine
end

