-- ==== Sys2Proof/Machine/Fixed.lean ====
section
/-! DEFINITION. The fixed-predictor accumulator (spec/41_fixed.md R79 to R85). -/

namespace Sys2Proof.Machine

/-- One sample of `FixedRestore()` (R79): `X[i] <- wrap32(E[i - ORDER] + P(i))`, where `P(i)` is the sum of `coeffs[k] * X[i-1-k]`. -/
def fixedSample (coeffs : List Int) (i : Nat) (s : State) : Result :=
  withWord .residuals (i - s.order.toNat) s fun e =>
    withHistory i coeffs.length s fun past =>
      writeWords .samples i [wrap32 (e.toInt + dot coeffs (past.map BitVec.toInt))] s

/-- `FixedRestore()`, then the wasted shift (R66, R79). -/
def fixedRestore (coeffs : List Int) (s : State) : Result :=
  andThen (forEach (fixedSample coeffs) (s.blockSize - s.order.toNat) s.order.toNat s) complete

/-- A fixed-predictor sub-frame of type code `t`, phase by phase (R67); the residual section in between is the RES and PART
items'. -/
def fixedPhases (t : Nat) (coeffs : List Int) (wf : Bool) (s : State) : Result :=
  match s.phase with
  | .readHeader => header t wf .readWarmup s
  | .readWarmup => warmup .decodeResidual s
  | .restore => fixedRestore coeffs s
  | _ => .fault .outOfPhase

/-- FIXED0: `P_0(i) = 0` (R81). -/
def execFixed0 (wf : Bool) (s : State) : Result := fixedPhases 8 [] wf s

/-- FIXED1: `P_1(i) = X[i-1]` (R82). -/
def execFixed1 (wf : Bool) (s : State) : Result := fixedPhases 9 [1] wf s

/-- FIXED2: `P_2(i) = 2*X[i-1] - X[i-2]` (R83). -/
def execFixed2 (wf : Bool) (s : State) : Result := fixedPhases 10 [2, -1] wf s

/-- FIXED3: `P_3(i) = 3*X[i-1] - 3*X[i-2] + X[i-3]` (R84). -/
def execFixed3 (wf : Bool) (s : State) : Result := fixedPhases 11 [3, -3, 1] wf s

/-- FIXED4: `P_4(i) = 4*X[i-1] - 6*X[i-2] + 4*X[i-3] - X[i-4]` (R85). -/
def execFixed4 (wf : Bool) (s : State) : Result := fixedPhases 12 [4, -6, 4, -1] wf s

end Sys2Proof.Machine
end

