-- ==== Sys2Proof/Machine/Lpc.lean ====
section
/-! DEFINITION. The LPC dot-product unit (spec/42_lpc.md R86 to R94). -/

namespace Sys2Proof.Machine

/-- `LpcParams()` (R86): each field is checked before the next is read (R87, R88). -/
def lpcParams (s : State) : Result :=
  withField .field 4 s fun f s1 =>
    if f = 15 then .next (raiseStream .reservedPrecision s1)
    else withField .field 5 { s1 with precision := BitVec.ofNat 4 (f + 1) } fun v s2 =>
      if sext 5 v < 0 then .next (raiseStream .negativeShift s2)
      else readInto .field .coefficients 0 s2.order.toNat (readS s2.precision.toNat)
        { s2 with shift := BitVec.ofNat 4 v } fun t => .next (t.enter .decodeResidual)

/-- One sample of `LpcRestore()` (R90, R91): the sum goes into the 64-bit accumulator, the shift is an arithmetic one of the
accumulator, and the residual is added before the result is narrowed. -/
def lpcSample (coeffs : List Int) (i : Nat) (s : State) : Result :=
  withWord .residuals (i - s.order.toNat) s fun e =>
    withHistory i coeffs.length s fun past =>
      let acc := wrap64 (dot coeffs (past.map BitVec.toInt))
      writeWords .samples i [wrap32 (e.toInt + (acc.sshiftRight s.shift.toNat).toInt)] { s with acc := acc }

/-- `LpcRestore()` with the coefficients `C[0 .. ORDER-1]`, then the wasted shift (R66, R90). -/
def lpcRestore (s : State) : Result :=
  match Memory.readUp s.c 0 s.order.toNat with
  | none => .fault (.unwritten .coefficients)
  | some cs =>
    andThen (forEach (lpcSample (cs.map BitVec.toInt)) (s.blockSize - s.order.toNat) s.order.toNat s) complete

/-- LPC of order `o + 1` (R94), phase by phase (R67); the residual section in between is the RES and PART items'. -/
def execLpc (o : BitVec 5) (wf : Bool) (s : State) : Result :=
  match s.phase with
  | .readHeader => header (32 + o.toNat) wf .readWarmup s
  | .readWarmup => warmup .readPredParams s
  | .readPredParams => lpcParams s
  | .restore => lpcRestore s
  | _ => .fault .outOfPhase

end Sys2Proof.Machine
end

