-- ==== Sys2Proof/Machine/Raw.lean ====
section
/-! DEFINITION. The two variants without a predictor: Constant and Verbatim (spec/40_dispatch.md R74, R75). -/

namespace Sys2Proof.Machine

/-- `ConstantBody()`, then the wasted shift (R74). -/
def constantBody (s : State) : Result :=
  match readS s.sampleWidth s.unread with
  | .value v rest => andThen (writeWords .samples 0 (List.replicate s.blockSize v) (s.advanceTo rest)) complete
  | .short => .next (readFail .field s)
  | .overflow => .next (raiseStream .riceOverflow s)

/-- `VerbatimBody()`, then the wasted shift (R75). -/
def verbatimBody (s : State) : Result :=
  readInto .field .samples 0 s.blockSize (readS s.sampleWidth) s complete

/-- CONSTANT (R74), phase by phase (R67). -/
def execConstant (wf : Bool) (s : State) : Result :=
  match s.phase with
  | .readHeader => header 0 wf .readRaw s
  | .readRaw => constantBody s
  | _ => .fault .outOfPhase

/-- VERBATIM (R75), phase by phase (R67). -/
def execVerbatim (wf : Bool) (s : State) : Result :=
  match s.phase with
  | .readHeader => header 1 wf .readRaw s
  | .readRaw => verbatimBody s
  | _ => .fault .outOfPhase

end Sys2Proof.Machine
end

