-- ==== Sys2Proof/Machine/Residual.lean ====
section
/-! DEFINITION. The partitioned-Rice residual decoder (spec/43_residual.md R96 to R105). -/

namespace Sys2Proof.Machine

/-- Go on when the engine is to read the residual header next. -/
def atResidualHeader (s : State) (r : Result) : Result :=
  match s.phase, s.residual with
  | .decodeResidual, none => r
  | _, _ => .fault .outOfPhase

/-- Go on when the engine is to read a partition of the given method next. -/
def atPartition (method : BitVec 1) (s : State) (k : ResidualProgress → Result) : Result :=
  match s.phase, s.residual with
  | .decodeResidual, some at_ => if s.method = method then k at_ else .fault .outOfPhase
  | _, _ => .fault .outOfPhase

/-- The residual header with a legal method: `METHOD` and `PART_ORDER` are written, then the two partition checks are made in
their order (R96 to R99). -/
def residualHeader (method : BitVec 1) (p : BitVec 4) (s : State) : Result :=
  atResidualHeader s <|
    let t := { s with method := method, partOrder := p }
    if t.partitionSamples < t.order.toNat then .next (raiseStream .partitionTooSmall t)
    else if t.blockSize % t.partitionCount ≠ 0 then .next (raiseStream .partitionMisaligned t)
    else .next { t with residual := some ⟨0, 0⟩ }

/-- After partition `q`: the next one, or RESTORE after the last (R66, R96). -/
def nextPartition (q j : Nat) (s : State) : State :=
  if q + 1 < s.partitionCount then { s with residual := some ⟨q + 1, j⟩ }
  else { s with residual := none, phase := .restore }

/-- A partition's residuals, read by `code` into `E` from the next index on (R101). -/
def readPartition (code : List Bool → CodeRead) (at_ : ResidualProgress) (s : State) : Result :=
  readInto .payload .residuals at_.j (s.residualCount at_.q) code s fun t =>
    .next (nextPartition at_.q (at_.j + s.residualCount at_.q) t)

/-- A Rice partition (R102). -/
def ricePartition (method : BitVec 1) (k : Nat) (s : State) : Result :=
  atPartition method s fun at_ => readPartition (readRice k) at_ s

/-- An escape partition: the raw width is a payload read (R101, R104). -/
def escapePartition (method : BitVec 1) (s : State) : Result :=
  atPartition method s fun at_ =>
    withField .payload 5 s fun n t => readPartition (readRaw Config.escapeRawSigned n) at_ t

/-- RES_RICE (R105). -/
def execResRice (p : BitVec 4) (s : State) : Result := residualHeader 0 p s

/-- RES_RICE2 (R105). -/
def execResRice2 (p : BitVec 4) (s : State) : Result := residualHeader 1 p s

/-- RES_RESERVED: rejected before the partition order is read, and before `METHOD` is written (R96, R97). -/
def execResReserved (_x : Bool) (s : State) : Result :=
  atResidualHeader s (.next (raiseStream .reservedMethod s))

/-- PART_RICE4 (R102, R105). -/
def execPartRice4 (k : BitVec 4) (s : State) : Result := ricePartition 0 k.toNat s

/-- PART_ESC4 (R104, R105). -/
def execPartEsc4 (s : State) : Result := escapePartition 0 s

/-- PART_RICE5 (R102, R105). -/
def execPartRice5 (k : BitVec 5) (s : State) : Result := ricePartition 1 k.toNat s

/-- PART_ESC5 (R104, R105). -/
def execPartEsc5 (s : State) : Result := escapePartition 1 s

end Sys2Proof.Machine
end

