-- ==== Sys2Proof/Machine/Dispatch.lean ====
section
/-! DEFINITION. One arm per row of spec/opcode_table.json. -/

namespace Sys2Proof.Machine

def exec (i : Instr) (s : State) : Host.Outcome State Fault Refusal :=
  match i with
  | .constant wf => Sys2Proof.Machine.execConstant wf s
  | .verbatim wf => Sys2Proof.Machine.execVerbatim wf s
  | .fixed0 wf => Sys2Proof.Machine.execFixed0 wf s
  | .fixed1 wf => Sys2Proof.Machine.execFixed1 wf s
  | .fixed2 wf => Sys2Proof.Machine.execFixed2 wf s
  | .fixed3 wf => Sys2Proof.Machine.execFixed3 wf s
  | .fixed4 wf => Sys2Proof.Machine.execFixed4 wf s
  | .lpc o wf => Sys2Proof.Machine.execLpc o wf s
  | .reservedRsv => Sys2Proof.Machine.execReservedRsv s
  | .reservedType2_3 o => Sys2Proof.Machine.execReservedType2_3 o s
  | .reservedType4_7 o => Sys2Proof.Machine.execReservedType4_7 o s
  | .reservedType13 => Sys2Proof.Machine.execReservedType13 s
  | .reservedType14_15 o => Sys2Proof.Machine.execReservedType14_15 o s
  | .reservedType16_31 o => Sys2Proof.Machine.execReservedType16_31 o s
  | .resRice p => Sys2Proof.Machine.execResRice p s
  | .resRice2 p => Sys2Proof.Machine.execResRice2 p s
  | .resReserved x => Sys2Proof.Machine.execResReserved x s
  | .partRice4 k => Sys2Proof.Machine.execPartRice4 k s
  | .partEsc4 => Sys2Proof.Machine.execPartEsc4 s
  | .partRice5 k => Sys2Proof.Machine.execPartRice5 k s
  | .partEsc5 => Sys2Proof.Machine.execPartEsc5 s
  | .cmdReset => Sys2Proof.Machine.execCmdReset s
  | .cmdStart bs bps truncEn => Sys2Proof.Machine.execCmdStart bs bps truncEn s
  | .cmdRead dest len => Sys2Proof.Machine.execCmdRead dest len s
  | .cmdQueryType => Sys2Proof.Machine.execCmdQueryType s
  | .cmdQueryWasted => Sys2Proof.Machine.execCmdQueryWasted s
  | .cmdQueryStatus => Sys2Proof.Machine.execCmdQueryStatus s
  | .cmdReserved x => Sys2Proof.Machine.execCmdReserved x s

end Sys2Proof.Machine
end

