-- ==== Sys2Proof/Machine/Fetch.lean ====
section
/-! DEFINITION. What the machine does next: a host event that has arrived, or the engine's own next item in the order of
`Decode()` (spec/40_dispatch.md R66, R67; spec/45_host.md R106, R113). -/

namespace Sys2Proof.Machine

/-- What is fetched: an instruction to run and the state to run it in, or a step without an instruction, or a stop. -/
inductive Fetched where
  | run (i : Instr) (s : State)
  | without (s : State)
  | stop (f : Fault)
deriving DecidableEq, Repr

/-- The sub-frame instruction in progress, from `TYPE` and `WASTED`: the wasted flag is 1 exactly when the count is not 0 (R70). -/
def State.inFlight (s : State) : Instr := instrOfType s.typeCode.toNat (decide (s.wasted ≠ 0))

/-- What a header that ends too soon has written: all of `Dispatch()` when only the wasted flag is missing (R69). -/
def State.shortHeader (s : State) : State :=
  match s.unread with
  | false :: bits =>
    match takeBits 6 bits with
    | some (t, _) => s.dispatch t
    | none => s
  | _ => s

/-- What a residual header that ends too soon has written: `METHOD` when only the partition order is missing (R96). -/
def State.shortResidualHeader (s : State) : State :=
  match s.unread with
  | false :: m :: _ => { s with method := BitVec.ofBool m }
  | _ => s

/-- Decode the next item of the given format at the read position; a field the stream ends inside is a field-read failure (R66,
R96, R101), in the state `short` that the fields before it leave. -/
def fetchItem (format : Format) (short : State) (s : State) : Fetched :=
  match decode format s.unread { } with
  | .item i rest => .run i (s.advanceTo rest)
  | .rejected _ => .without (readFail .field short)

/-- The engine's own next action: nothing between decodes (R126), else the next item of the stream or the sub-frame instruction in
progress. -/
def engineFetch (s : State) : Fetched :=
  match s.phase with
  | .idle => .without s
  | .readHeader => fetchItem .hdr s.shortHeader s
  | .readRaw => .run s.inFlight s
  | .readWarmup => .run s.inFlight s
  | .readPredParams => .run s.inFlight s
  | .decodeResidual =>
    match s.residual with
    | none => fetchItem .res s.shortResidualHeader s
    | some _ => fetchItem s.partitionFormat s s
  | .restore => .run s.inFlight s
  | .done => .without s
  | .failed => .without s

/-- The bit source is given a new stream and positioned, at most at its end. The host does this between decodes only: the spec gives
no meaning to a run in which the stream changes during one (R47, R113). -/
def supplyStream (bits : List Bool) (pos : Nat) (s : State) : Fetched :=
  if s.phase.busy then .stop .streamChanged
  else .without { s with source := bits, srcPos := min pos bits.length }

/-- A host event arrives: a command is decoded (R106), or a stream is supplied. -/
def takeEvent (event : HostEvent) (s : State) : Fetched :=
  match event with
  | .command c =>
    match decode .cmd (natToBits 3 c.code.toNat) c.args with
    | .item i _ => .run i s
    | .rejected _ => .without s
  | .supply bits pos => supplyStream bits pos s
  | .supplyBytes bytes pos => supplyStream (bitsOfBytes bytes) pos s

/-- The next action. The host's events are taken in the order issued (R106); while a decode is in progress an event arrives when
its `wait` has run out, and the engine moves until then. -/
def fetch (s : State) : Fetched :=
  match s.inbox with
  | [] => engineFetch s
  | a :: rest =>
    if s.phase.busy && decide (a.wait ≠ 0) then engineFetch { s with inbox := { a with wait := a.wait - 1 } :: rest }
    else takeEvent a.event { s with inbox := rest }

end Sys2Proof.Machine
end

