-- ==== Sys2Proof/Machine/Step.lean ====
section
/-! DEFINITION. One step: fetch, then run. -/

namespace Sys2Proof.Machine

/-- One step of the machine: one host event, or one item of the wire, or one phase of the sub-frame instruction in progress. -/
def step (s : State) : Host.Outcome State Fault Refusal :=
  match fetch s with
  | .run i t => exec i t
  | .without t => .next t
  | .stop f => .fault f

/-- The engine ready to fetch a wire item: between fields of a decode with a legal configuration (kept where `s` has one), with no
host event before it, and the table word next in the bit source. -/
def State.withWireWord (s : State) (phase : Phase) (bits : List Bool) : State :=
  { s with
    cfgBs := if configLegal s.cfgBs.toNat s.cfgBps.toNat then s.cfgBs else 64
    cfgBps := if configLegal s.cfgBs.toNat s.cfgBps.toNat then s.cfgBps else 16
    phase := phase
    cursor := 0
    source := bits
    srcPos := 0
    inbox := [] }

/-- `s` with a table row's word where `step` fetches next, so that the next step runs it: a command code at the head of the host's
events, a wire item at the bit source's position in the phase that reads its format (log entry 3). -/
def State.withFetchWord (s : State) (nbits w : Nat) : State :=
  match formatOfWidth nbits with
  | .cmd => { s with inbox := [⟨0, .command ⟨BitVec.ofNat 3 w, { }⟩⟩] }
  | .hdr => s.withWireWord .readHeader (tableWordBits nbits w)
  | .res => { s.withWireWord .decodeResidual (tableWordBits nbits w) with residual := none }
  | .part4 => { s.withWireWord .decodeResidual (tableWordBits nbits w) with residual := some ⟨0, 0⟩, method := 0 }
  | .part5 => { s.withWireWord .decodeResidual (tableWordBits nbits w) with residual := some ⟨0, 0⟩, method := 1 }

end Sys2Proof.Machine
end

