-- ==== Sys2Proof/Safety.lean ====
section
/-! DEFINITION. The terms the claims are stated in: the wire form of payload fields, the predictors written as formulas, which words
of a buffer are written, the invariant of the machine, and what a safe step is. -/

namespace Sys2Proof

/-! ## Payload on the wire -/

/-- Fields of `n` bits back to back, most significant bit first (R36). -/
def fieldsBits (n : Nat) (vs : List Nat) : List Bool := vs.flatMap (natToBits n)

/-- The Rice code of `u` with parameter `k`: the quotient as zeros ended by a one, then the remainder (R59). -/
def riceBits (k u : Nat) : List Bool := List.replicate (u / 2 ^ k) false ++ true :: natToBits k (u % 2 ^ k)

/-- Rice codes back to back. -/
def ricesBits (k : Nat) (us : List Nat) : List Bool := us.flatMap (riceBits k)

end Sys2Proof

namespace Sys2Proof.Machine

/-! ## The predictors, as R81 to R85 and R90 write them -/

/-- `P_n(i)` over the samples `x` (R81 to R85). -/
def fixedPrediction (n : Nat) (x : Nat → Int) (i : Nat) : Int :=
  match n with
  | 0 => 0
  | 1 => x (i - 1)
  | 2 => 2 * x (i - 1) - x (i - 2)
  | 3 => 3 * x (i - 1) - 3 * x (i - 2) + x (i - 3)
  | _ => 4 * x (i - 1) - 6 * x (i - 2) + 4 * x (i - 3) - x (i - 4)

/-- The fixed-predictor instruction of order `n`, 0 to 4. -/
def fixedInstr (n : Nat) (wf : Bool) : Instr :=
  match n with
  | 0 => .fixed0 wf
  | 1 => .fixed1 wf
  | 2 => .fixed2 wf
  | 3 => .fixed3 wf
  | _ => .fixed4 wf

/-- The exact dot product of R90: the sum over `k < n` of `c k * x (i - 1 - k)`. -/
def dotProduct (n : Nat) (c x : Nat → Int) (i : Nat) : Int :=
  ((List.range n).map fun k => c k * x (i - 1 - k)).sum

/-! ## States -/

/-- `s` after `n` bits have been consumed (R17). -/
def State.consumed (n : Nat) (s : State) : State := { s with cursor := s.cursor + n, srcPos := s.srcPos + n }

/-- No host event arrives at this step, and `s'` is the state the engine then moves from: nothing is pending, or the oldest
pending event has one step less to wait. -/
def EngineMoves (s s' : State) : Prop :=
  (s.inbox = [] ∧ s' = s) ∨
  (s.phase.busy = true ∧ ∃ w e rest, s.inbox = ⟨w + 1, e⟩ :: rest ∧ s' = { s with inbox := ⟨w, e⟩ :: rest })

/-- The answer `r` is the entry into FAILED from `s` with this error and cause (R117): the status says so, START is answered, and
neither the configuration, the accumulator, the bit source's content nor anything of the host has changed. -/
def FailsWith (r : Result) (s : State) (err : Err) (cause : Cause) : Prop :=
  ∃ t, r = .next t ∧ t.phase = .failed ∧ t.err = err ∧ t.cause = cause ∧
    t.responses = s.responses ++ [.failed err.code cause.code] ∧
    t.truncEn = s.truncEn ∧ t.cfgBs = s.cfgBs ∧ t.cfgBps = s.cfgBps ∧ t.acc = s.acc ∧
    t.source = s.source ∧ t.inbox = s.inbox ∧ t.hostMem = s.hostMem

/-! ## Written words -/

/-- The words `0 .. n-1` of a buffer are written, and no other. -/
def Memory.Exactly (m : Memory) (n : Nat) : Prop := ∀ i, (Memory.read m i).isSome = true ↔ i < n

/-- The first `n` words of a buffer are `f 0, f 1, ...`. -/
def Memory.Holds (m : Memory) (n : Nat) (f : Nat → Word) : Prop := ∀ i, i < n → Memory.read m i = some (f i)

/-! ## The invariant -/

/-- Phases in which the header has been read. -/
def Phase.pastHeader (p : Phase) : Bool := (p.busy && decide (p ≠ .readHeader)) || decide (p = .done)

/-- The error and cause of a fault belong together (R115). -/
def faultPair (e : Err) (c : Cause) : Bool :=
  match e, c with
  | .none, _ => false
  | _, .none => false
  | .truncated, c => decide (c = .readFailField)
  | .invalidConfig, c => decide (c = .badConfig)
  | .invalidStream, c => decide (c ≠ .badConfig)

/-- The phases a variant goes through after the header (R67). -/
def phaseFits (v : Variant) (p : Phase) : Bool :=
  match p with
  | .readRaw => decide (v = .constant ∨ v = .verbatim)
  | .readWarmup => decide (v = .fixed ∨ v = .lpc)
  | .readPredParams => decide (v = .lpc)
  | .decodeResidual => decide (v = .fixed ∨ v = .lpc)
  | .restore => decide (v = .fixed ∨ v = .lpc)
  | _ => true

/-- The buffers are in canonical form. -/
structure BuffersCanonical (s : State) : Prop where
  x : Memory.wf s.x = true
  e : Memory.wf s.e = true
  c : Memory.wf s.c = true
  hostMem : Memory.wf s.hostMem = true

/-- What the header fields hold once the header has been read (R70, R71, R72). -/
structure HeaderRead (s : State) : Prop where
  legal : typeReserved s.typeCode.toNat = false
  variant : s.variant = variantOfType s.typeCode.toNat
  order : s.order.toNat = orderOfType s.typeCode.toNat
  wasted : s.wasted.toNat < s.cfgBps.toNat
  fits : s.order.toNat ≤ s.blockSize

/-- What the LPC parameters hold once they have been read (R86 to R89). -/
structure ParamsRead (s : State) : Prop where
  precision : 1 ≤ s.precision.toNat
  coefficients : Memory.Exactly s.c s.order.toNat
  range : ∀ k v, Memory.read s.c k = some v →
    -(2 : Int) ^ (s.precision.toNat - 1) ≤ v.toInt ∧ v.toInt < (2 : Int) ^ (s.precision.toNat - 1)

/-- How far the residual section is (R96 to R100). -/
structure ResidualAt (s : State) (at_ : ResidualProgress) : Prop where
  inside : at_.q < s.partitionCount
  large : s.order.toNat ≤ s.partitionSamples
  aligned : s.blockSize % s.partitionCount = 0
  index : at_.j = if at_.q = 0 then 0 else at_.q * s.partitionSamples - s.order.toNat
  written : Memory.Exactly s.e at_.j

/-- The invariant: what every step keeps. -/
structure EngineInv (s : State) : Prop where
  buffers : BuffersCanonical s
  position : s.srcPos ≤ s.source.length
  counted : s.phase.busy = true → s.cursor ≤ s.srcPos
  noFault : s.phase ≠ .failed → s.err = .none ∧ s.cause = .none
  fault : s.phase = .failed → faultPair s.err s.cause = true
  config : (s.phase.busy = true ∨ s.phase = .done) → configLegal s.cfgBs.toNat s.cfgBps.toNat = true
  header : s.phase.pastHeader = true → HeaderRead s
  fits : phaseFits s.variant s.phase = true
  params : s.variant = .lpc → (s.phase = .decodeResidual ∨ s.phase = .restore) → ParamsRead s
  unwrittenX : (s.phase = .readHeader ∨ s.phase = .readRaw ∨ s.phase = .readWarmup) → s.x = []
  warmupX : (s.phase = .readPredParams ∨ s.phase = .decodeResidual ∨ s.phase = .restore) →
    Memory.Exactly s.x s.order.toNat
  doneX : s.phase = .done → Memory.Exactly s.x s.blockSize
  unwrittenC : (s.phase = .readHeader ∨ s.phase = .readWarmup ∨ s.phase = .readPredParams) → s.c = []
  unwrittenE : s.phase.busy = true → s.phase ≠ .restore → s.residual = none → s.e = []
  residual : ∀ at_, s.residual = some at_ → s.phase = .decodeResidual ∧ ResidualAt s at_
  restoreE : s.phase = .restore → Memory.Exactly s.e (s.blockSize - s.order.toNat)

/-! ## Safe steps -/

/-- The host changes the bit source during a decode, which the spec gives no meaning (R47, I15): an event that supplies a stream
has arrived while a decode is in progress. -/
def hostBreaksStream (s : State) : Bool :=
  match s.inbox with
  | [] => false
  | a :: _ =>
    s.phase.busy && decide (a.wait = 0) &&
      (match a.event with
        | .command _ => false
        | .supply _ _ => true
        | .supplyBytes _ _ => true)

/-- The wire items the engine reads, or goes on with, in the phase `s` is in (R66, R67, R96); a command fits every phase. -/
def itemFits (i : Instr) (s : State) : Bool :=
  match (encode i).format with
  | .cmd => true
  | .res => decide (s.phase = .decodeResidual ∧ s.residual = none)
  | .part4 => decide (s.phase = .decodeResidual ∧ s.residual ≠ none ∧ s.method = 0)
  | .part5 => decide (s.phase = .decodeResidual ∧ s.residual ≠ none ∧ s.method = 1)
  | .hdr =>
    decide (s.phase = .readHeader) ||
      match i with
      | .constant _ => decide (s.phase = .readRaw)
      | .verbatim _ => decide (s.phase = .readRaw)
      | .lpc _ _ => decide (s.phase = .readWarmup ∨ s.phase = .readPredParams ∨ s.phase = .restore)
      | .fixed0 _ => decide (s.phase = .readWarmup ∨ s.phase = .restore)
      | .fixed1 _ => decide (s.phase = .readWarmup ∨ s.phase = .restore)
      | .fixed2 _ => decide (s.phase = .readWarmup ∨ s.phase = .restore)
      | .fixed3 _ => decide (s.phase = .readWarmup ∨ s.phase = .restore)
      | .fixed4 _ => decide (s.phase = .readWarmup ∨ s.phase = .restore)
      | _ => false

/-- The event the next step takes is a START or a RESET command. -/
def nextIsStartOrReset (s : State) : Bool :=
  match s.inbox with
  | [] => false
  | a :: _ =>
    match a.event with
    | .command c => decide (c.code = 0 ∨ c.code = 1)
    | _ => false

/-- The phase order of R67: which phase may follow which in one engine step, by variant. -/
def phaseFollows (v : Variant) (p q : Phase) : Bool :=
  match p with
  | .readHeader =>
    match q with
    | .readRaw => decide (v = .constant ∨ v = .verbatim)
    | .readWarmup => decide (v = .fixed ∨ v = .lpc)
    | .failed => true
    | _ => false
  | .readRaw => decide (q = .done ∨ q = .failed)
  | .readWarmup =>
    match q with
    | .decodeResidual => decide (v = .fixed)
    | .readPredParams => decide (v = .lpc)
    | .failed => true
    | _ => false
  | .readPredParams => decide (q = .decodeResidual ∨ q = .failed)
  | .decodeResidual => decide (q = .decodeResidual ∨ q = .restore ∨ q = .failed)
  | .restore => decide (q = .done)
  | _ => decide (q = p)

/-- The longest decode in engine steps: the header, the warm-up, the LPC parameters, the residual header, `2^15` partitions and
the restoration. -/
def longestDecode : Nat := 2 ^ 15 + 5

end Sys2Proof.Machine
end

