-- ==== Sys2Proof/Certificates/Slice0/Obligations.lean ====
section
/-! DEFINITION. The statements about the model, for the provers. Each docstring names the rule of spec/ it formalises; a clause that
rests on a choice of the model's, or on an inference the spec marks as its own, says so. -/

open Sys2Proof Sys2Proof.Machine

/-! ## Encoding -/

/-- Decoding what the encoder writes gives the instruction back, whatever bits follow (R49 to R58, R106). -/
def Obligations.DecodeOfEncodeIsIdentity : Prop :=
  ∀ (i : Instr) (rest : List Bool), i.wellFormed = true →
    decode (encode i).format ((encode i).bits ++ rest) (encode i).args = .item i rest

/-- Every instruction the decoder reads is well formed, is read in its own format, and its bits are what the encoder writes: no bit
is dropped, and a reserved encoding does not fall through to a neighbour (R63). -/
def Obligations.EncodeOfDecodeIsIdentity : Prop :=
  ∀ (f : Format) (bits rest : List Bool) (args : CommandArgs) (i : Instr), decode f bits args = .item i rest →
    i.wellFormed = true ∧ (encode i).format = f ∧ bits = (encode i).bits ++ rest

/-- Words written out from the encodings of R50, R51, R56, R58 and R106, one or more per format, decode to what they stand for. -/
def Obligations.WordsFromTheSpecDecode : Prop :=
  decode .hdr [false, false, false, false, false, false, false, false] = .item (.constant false) [] ∧
  decode .hdr [false, false, false, false, false, false, true, true] = .item (.verbatim true) [] ∧
  decode .hdr [false, false, false, true, false, true, false, false] = .item (.fixed2 false) [] ∧
  decode .hdr [false, true, false, false, false, true, true, false] = .item (.lpc 3 false) [] ∧
  decode .hdr [true] = .item .reservedRsv [] ∧
  decode .hdr [false, false, false, true, true, false, true] = .item .reservedType13 [] ∧
  decode .res [false, true, false, false, false, true] = .item (.resRice2 1) [] ∧
  decode .res [true, false] = .item (.resReserved false) [] ∧
  decode .part4 [true, true, true, true] = .item .partEsc4 [] ∧
  decode .part5 [false, true, true, true, false] = .item (.partRice5 14) [] ∧
  decode .cmd [false, false, true] { bs := 4, bps := 16 } = .item (.cmdStart 4 16 false) [] ∧
  decode .cmd [true, true, true] = .item (.cmdReserved true) []

/-! ## Bit input -/

/-- R32: a field of `n` bits is read exactly when `n` bits are left; its value is the sum of its bits, the first the most
significant; the cursor then stands `n` bits on. -/
def Obligations.FieldIsReadMsbFirst : Prop :=
  ∀ (n : Nat) (s : State),
    (takeBits n s.unread = none ↔ s.unread.length < n) ∧
    (n ≤ s.unread.length →
      takeBits n s.unread =
        some (((List.range n).map fun j => (s.unread.getD j false).toNat * 2 ^ (n - 1 - j)).sum, s.unread.drop n) ∧
      s.advanceTo (s.unread.drop n) = s.consumed n ∧
      (s.consumed n).unread = s.unread.drop n)

/-- R34: `ReadUnary` consumes bits up to and including the first one and returns the number of zeros before it; it fails exactly
when no one is left. -/
def Obligations.UnaryCountsZeros : Prop :=
  ∀ bits : List Bool,
    (∀ n rest, readUnary bits = some (n, rest) ↔ bits = List.replicate n false ++ true :: rest) ∧
    (readUnary bits = none ↔ ∀ b ∈ bits, b = false)

/-- A Rice code of a 32-bit unsigned value reads to its folded value, which fits the register; a code of `2^32` or more is an
overflow found when the quotient ends, whatever follows. R59 is marked by the spec as general knowledge (D11, log entry 15) and
R103 as derived. -/
def Obligations.RiceCodeReadsFoldedValue : Prop :=
  ∀ (k : Nat) (rest : List Bool), k ≤ 30 →
    (∀ u, u < 2 ^ 32 →
      readRice k (riceBits k u ++ rest) = .value (wrap32 (foldRice u)) rest ∧
      (wrap32 (foldRice u)).toInt = if u % 2 = 0 then ((u / 2 : Nat) : Int) else -(((u + 1) / 2 : Nat) : Int)) ∧
    (∀ q, 2 ^ (32 - k) ≤ q → readRice k (List.replicate q false ++ true :: rest) = .overflow)

/-- R9 and R33: `sext_n` of an `n`-bit pattern is the integer of `n`-bit two's complement that has it, and 0 where `n` is 0; a
register keeps such a value, and given any other integer it wraps modulo `2^32` (the accumulator modulo `2^64`), with no
saturation (R9, R23). -/
def Obligations.SignedFieldIsTwosComplement : Prop :=
  (∀ v : Nat, sext 0 v = 0) ∧
  (∀ bits : List Bool, readS 0 bits = .value 0 bits) ∧
  (∀ n v : Nat, 1 ≤ n → n ≤ 32 → v < 2 ^ n →
    -(2 : Int) ^ (n - 1) ≤ sext n v ∧ sext n v < (2 : Int) ^ (n - 1) ∧ (sext n v - (v : Int)) % (2 : Int) ^ n = 0 ∧
    (wrap32 (sext n v)).toInt = sext n v) ∧
  (∀ v : Int, -(2 : Int) ^ 31 ≤ (wrap32 v).toInt ∧ (wrap32 v).toInt < (2 : Int) ^ 31 ∧
    ((wrap32 v).toInt - v) % (2 : Int) ^ 32 = 0) ∧
  (∀ v : Int, -(2 : Int) ^ 63 ≤ (wrap64 v).toInt ∧ (wrap64 v).toInt < (2 : Int) ^ 63 ∧
    ((wrap64 v).toInt - v) % (2 : Int) ^ 64 = 0)

/-- A stream delivered as bytes is read from bit 7 of its first byte on: reading 8 bits at a byte boundary gives the byte. The spec
marks the order as general knowledge (R36, D25; log entry 15). -/
def Obligations.BytesAreReadFromBitSeven : Prop :=
  ∀ (before after : List (BitVec 8)) (b : BitVec 8),
    takeBits 8 ((bitsOfBytes (before ++ b :: after)).drop (8 * before.length)) = some (b.toNat, bitsOfBytes after)

/-! ## Buffers -/

/-- Buffers are one canonical form (the model's representation, log entry 2): two of them that read alike at every index are the
same data, and writes at different indices give the same data in either order. -/
def Obligations.BuffersAreCanonical : Prop :=
  ∀ m m' : Memory, Memory.wf m = true → Memory.wf m' = true →
    ((∀ i, Memory.read m i = Memory.read m' i) → m = m') ∧
    (∀ (i j : Nat) (v w : Word), i ≠ j →
      Memory.write (Memory.write m i v) j w = Memory.write (Memory.write m j w) i v)

/-! ## Entering FAILED -/

/-- R117: entering FAILED writes the phase, the error and the cause, and saves nothing; START is answered (R107). The position
afterwards is unspecified, but not beyond the end of the stream (R17, R35, D26): the statement holds for every value of it. Two
clauses are the model's inferences: that the position is the decode's first bit plus `CURSOR` (log entry 4), and that the
residual section's progress is given up (log entry 12). -/
def Obligations.RaiseEntersFailed : Prop :=
  ∀ (e : Err) (ca : Cause) (s : State),
    raise e ca s =
      { s with
        phase := .failed
        err := e
        cause := ca
        residual := none
        cursor := (raise e ca s).cursor
        srcPos := (raise e ca s).srcPos
        freeCount := s.freeCount + 1
        responses := s.responses ++ [.failed e.code ca.code] } ∧
    (s.cursor ≤ s.srcPos → s.srcPos ≤ s.source.length →
      (raise e ca s).srcPos ≤ s.source.length ∧
      (raise e ca s).srcPos = s.srcPos - s.cursor + (raise e ca s).cursor)

/-- R116: the mapping of read failures. -/
def Obligations.ReadFailureIsClassified : Prop :=
  ∀ s : State,
    readFail .payload s = raise .invalidStream .readFailPayload s ∧
    (s.truncEn = false → readFail .field s = raise .invalidStream .readFailField s) ∧
    (s.truncEn = true → readFail .field s = raise .truncated .readFailField s)

/-- The codes of the phases and of the variants (R19), of the errors and of the causes (R115). -/
def Obligations.StatusCodesAreTheTables : Prop :=
  ([Phase.idle, .readHeader, .readRaw, .readWarmup, .readPredParams, .decodeResidual, .restore, .done, .failed].map
      fun p => p.code.toNat) = [0, 1, 2, 3, 4, 5, 6, 7, 8] ∧
  ([Err.none, .invalidStream, .truncated, .invalidConfig].map fun e => e.code.toNat) = [0, 1, 2, 3] ∧
  ([Cause.none, .reservedBit, .reservedType, .wastedTooLarge, .orderExceedsBlock, .reservedPrecision, .negativeShift,
      .reservedMethod, .partitionTooSmall, .partitionMisaligned, .riceOverflow, .readFailField, .readFailPayload,
      .badConfig].map fun c => c.code.toNat) = [0, 1, 2, 3, 4, 5, 6, 7, 8, 9, 10, 11, 12, 13] ∧
  ([Variant.constant, .verbatim, .fixed, .lpc].map fun v => v.code.toNat) = [0, 1, 2, 3]

/-! ## The header -/

/-- The header instructions select the variant, the order and the body's phase by the table of R71, and without a wasted flag the
count is 0 (R70). Completion of CONSTANT, VERBATIM, FIXED0 to FIXED4 and LPC in READ_HEADER. -/
def Obligations.HeaderSelectsVariantAndOrder : Prop :=
  ∀ (s : State) (t : Nat), s.phase = .readHeader →
    (t = 0 → exec (.constant false) s = .next { s with
      typeCode := 0, variant := .constant, order := 0, wasted := 0, phase := .readRaw }) ∧
    (t = 1 → exec (.verbatim false) s = .next { s with
      typeCode := 1, variant := .verbatim, order := 0, wasted := 0, phase := .readRaw }) ∧
    (8 ≤ t → t ≤ 12 → t - 8 ≤ s.blockSize → exec (fixedInstr (t - 8) false) s = .next { s with
      typeCode := BitVec.ofNat 6 t, variant := .fixed, order := BitVec.ofNat 6 (t - 8), wasted := 0, phase := .readWarmup }) ∧
    (32 ≤ t → t ≤ 63 → t - 31 ≤ s.blockSize → exec (.lpc (BitVec.ofNat 5 (t - 32)) false) s = .next { s with
      typeCode := BitVec.ofNat 6 t, variant := .lpc, order := BitVec.ofNat 6 (t - 31), wasted := 0, phase := .readWarmup })

/-- R70: without the wasted flag the count is 0; with it, `k` zeros and a one give `k + 1` wasted bits; a count at or above `bps` is
written and rejected after the whole code, before the order is checked (R118). A code that does not end is a field-read failure
(R66). That the count is the zeros plus one the spec supplies from general knowledge (D5, G4; PRESUMED, log entry 15). The
hypothesis on `bps` is the legal range of R7; what the 5-bit register holds of a rejected count above 31 is a free value (log
entry 5). -/
def Obligations.WastedCountIsZerosPlusOne : Prop :=
  ∀ (s : State) (t k : Nat) (rest : List Bool), s.phase = .readHeader → s.cfgBps.toNat ≤ 32 → t < 64 → typeReserved t = false →
    (orderOfType t ≤ s.blockSize → ∃ u, exec (instrOfType t false) s = .next u ∧ u.wasted = 0 ∧ u.cursor = s.cursor) ∧
    (s.unread = List.replicate k false ++ true :: rest → k + 1 < s.cfgBps.toNat → orderOfType t ≤ s.blockSize →
      exec (instrOfType t true) s = .next { s.consumed (k + 1) with
        typeCode := BitVec.ofNat 6 t
        variant := variantOfType t
        order := BitVec.ofNat 6 (orderOfType t)
        wasted := BitVec.ofNat 5 (k + 1)
        phase := if t < 2 then .readRaw else .readWarmup }) ∧
    (s.unread = List.replicate k false ++ true :: rest → s.cfgBps.toNat ≤ k + 1 →
      FailsWith (exec (instrOfType t true) s) s .invalidStream .wastedTooLarge ∧
      (k + 1 < 32 → ∃ u, exec (instrOfType t true) s = .next u ∧ u.wasted = BitVec.ofNat 5 (k + 1))) ∧
    (s.unread = List.replicate k false →
      FailsWith (exec (instrOfType t true) s) s (if s.truncEn then .truncated else .invalidStream) .readFailField)

/-- R72: an order above the block size is rejected after the wasted count, whether the count is absent or read; the order itself may
equal the block size. -/
def Obligations.OrderAboveBlockIsRejected : Prop :=
  ∀ (s : State) (t k : Nat) (rest : List Bool), s.phase = .readHeader → (8 ≤ t ∧ t ≤ 12 ∨ 32 ≤ t ∧ t ≤ 63) →
    (s.blockSize < (if t < 32 then t - 8 else t - 31) →
      FailsWith (exec (instrOfType t false) s) s .invalidStream .orderExceedsBlock) ∧
    (s.blockSize < (if t < 32 then t - 8 else t - 31) → s.unread = List.replicate k false ++ true :: rest →
      k + 1 < s.cfgBps.toNat → FailsWith (exec (instrOfType t true) s) s .invalidStream .orderExceedsBlock) ∧
    ((if t < 32 then t - 8 else t - 31) = s.blockSize → ∃ u, exec (instrOfType t false) s = .next u ∧ u.phase = .readWarmup)

/-- R69 and R71: the reserved rows enter FAILED. Each instruction's own effect is that entry; a reserved type code has been written
to `TYPE`, a set reserved bit has not, which is read from the order of R117 (log entry 12). -/
def Obligations.ReservedHeadersFail : Prop :=
  ∀ s : State, s.phase = .readHeader →
    (exec .reservedRsv s = .next (raise .invalidStream .reservedBit s)) ∧
    (∀ o : BitVec 1, exec (.reservedType2_3 o) s =
      .next (raise .invalidStream .reservedType { s with typeCode := BitVec.ofNat 6 (2 + o.toNat) })) ∧
    (∀ o : BitVec 2, exec (.reservedType4_7 o) s =
      .next (raise .invalidStream .reservedType { s with typeCode := BitVec.ofNat 6 (4 + o.toNat) })) ∧
    (exec .reservedType13 s = .next (raise .invalidStream .reservedType { s with typeCode := 13 })) ∧
    (∀ o : BitVec 1, exec (.reservedType14_15 o) s =
      .next (raise .invalidStream .reservedType { s with typeCode := BitVec.ofNat 6 (14 + o.toNat) })) ∧
    (∀ o : BitVec 4, exec (.reservedType16_31 o) s =
      .next (raise .invalidStream .reservedType { s with typeCode := BitVec.ofNat 6 (16 + o.toNat) }))

/-- R73: the warm-up reads `ORDER` signed fields of `W` bits into the first samples, and nothing else changes but the phase, the
cursor and the bit source's position; a stream that ends inside a field is a field-read failure (R66). `W` is `bps - WASTED`
(R39), which the spec supplies from general knowledge (D4, G3; PRESUMED, log entry 15). -/
def Obligations.WarmupReadsSamples : Prop :=
  ∀ (s : State) (wf : Bool) (w : Nat), s.phase = .readWarmup → w = s.cfgBps.toNat - s.wasted.toNat →
    (∀ (vs : List Nat) (rest : List Bool), vs.length = s.order.toNat → (∀ v ∈ vs, v < 2 ^ w) →
      s.unread = fieldsBits w vs ++ rest →
      (∀ n, n ≤ 4 → ∃ t, exec (fixedInstr n wf) s = .next t ∧
        t = { s.consumed (s.order.toNat * w) with x := t.x, phase := .decodeResidual } ∧
        ∀ j, Memory.read t.x j =
          if j < s.order.toNat then some (wrap32 (sext w (vs.getD j 0))) else Memory.read s.x j) ∧
      (∀ o, ∃ t, exec (.lpc o wf) s = .next t ∧
        t = { s.consumed (s.order.toNat * w) with x := t.x, phase := .readPredParams } ∧
        ∀ j, Memory.read t.x j =
          if j < s.order.toNat then some (wrap32 (sext w (vs.getD j 0))) else Memory.read s.x j)) ∧
    (s.unread.length < s.order.toNat * w →
      (∀ n, n ≤ 4 → FailsWith (exec (fixedInstr n wf) s) s (if s.truncEn then .truncated else .invalidStream) .readFailField) ∧
      (∀ o, FailsWith (exec (.lpc o wf) s) s (if s.truncEn then .truncated else .invalidStream) .readFailField))

/-- A stream that ends inside the Constant value or a Verbatim sample, each of `bps - WASTED` bits (R39; log entry 15), is a
field-read failure (R66, R74, R75). -/
def Obligations.ShortRawFieldsFail : Prop :=
  ∀ (s : State) (wf : Bool) (w : Nat), s.phase = .readRaw → w = s.cfgBps.toNat - s.wasted.toNat →
    (s.unread.length < w →
      FailsWith (exec (.constant wf) s) s (if s.truncEn then .truncated else .invalidStream) .readFailField) ∧
    (s.unread.length < s.blockSize * w →
      FailsWith (exec (.verbatim wf) s) s (if s.truncEn then .truncated else .invalidStream) .readFailField)

/-! ## Constant and Verbatim -/

/-- CONSTANT (R74, R76): one signed field of `W = bps - WASTED` bits (R39; log entry 15) fills the block, shifted left by the
wasted count; the decode is DONE. That `E`, `C` and `ACC` then hold what they held is the model's choice (log entry 19). -/
def Obligations.ConstantFillsBlock : Prop :=
  ∀ (s : State) (wf : Bool) (w v : Nat) (rest : List Bool), s.phase = .readRaw → w = s.cfgBps.toNat - s.wasted.toNat → v < 2 ^ w →
    s.unread = natToBits w v ++ rest →
    ∃ t, exec (.constant wf) s = .next t ∧
      t = { s.consumed w with x := t.x, phase := .done, responses := s.responses ++ [.done] } ∧
      ∀ i, Memory.read t.x i =
        if i < s.blockSize then some (wrap32 (sext w v * 2 ^ s.wasted.toNat)) else Memory.read s.x i

/-- VERBATIM (R75, R76): `BS` signed fields of `W = bps - WASTED` bits (R39; log entry 15), each shifted left by the wasted
count; the decode is DONE. That `E`, `C` and `ACC` then hold what they held is the model's choice (log entry 19). -/
def Obligations.VerbatimReadsBlock : Prop :=
  ∀ (s : State) (wf : Bool) (w : Nat) (vs : List Nat) (rest : List Bool), s.phase = .readRaw →
    w = s.cfgBps.toNat - s.wasted.toNat → vs.length = s.blockSize →
    (∀ v ∈ vs, v < 2 ^ w) → s.unread = fieldsBits w vs ++ rest →
    ∃ t, exec (.verbatim wf) s = .next t ∧
      t = { s.consumed (s.blockSize * w) with
        x := t.x, phase := .done, responses := s.responses ++ [.done] } ∧
      ∀ i, Memory.read t.x i =
        if i < s.blockSize then some (wrap32 (sext w (vs.getD i 0) * 2 ^ s.wasted.toNat)) else Memory.read s.x i

/-- For Constant and Verbatim the wasted shift never wraps: a `W`-bit value shifted by `WASTED` fits, as `W + WASTED = bps <= 32`
(R74 and R75 mark this as derived; the width is log entry 15's). -/
def Obligations.RawShiftNeverWraps : Prop :=
  ∀ (bps w v : Nat), bps ≤ 32 → w < bps → v < 2 ^ (bps - w) →
    (wrap32 (sext (bps - w) v * 2 ^ w)).toInt = sext (bps - w) v * 2 ^ w

/-! ## Fixed prediction -/

/-- R79, with the predictions of R81 to R85 and the shift of R76: from the warm-up `X[0 .. ORDER-1]` and the residuals `E`, every
sample is the one the recurrence gives, shifted left by the wasted count; nothing else changes but the status. That `E`, `C` and
`ACC` hold in DONE what they held before is the model's choice (log entry 19). -/
def Obligations.FixedRestoresBlock : Prop :=
  ∀ (s : State) (n : Nat) (wf : Bool) (x e : Nat → Word), n ≤ 4 → s.phase = .restore → s.order.toNat = n →
    n ≤ s.blockSize → Memory.Holds s.x n x → Memory.Holds s.e (s.blockSize - n) e →
    (∀ i, n ≤ i → i < s.blockSize → x i = wrap32 ((e (i - n)).toInt + fixedPrediction n (fun k => (x k).toInt) i)) →
    ∃ t, exec (fixedInstr n wf) s = .next t ∧
      t = { s with x := t.x, phase := .done, responses := s.responses ++ [.done] } ∧
      ∀ i, Memory.read t.x i =
        if i < s.blockSize then some (wrap32 ((x i).toInt * 2 ^ s.wasted.toNat)) else Memory.read s.x i

/-! ## LPC -/

/-- R86 and R89: the legal LPC parameters are read and the residual section follows; nothing else changes. -/
def Obligations.LpcParametersAreRead : Prop :=
  ∀ (s : State) (o : BitVec 5) (wf : Bool) (f v : Nat) (cs : List Nat) (rest : List Bool), s.phase = .readPredParams →
    f < 15 → v < 16 → cs.length = s.order.toNat → s.order.toNat ≤ 32 → (∀ c ∈ cs, c < 2 ^ (f + 1)) →
    s.unread = natToBits 4 f ++ (natToBits 5 v ++ (fieldsBits (f + 1) cs ++ rest)) →
    ∃ t, exec (.lpc o wf) s = .next t ∧
      t = { s.consumed (9 + s.order.toNat * (f + 1)) with
        precision := BitVec.ofNat 4 (f + 1), shift := BitVec.ofNat 4 v, c := t.c, phase := .decodeResidual } ∧
      ∀ k, Memory.read t.c k =
        if k < s.order.toNat then some (wrap32 (sext (f + 1) (cs.getD k 0))) else Memory.read s.c k

/-- R87 and R88: a reserved precision is rejected before the shift is read, a negative shift before the coefficients are. -/
def Obligations.LpcReservedParametersFail : Prop :=
  ∀ (s : State) (o : BitVec 5) (wf : Bool) (rest : List Bool), s.phase = .readPredParams →
    (s.unread = natToBits 4 15 ++ rest → FailsWith (exec (.lpc o wf) s) s .invalidStream .reservedPrecision) ∧
    (∀ f v, f < 15 → 16 ≤ v → v < 32 → s.unread = natToBits 4 f ++ (natToBits 5 v ++ rest) →
      FailsWith (exec (.lpc o wf) s) s .invalidStream .negativeShift)

/-- R90 and R91: every predicted sample is its residual plus the exact dot product shifted right as an integer (towards minus
infinity), narrowed to 32 bits at the end; the shift of R76 follows. The hypotheses on the coefficients and the order are R89's
and R19's. That `ACC` holds the last dot product in DONE, and `E` and `C` what they held before, is the model's choice: the spec
allows any value there (I13, log entry 19). -/
def Obligations.LpcRestoresBlock : Prop :=
  ∀ (s : State) (o : BitVec 5) (wf : Bool) (n : Nat) (c x e : Nat → Word), s.phase = .restore → s.order.toNat = n →
    1 ≤ n → n ≤ 32 → n ≤ s.blockSize → Memory.Holds s.c n c →
    (∀ k, k < n → -(2 : Int) ^ 14 ≤ (c k).toInt ∧ (c k).toInt < (2 : Int) ^ 14) →
    Memory.Holds s.x n x → Memory.Holds s.e (s.blockSize - n) e →
    (∀ i, n ≤ i → i < s.blockSize → x i = wrap32 ((e (i - n)).toInt +
      dotProduct n (fun k => (c k).toInt) (fun k => (x k).toInt) i / (2 : Int) ^ s.shift.toNat)) →
    ∃ t, exec (.lpc o wf) s = .next t ∧
      t = { s with x := t.x, acc := t.acc, phase := .done, responses := s.responses ++ [.done] } ∧
      t.acc = (if n < s.blockSize then
        wrap64 (dotProduct n (fun k => (c k).toInt) (fun k => (x k).toInt) (s.blockSize - 1)) else s.acc) ∧
      ∀ i, Memory.read t.x i =
        if i < s.blockSize then some (wrap32 ((x i).toInt * 2 ^ s.wasted.toNat)) else Memory.read s.x i

/-- The 64-bit accumulator never overflows: at most 32 products of a coefficient of at most 15 bits and an `i32` sample stay within
`2^50`, so the register holds the exact sum (R92, which the spec marks as derived). -/
def Obligations.AccumulatorIsExact : Prop :=
  ∀ cs vs : List Int, cs.length ≤ 32 → (∀ c ∈ cs, -(2 : Int) ^ 14 ≤ c ∧ c < (2 : Int) ^ 14) →
    (∀ v ∈ vs, -(2 : Int) ^ 31 ≤ v ∧ v < (2 : Int) ^ 31) →
    -(2 : Int) ^ 50 ≤ dot cs vs ∧ dot cs vs ≤ (2 : Int) ^ 50 ∧ (wrap64 (dot cs vs)).toInt = dot cs vs

/-! ## The residual section -/

/-- R96: a legal residual header writes `METHOD` and `PART_ORDER` and the first partition is next; nothing else changes. -/
def Obligations.ResidualHeaderIsAccepted : Prop :=
  ∀ (s : State) (p : BitVec 4), s.phase = .decodeResidual → s.residual = none →
    s.order.toNat ≤ s.blockSize / 2 ^ p.toNat → s.blockSize % 2 ^ p.toNat = 0 →
    exec (.resRice p) s = .next { s with method := 0, partOrder := p, residual := some ⟨0, 0⟩ } ∧
    exec (.resRice2 p) s = .next { s with method := 1, partOrder := p, residual := some ⟨0, 0⟩ }

/-- R97, R98 and R99: a reserved method is rejected with `METHOD` and `PART_ORDER` not written; a partition smaller than the order
is rejected first, a block size that is no multiple of the partition count second. -/
def Obligations.BadResidualHeadersFail : Prop :=
  ∀ (s : State), s.phase = .decodeResidual → s.residual = none →
    (∀ x, exec (.resReserved x) s = .next (raise .invalidStream .reservedMethod s)) ∧
    (∀ p : BitVec 4, s.blockSize / 2 ^ p.toNat < s.order.toNat →
      FailsWith (exec (.resRice p) s) s .invalidStream .partitionTooSmall ∧
      FailsWith (exec (.resRice2 p) s) s .invalidStream .partitionTooSmall) ∧
    (∀ p : BitVec 4, s.order.toNat ≤ s.blockSize / 2 ^ p.toNat → s.blockSize % 2 ^ p.toNat ≠ 0 →
      FailsWith (exec (.resRice p) s) s .invalidStream .partitionMisaligned ∧
      FailsWith (exec (.resRice2 p) s) s .invalidStream .partitionMisaligned)

/-- R57: partition 0 has `ORDER` residuals fewer than the others, and the counts sum to `BS - ORDER` when both checks of the residual
header hold (R98, R99). -/
def Obligations.PartitionCountsSumToResiduals : Prop :=
  ∀ s : State,
    (∀ q, s.residualCount q =
      if q = 0 then s.blockSize / 2 ^ s.partOrder.toNat - s.order.toNat else s.blockSize / 2 ^ s.partOrder.toNat) ∧
    (s.order.toNat ≤ s.blockSize / 2 ^ s.partOrder.toNat → s.blockSize % 2 ^ s.partOrder.toNat = 0 →
      ((List.range (2 ^ s.partOrder.toNat)).map s.residualCount).sum = s.blockSize - s.order.toNat)

/-- R101 and R102: a Rice partition reads its count of codes (R57) into `E` from the next index on; the next partition follows, or
RESTORE after the last (R96). The code and its folding are R59's, which the spec marks as general knowledge (log entry 15). -/
def Obligations.RicePartitionReadsResiduals : Prop :=
  ∀ (s : State) (i : Instr) (k q j : Nat) (us : List Nat) (rest : List Bool),
    ((∃ k4 : BitVec 4, i = .partRice4 k4 ∧ k = k4.toNat ∧ k < 15 ∧ s.method = 0) ∨
      (∃ k5 : BitVec 5, i = .partRice5 k5 ∧ k = k5.toNat ∧ k < 31 ∧ s.method = 1)) →
    s.phase = .decodeResidual → s.residual = some ⟨q, j⟩ →
    us.length = (if q = 0 then s.blockSize / 2 ^ s.partOrder.toNat - s.order.toNat
      else s.blockSize / 2 ^ s.partOrder.toNat) →
    j + us.length ≤ Config.blockSizeMax → (∀ u ∈ us, u < 2 ^ 32) → s.unread = ricesBits k us ++ rest →
    ∃ t, exec i s = .next t ∧
      t = { s.consumed (ricesBits k us).length with
        e := t.e
        residual := if q + 1 < 2 ^ s.partOrder.toNat then some ⟨q + 1, j + us.length⟩ else none
        phase := if q + 1 < 2 ^ s.partOrder.toNat then .decodeResidual else .restore } ∧
      ∀ n, Memory.read t.e n =
        if j ≤ n ∧ n < j + us.length then some (wrap32 (foldRice (us.getD (n - j) 0))) else Memory.read s.e n

/-- R101 and R104: an escape partition reads a 5-bit width and then its count of raw fields; the value is signed or not as
`ESCAPE_RAW_SIGNED` says, and the statement holds for both. -/
def Obligations.EscapePartitionReadsResiduals : Prop :=
  ∀ (s : State) (i : Instr) (w q j : Nat) (vs : List Nat) (rest : List Bool),
    ((i = .partEsc4 ∧ s.method = 0) ∨ (i = .partEsc5 ∧ s.method = 1)) →
    s.phase = .decodeResidual → s.residual = some ⟨q, j⟩ → w < 32 →
    vs.length = (if q = 0 then s.blockSize / 2 ^ s.partOrder.toNat - s.order.toNat
      else s.blockSize / 2 ^ s.partOrder.toNat) →
    j + vs.length ≤ Config.blockSizeMax → (∀ v ∈ vs, v < 2 ^ w) → s.unread = natToBits 5 w ++ (fieldsBits w vs ++ rest) →
    ∃ t, exec i s = .next t ∧
      t = { s.consumed (5 + vs.length * w) with
        e := t.e
        residual := if q + 1 < 2 ^ s.partOrder.toNat then some ⟨q + 1, j + vs.length⟩ else none
        phase := if q + 1 < 2 ^ s.partOrder.toNat then .decodeResidual else .restore } ∧
      ∀ n, Memory.read t.e n =
        if j ≤ n ∧ n < j + vs.length then
          some (wrap32 (if Config.escapeRawSigned then sext w (vs.getD (n - j) 0) else (vs.getD (n - j) 0 : Nat)))
        else Memory.read s.e n

/-- R101 to R103 and R116: a Rice partition whose stream ends inside a code, in its quotient or in its remainder, is a payload-read
failure whatever `TRUNC_EN` is, and a quotient of `2^(32-k)` or more is a Rice overflow found before the remainder is read. That
the residuals read before it are written and no other is the model's inference from R117 (log entry 12); the form of a code and
its folding are general knowledge of the spec's (R59, log entry 15). -/
def Obligations.BadPartitionPayloadFails : Prop :=
  ∀ (s : State) (k q j : Nat) (us : List Nat) (z : Nat) (rest : List Bool) (i : Instr),
    ((∃ k4 : BitVec 4, i = .partRice4 k4 ∧ k = k4.toNat ∧ k < 15 ∧ s.method = 0) ∨
      (∃ k5 : BitVec 5, i = .partRice5 k5 ∧ k = k5.toNat ∧ k < 31 ∧ s.method = 1)) →
    s.phase = .decodeResidual → s.residual = some ⟨q, j⟩ → us.length < s.residualCount q →
    j + s.residualCount q ≤ Config.blockSizeMax → (∀ u ∈ us, u < 2 ^ 32) →
    (s.unread = ricesBits k us ++ List.replicate z false ∨
        (z < 2 ^ (32 - k) ∧ rest.length < k ∧ s.unread = ricesBits k us ++ (List.replicate z false ++ true :: rest)) →
      FailsWith (exec i s) s .invalidStream .readFailPayload ∧
      ∃ t, exec i s = .next t ∧ ∀ n, Memory.read t.e n =
        if j ≤ n ∧ n < j + us.length then some (wrap32 (foldRice (us.getD (n - j) 0))) else Memory.read s.e n) ∧
    (s.unread = ricesBits k us ++ (List.replicate z false ++ true :: rest) → 2 ^ (32 - k) ≤ z →
      FailsWith (exec i s) s .invalidStream .riceOverflow ∧
      ∃ t, exec i s = .next t ∧ ∀ n, Memory.read t.e n =
        if j ≤ n ∧ n < j + us.length then some (wrap32 (foldRice (us.getD (n - j) 0))) else Memory.read s.e n)

/-- R101 and R116: an escape partition whose stream ends inside the width or inside a raw value is a payload-read failure. -/
def Obligations.ShortEscapePartitionFails : Prop :=
  ∀ (s : State) (i : Instr) (w q j : Nat) (rest : List Bool),
    ((i = .partEsc4 ∧ s.method = 0) ∨ (i = .partEsc5 ∧ s.method = 1)) →
    s.phase = .decodeResidual → s.residual = some ⟨q, j⟩ → w < 32 → j + s.residualCount q ≤ Config.blockSizeMax →
    (s.unread.length < 5 → FailsWith (exec i s) s .invalidStream .readFailPayload) ∧
    (s.unread = natToBits 5 w ++ rest → rest.length < s.residualCount q * w →
      FailsWith (exec i s) s .invalidStream .readFailPayload)

/-! ## Host commands -/

/-- R107: START with a legal configuration, between decodes, latches it and begins the decode: the status is cleared, `CURSOR` is
0, every written-mark is cleared, and no bit is read. The largest block size is general knowledge of the spec's (D3, log entries 11
and 15). -/
def Obligations.StartBeginsDecode : Prop :=
  ∀ (s : State) (bs bps : Nat) (t : Bool), (s.phase = .idle ∨ s.phase = .done ∨ s.phase = .failed) →
    1 ≤ bs → bs ≤ 65535 → 1 ≤ bps → bps ≤ 32 →
    exec (.cmdStart bs bps t) s = .next { s with
      truncEn := t
      cfgBs := BitVec.ofNat 16 bs
      cfgBps := BitVec.ofNat 6 bps
      phase := .readHeader
      err := .none
      cause := .none
      cursor := 0
      residual := none
      x := []
      e := []
      c := [] }

/-- R107 and R66: a configuration out of range is latched and the decode fails with BAD_CONFIG, for every out-of-range value; while
a decode is in progress START is answered BUSY and changes nothing. The largest block size is general knowledge of the spec's (D3,
log entries 11 and 15). -/
def Obligations.StartRejectsBadConfigOrBusy : Prop :=
  ∀ (s : State) (bs bps : Nat) (t : Bool),
    (s.phase.busy = true → exec (.cmdStart bs bps t) s = .next { s with responses := s.responses ++ [.busy] }) ∧
    (s.phase.busy = false → (bs < 1 ∨ 65535 < bs ∨ bps < 1 ∨ 32 < bps) →
      ∃ u, exec (.cmdStart bs bps t) s = .next u ∧ u.phase = .failed ∧ u.err = .invalidConfig ∧ u.cause = .badConfig ∧
        u.responses = s.responses ++ [.failed 3 13] ∧ u.truncEn = t ∧
        (bs < 2 ^ 16 → u.cfgBs = BitVec.ofNat 16 bs) ∧ (bps < 2 ^ 6 → u.cfgBps = BitVec.ofNat 6 bps) ∧
        u.source = s.source ∧ u.inbox = s.inbox ∧ u.hostMem = s.hostMem ∧ u.acc = s.acc)

/-- R108: READ in DONE delivers all `BS` words to a buffer that is long enough, leaves every other host word, changes no engine
state and answers the count; a shorter buffer gets END_OF_STREAM and nothing. In FAILED the fault is answered, in IDLE or during a
decode NOT_READY, and nothing is written. -/
def Obligations.ReadDeliversWholeBlock : Prop :=
  ∀ (s : State) (dest len : Nat) (f : Nat → Word),
    (s.phase = .done → s.blockSize ≤ len → Memory.Holds s.x s.blockSize f →
      ∃ t, exec (.cmdRead dest len) s = .next t ∧
        t = { s with hostMem := t.hostMem, responses := s.responses ++ [.count s.blockSize] } ∧
        ∀ a, Memory.read t.hostMem a =
          if dest ≤ a ∧ a < dest + s.blockSize then some (f (a - dest)) else Memory.read s.hostMem a) ∧
    (s.phase = .done → len < s.blockSize →
      exec (.cmdRead dest len) s = .next { s with responses := s.responses ++ [.endOfStream] }) ∧
    (s.phase = .failed →
      exec (.cmdRead dest len) s = .next { s with responses := s.responses ++ [.failed s.err.code s.cause.code] }) ∧
    (s.phase = .idle ∨ s.phase.busy = true →
      exec (.cmdRead dest len) s = .next { s with responses := s.responses ++ [.notReady] })

/-- R109, R110: QUERY_TYPE and QUERY_WASTED answer the zero-extended registers in DONE and NOT_READY elsewhere; no state
change. -/
def Obligations.QueriesAnswerInDoneOnly : Prop :=
  ∀ s : State,
    (s.phase = .done →
      exec .cmdQueryType s = .next { s with responses := s.responses ++ [.subFrameType (BitVec.ofNat 8 s.typeCode.toNat)] } ∧
      exec .cmdQueryWasted s = .next { s with responses := s.responses ++ [.wastedBits (BitVec.ofNat 32 s.wasted.toNat)] }) ∧
    (s.phase ≠ .done →
      exec .cmdQueryType s = .next { s with responses := s.responses ++ [.notReady] } ∧
      exec .cmdQueryWasted s = .next { s with responses := s.responses ++ [.notReady] })

/-- R111 and R106: QUERY_STATUS answers `STATUS` in every phase, a reserved code is answered ILLEGAL_COMMAND, and neither changes
anything else. -/
def Obligations.StatusAndReservedCommandsOnlyAnswer : Prop :=
  ∀ (s : State) (x : Bool),
    exec .cmdQueryStatus s =
      .next { s with responses := s.responses ++ [.status s.phase.code s.err.code s.cause.code] } ∧
    exec (.cmdReserved x) s = .next { s with responses := s.responses ++ [.illegalCommand] }

/-- R112: RESET, in every phase, sets every register of R19 to its reset value, clears every written-mark and answers OK. The bit
source's position is unspecified afterwards. Three clauses are the model's inferences: that the position lies within the stream
(log entry 4), that the stream, the pending events and the host words stay (log entry 14), and that OK is the only answer added
where a decode is abandoned (log entry 7). -/
def Obligations.ResetCommandRestoresRegisters : Prop :=
  ∀ s : State, ∃ t, exec .cmdReset s = .next t ∧
    t.truncEn = false ∧ t.cfgBs = 0 ∧ t.cfgBps = 0 ∧ t.phase = .idle ∧ t.err = .none ∧ t.cause = .none ∧
    t.typeCode = 0 ∧ t.wasted = 0 ∧ t.variant = .constant ∧ t.order = 0 ∧ t.precision = 0 ∧ t.shift = 0 ∧
    t.method = 0 ∧ t.partOrder = 0 ∧ t.x = [] ∧ t.e = [] ∧ t.c = [] ∧ t.residual = none ∧
    t.responses = s.responses ++ [.ok] ∧ t.source = s.source ∧ t.srcPos ≤ t.source.length ∧
    t.inbox = s.inbox ∧ t.hostMem = s.hostMem

/-! ## The step -/

/-- A step runs the decoded instruction: when no host event arrives and the bits at the read position decode, in the format the
phase reads, to an instruction, the step is that instruction's execution with the read position moved past its bits (R66, R69, R96,
R101). One item per step, and an event that waits meanwhile, are the model's choice (log entry 6). -/
def Obligations.StepRunsDecodedItem : Prop :=
  ∀ (s s' : State) (f : Format) (i : Instr) (rest : List Bool), EngineMoves s s' →
    (s.phase = .readHeader ∧ f = .hdr ∨
      s.phase = .decodeResidual ∧ s.residual = none ∧ f = .res ∨
      s.phase = .decodeResidual ∧ s.residual ≠ none ∧ s.method = 0 ∧ f = .part4 ∨
      s.phase = .decodeResidual ∧ s.residual ≠ none ∧ s.method = 1 ∧ f = .part5) →
    decode f s.unread = .item i rest →
    step s = exec i (s'.consumed (s.unread.length - rest.length))

/-- A wire item the stream ends inside is a field-read failure (R66, R69, R96, R101). -/
def Obligations.StepFailsOnShortItem : Prop :=
  ∀ (s s' : State) (f : Format) (why : DecodeError), EngineMoves s s' →
    (s.phase = .readHeader ∧ f = .hdr ∨
      s.phase = .decodeResidual ∧ s.residual = none ∧ f = .res ∨
      s.phase = .decodeResidual ∧ s.residual ≠ none ∧ s.method = 0 ∧ f = .part4 ∨
      s.phase = .decodeResidual ∧ s.residual ≠ none ∧ s.method = 1 ∧ f = .part5) →
    decode f s.unread = .rejected why →
    FailsWith (step s) s' (if s.truncEn then .truncated else .invalidStream) .readFailField

/-- In the phases after the header that read no item of their own, the step goes on with the sub-frame instruction that `TYPE` and
`WASTED` name (R66, R67). One phase per step is the model's choice (log entry 6), the flag read back from `WASTED` its inference
(log entry 16). -/
def Obligations.StepResumesSubFrameInstruction : Prop :=
  ∀ (s s' : State), EngineMoves s s' →
    (s.phase = .readRaw ∨ s.phase = .readWarmup ∨ s.phase = .readPredParams ∨ s.phase = .restore) →
    step s = exec (instrOfType s.typeCode.toNat (decide (s.wasted ≠ 0))) s'

/-- R106: a command that has arrived is taken, oldest first, and executed; a stream that arrives between decodes is positioned
(R113, R129). With nothing pending the machine waits unchanged between decodes (R126). When an event arrives during a decode, and
a position past the end taken as the end, are the model's choices (log entries 6 and 17); the order of the bits of a byte is the
spec's general knowledge (log entry 15). -/
def Obligations.StepTakesHostEvents : Prop :=
  ∀ (s : State) (w : Nat) (rest : List Arrival),
    (∀ c, s.inbox = ⟨w, .command c⟩ :: rest → (s.phase.busy = true → w = 0) →
      step s = exec (commandOfCode c.code.toNat c.args) { s with inbox := rest }) ∧
    (∀ bits pos, s.inbox = ⟨w, .supply bits pos⟩ :: rest → s.phase.busy = false →
      step s = .next { s with inbox := rest, source := bits, srcPos := min pos bits.length }) ∧
    (∀ bytes pos, s.inbox = ⟨w, .supplyBytes bytes pos⟩ :: rest → s.phase.busy = false →
      step s = .next { s with inbox := rest, source := bitsOfBytes bytes, srcPos := min pos (8 * bytes.length) }) ∧
    (s.inbox = [] → s.phase.busy = false → step s = .next s)

/-- A meaning stops by name on every wire item that the phase does not read: the model's choice (log entry 13), as the spec gives
such an execution no meaning (R67); `step` never runs one so (`StepStopsOnlyWhenStreamChanges`). -/
def Obligations.ItemsOutsideTheirPhaseStop : Prop :=
  ∀ (s : State) (i : Instr), itemFits i s = false → exec i s = .fault .outOfPhase

/-! ## The whole machine -/

/-- R127: the registers of R19 after reset, every buffer word unwritten, and the engine waits in IDLE for a command. -/
def Obligations.ResetRegisters : Prop :=
  State.reset.truncEn = false ∧ State.reset.cfgBs = 0 ∧ State.reset.cfgBps = 0 ∧ State.reset.phase = .idle ∧
  State.reset.err = .none ∧ State.reset.cause = .none ∧ State.reset.typeCode = 0 ∧ State.reset.wasted = 0 ∧
  State.reset.variant = .constant ∧ State.reset.order = 0 ∧ State.reset.precision = 0 ∧ State.reset.shift = 0 ∧
  State.reset.method = 0 ∧ State.reset.partOrder = 0 ∧ State.reset.x = [] ∧ State.reset.e = [] ∧ State.reset.c = [] ∧
  step State.reset = .next State.reset

/-- The invariant holds after reset. The bit source, the cursor and the residual progress are there at the model's own reset values
(log entry 1). -/
def Obligations.InvariantHoldsAtReset : Prop := EngineInv State.reset

/-- Every step keeps the invariant, from every state that has it. That the position lies within the stream after a RESET too is the
model's inference (log entry 4), and so is the end of the residual progress on a failure (log entry 12). -/
def Obligations.StepKeepsInvariant : Prop := ∀ s t : State, EngineInv s → step s = .next t → EngineInv t

/-- From every state with the invariant the step answers a next state, unless the host changes the stream during a decode, which
the spec gives no meaning (R47): no unwritten word is ever read (R27), no index leaves its buffer (R42), and no instruction runs
outside its phase. -/
def Obligations.StepStopsOnlyWhenStreamChanges : Prop :=
  ∀ s : State, EngineInv s →
    (hostBreaksStream s = false → ∃ t, step s = .next t) ∧
    (hostBreaksStream s = true → step s = .fault .streamChanged)

/-- R67: the phases follow one another in the order of the variant, the variant does not change within a decode after its header,
and DONE and FAILED are left only by START or RESET. -/
def Obligations.PhasesFollowTheVariant : Prop :=
  (∀ s s' t : State, EngineInv s → s.phase.busy = true → EngineMoves s s' → step s = .next t →
    phaseFollows t.variant s.phase t.phase = true ∧ (s.phase ≠ .readHeader → t.variant = s.variant)) ∧
  (∀ s t : State, (s.phase = .done ∨ s.phase = .failed) → nextIsStartOrReset s = false → step s = .next t → t.phase = s.phase)

/-- Every decode ends: with no host event pending, the engine is in DONE or FAILED after finitely many steps (R134, which the spec
marks as derived). The bound `longestDecode` is no rule of the spec, which gives no bound (R133): it counts the model's own steps,
one per wire item or phase (log entry 6, DESIGN CHOICE). -/
def Obligations.EveryDecodeEnds : Prop :=
  ∀ s : State, EngineInv s → s.phase.busy = true → s.inbox = [] →
    ∃ n t, n ≤ longestDecode ∧ Host.Core.run core n s = .next t ∧ (t.phase = .done ∨ t.phase = .failed)

/-- Between decodes only START and RESET change the engine's state (R28, R119, R126): every other step leaves all of it. -/
def Obligations.NothingChangesBetweenDecodes : Prop :=
  ∀ s t : State, s.phase.busy = false → nextIsStartOrReset s = false → step s = .next t →
    t = { s with
      inbox := t.inbox
      responses := t.responses
      hostMem := t.hostMem
      source := t.source
      srcPos := t.srcPos }

/-- No instruction writes the bit source or the pending events (R15, R30), only READ writes host words (R108), only START writes
the configuration to anything but its reset value (R19), and answers are only ever added (R106). For RESET, that the pending
events, the answers, the stream and the host words stay is the model's inference (log entry 14). -/
def Obligations.InstructionsLeaveHostAndStream : Prop :=
  ∀ (i : Instr) (s t : State), exec i s = .next t →
    t.source = s.source ∧ t.inbox = s.inbox ∧ s.responses <+: t.responses ∧
    ((∀ d l, i ≠ .cmdRead d l) → t.hostMem = s.hostMem) ∧
    ((∀ bs bps tr, i ≠ .cmdStart bs bps tr) → i ≠ .cmdReset →
      t.truncEn = s.truncEn ∧ t.cfgBs = s.cfgBs ∧ t.cfgBps = s.cfgBps)

/-- The frame of every wire item, whether it completes or fails: each phase writes only the registers and the buffer that the rule
of its phase names (R69, R73 to R76, R79, R86, R90, R96, R101), the status and the read position, and a failing item no other
(R117). What a failing item leaves in them is the model's inference (log entry 12), what `E`, `C` and `ACC` hold in DONE its
choice (log entry 19). -/
def Obligations.PhaseWritesOnlyItsRegisters : Prop :=
  ∀ (i : Instr) (s t : State), exec i s = .next t → (encode i).format ≠ .cmd →
    t = { s with
      phase := t.phase
      err := if t.phase = .failed then t.err else s.err
      cause := if t.phase = .failed then t.cause else s.cause
      cursor := t.cursor
      srcPos := t.srcPos
      residual := if s.phase = .decodeResidual ∨ t.phase = .failed then t.residual else s.residual
      freeCount := if t.phase = .failed then t.freeCount else s.freeCount
      responses := if t.phase = .done ∨ t.phase = .failed then t.responses else s.responses
      typeCode := if s.phase = .readHeader then t.typeCode else s.typeCode
      variant := if s.phase = .readHeader then t.variant else s.variant
      order := if s.phase = .readHeader then t.order else s.order
      wasted := if s.phase = .readHeader then t.wasted else s.wasted
      precision := if s.phase = .readPredParams then t.precision else s.precision
      shift := if s.phase = .readPredParams then t.shift else s.shift
      c := if s.phase = .readPredParams then t.c else s.c
      method := if s.phase = .decodeResidual then t.method else s.method
      partOrder := if s.phase = .decodeResidual then t.partOrder else s.partOrder
      e := if s.phase = .decodeResidual then t.e else s.e
      x := if s.phase = .readRaw ∨ s.phase = .readWarmup ∨ s.phase = .restore then t.x else s.x
      acc := if s.phase = .restore then t.acc else s.acc }

/-- R17: within a decode the cursor never moves backwards, the bit source's position moves with it, and the position never passes
the end of the stream; the restoration reads no bits (R79, R90). -/
def Obligations.CursorOnlyMovesForward : Prop :=
  ∀ (i : Instr) (s t : State), exec i s = .next t → s.phase.busy = true → (encode i).format ≠ .cmd →
    s.srcPos ≤ s.source.length → t.phase ≠ .failed →
    s.cursor ≤ t.cursor ∧ t.srcPos - s.srcPos = t.cursor - s.cursor ∧ s.srcPos ≤ t.srcPos ∧
    t.srcPos ≤ t.source.length ∧ (s.phase = .restore → t.cursor = s.cursor)

/-- The wasted-bits law: the last phase of any variant gives, with `w` wasted bits, the samples it gives with none, shifted left by
`w`, when the sample fields have the same width, `bps - w` (R77, which the spec marks as derived; the width is log entry
15's). -/
def Obligations.WastedBitsShiftEverySample : Prop :=
  ∀ (s t0 : State) (i : Instr), (s.phase = .readRaw ∨ s.phase = .restore) →
    exec i { s with wasted := 0, cfgBps := BitVec.ofNat 6 (s.cfgBps.toNat - s.wasted.toNat) } = .next t0 → t0.phase = .done →
    ((∃ wf, i = .constant wf) ∨ (∃ wf, i = .verbatim wf) ∨ (∃ n wf, n ≤ 4 ∧ i = fixedInstr n wf) ∨ ∃ o wf, i = .lpc o wf) →
    ∃ t, exec i s = .next t ∧ t.phase = .done ∧
      ∀ k, k < s.blockSize → ∃ v, Memory.read t0.x k = some v ∧
        Memory.read t.x k = some (wrap32 (v.toInt * 2 ^ s.wasted.toNat))

/-- What a START leaves of an earlier decode (R27, R48): two machines between decodes that agree on the stream, the host and the
free-value counter answer the same START alike and agree afterwards on everything but `TYPE`, `WASTED`, `VARIANT`, `ORDER`,
`PRECISION`, `SHIFT`, `METHOD`, `PART_ORDER` and `ACC`, which START does not write; no word of `X`, `E` or `C` is left. Which of
those registers a later step reads is not said here. -/
def Obligations.StartForgetsEarlierDecode : Prop :=
  ∀ (s u : State) (bs bps : Nat) (tr : Bool), s.phase.busy = false → u.phase.busy = false →
    u.source = s.source → u.srcPos = s.srcPos → u.inbox = s.inbox → u.responses = s.responses → u.hostMem = s.hostMem →
    u.freeCount = s.freeCount →
    ∃ s' u', exec (.cmdStart bs bps tr) s = .next s' ∧ exec (.cmdStart bs bps tr) u = .next u' ∧
      s'.x = [] ∧ s'.e = [] ∧ s'.c = [] ∧
      u' = { s' with
        typeCode := u.typeCode
        wasted := u.wasted
        variant := u.variant
        order := u.order
        precision := u.precision
        shift := u.shift
        method := u.method
        partOrder := u.partOrder
        acc := u.acc }

/-! ## Whole sub-frames -/

/-- Lossless restoration of a fixed-predictor sub-frame: for every block of `i32` samples `x`, the sub-frame that carries its warm-up
and the Rice codes of its prediction errors in one partition decodes, step by step, to exactly `x`, and the read position then
stands behind its last bit (R3, R66, R78, R79). The form of a Rice code, its folding and the width of a warm-up field are general
knowledge of the spec's (log entry 15), the five steps the model's own (log entry 6). -/
def Obligations.FixedSubFrameIsLossless : Prop :=
  ∀ (s : State) (n k : Nat) (x : Nat → Int) (ws us : List Nat) (rest : List Bool),
    n ≤ 4 → k < 15 → s.phase = .readHeader → s.inbox = [] → s.residual = none → n ≤ s.blockSize →
    (∀ i, i < s.blockSize → -(2 : Int) ^ 31 ≤ x i ∧ x i < (2 : Int) ^ 31) →
    ws.length = n → (∀ i, i < n → ws.getD i 0 < 2 ^ s.cfgBps.toNat ∧ sext s.cfgBps.toNat (ws.getD i 0) = x i) →
    us.length = s.blockSize - n →
    (∀ j, j < s.blockSize - n →
      us.getD j 0 < 2 ^ 32 ∧ foldRice (us.getD j 0) = x (n + j) - fixedPrediction n x (n + j)) →
    s.unread = headerBits (8 + n) false ++ (fieldsBits s.cfgBps.toNat ws ++
      (natToBits 6 0 ++ (natToBits 4 k ++ (ricesBits k us ++ rest)))) →
    ∃ t, Host.Core.run core 5 s = .next t ∧ t.phase = .done ∧ t.unread = rest ∧
      t.cursor = s.cursor + (8 + n * s.cfgBps.toNat + 6 + 4 + (ricesBits k us).length) ∧
      ∀ i, i < s.blockSize → Memory.read t.x i = some (wrap32 (x i))

/-- Lossless restoration of an LPC sub-frame: the same, with coefficients `c` of `f + 1` bits and a right shift `v`, and the
prediction errors Rice-coded by method 1 in one partition (R3, R66, R78, R90). The form of a Rice code, its folding and the width
of a warm-up field are general knowledge of the spec's (log entry 15), the six steps the model's own (log entry 6). -/
def Obligations.LpcSubFrameIsLossless : Prop :=
  ∀ (s : State) (n k f v : Nat) (x : Nat → Int) (ws cs us : List Nat) (rest : List Bool),
    1 ≤ n → n ≤ 32 → k < 31 → f < 15 → v < 16 → s.phase = .readHeader → s.inbox = [] → s.residual = none →
    n ≤ s.blockSize → (∀ i, i < s.blockSize → -(2 : Int) ^ 31 ≤ x i ∧ x i < (2 : Int) ^ 31) →
    ws.length = n → (∀ i, i < n → ws.getD i 0 < 2 ^ s.cfgBps.toNat ∧ sext s.cfgBps.toNat (ws.getD i 0) = x i) →
    cs.length = n → (∀ c ∈ cs, c < 2 ^ (f + 1)) → us.length = s.blockSize - n →
    (∀ j, j < s.blockSize - n → us.getD j 0 < 2 ^ 32 ∧
      foldRice (us.getD j 0) =
        x (n + j) - dotProduct n (fun i => sext (f + 1) (cs.getD i 0)) x (n + j) / (2 : Int) ^ v) →
    s.unread = headerBits (31 + n) false ++ (fieldsBits s.cfgBps.toNat ws ++ (natToBits 4 f ++ (natToBits 5 v ++
      (fieldsBits (f + 1) cs ++ (natToBits 6 16 ++ (natToBits 5 k ++ (ricesBits k us ++ rest))))))) →
    ∃ t, Host.Core.run core 6 s = .next t ∧ t.phase = .done ∧ t.unread = rest ∧
      t.cursor = s.cursor + (8 + n * s.cfgBps.toNat + 9 + n * (f + 1) + 6 + 5 + (ricesBits k us).length) ∧
      ∀ i, i < s.blockSize → Memory.read t.x i = some (wrap32 (x i))

/-! ## LPC parameters that the stream ends inside -/

/-- R86, R94 and R116: a stream that ends inside the precision, the shift or a coefficient is a field-read failure, TRUNCATED where
`TRUNC_EN` is 1, when the fields before it are legal. -/
def Obligations.ShortLpcParametersFail : Prop :=
  ∀ (s : State) (o : BitVec 5) (wf : Bool) (rest : List Bool), s.phase = .readPredParams → s.order.toNat ≤ 32 →
    (s.unread.length < 4 →
      FailsWith (exec (.lpc o wf) s) s (if s.truncEn then .truncated else .invalidStream) .readFailField) ∧
    (∀ f, f < 15 → s.unread = natToBits 4 f ++ rest → rest.length < 5 →
      FailsWith (exec (.lpc o wf) s) s (if s.truncEn then .truncated else .invalidStream) .readFailField) ∧
    (∀ f v, f < 15 → v < 16 → s.unread = natToBits 4 f ++ (natToBits 5 v ++ rest) →
      rest.length < s.order.toNat * (f + 1) →
      FailsWith (exec (.lpc o wf) s) s (if s.truncEn then .truncated else .invalidStream) .readFailField)
end

