-- ==== Sys2Proof/Laws/Bits.lean ====
section
/-! SUPPORT. What the bit-input operations do: fields, unary codes, Rice codes and runs of reads. -/

namespace Sys2Proof

@[simp] theorem natToBits_length (n v : Nat) : (natToBits n v).length = n := by
  induction n with
  | zero => rfl
  | succ n ih => simp [natToBits, ih]

theorem takeBits_append (n v : Nat) (rest : List Bool) :
    takeBits n (natToBits n v ++ rest) = some (v % 2 ^ n, rest) := by
  induction n with
  | zero => simp [natToBits, takeBits, Nat.mod_one]
  | succ n ih =>
    simp only [natToBits, List.cons_append, takeBits, ih]
    have h : v % 2 ^ (n + 1) = (v.testBit n).toNat * 2 ^ n + v % 2 ^ n := by
      rw [Nat.mod_pow_succ, Nat.toNat_testBit, Nat.add_comm, Nat.mul_comm]
    rw [h]

theorem takeBits_of_lt {n v : Nat} (h : v < 2 ^ n) (rest : List Bool) :
    takeBits n (natToBits n v ++ rest) = some (v, rest) := by
  rw [takeBits_append, Nat.mod_eq_of_lt h]

/-- A field that is read has its bits there, is what the encoder writes, and fits its width. -/
theorem takeBits_some {n : Nat} {bits : List Bool} {v : Nat} {rest : List Bool}
    (h : takeBits n bits = some (v, rest)) : v < 2 ^ n ∧ bits = natToBits n v ++ rest := by
  induction n generalizing bits v rest with
  | zero =>
    simp only [takeBits, Option.some.injEq, Prod.mk.injEq] at h
    obtain ⟨rfl, rfl⟩ := h
    simp [natToBits]
  | succ n ih =>
    cases bits with
    | nil => simp [takeBits] at h
    | cons b bits =>
      simp only [takeBits] at h
      split at h
      · cases h
      · rename_i u r hu
        obtain ⟨hlt, hbits⟩ := ih hu
        simp only [Option.some.injEq, Prod.mk.injEq] at h
        obtain ⟨rfl, rfl⟩ := h
        have hp : 2 ^ (n + 1) = 2 * 2 ^ n := by ring
        have htest : (b.toNat * 2 ^ n + u).testBit n = b := by
          rw [Nat.testBit_eq_decide_div_mod_eq, Nat.mul_comm, Nat.mul_add_div (Nat.two_pow_pos n),
            Nat.div_eq_of_lt hlt]
          cases b <;> rfl
        have hlow : natToBits n (b.toNat * 2 ^ n + u) = natToBits n u := by
          have key : ∀ m, m ≤ n → natToBits m (b.toNat * 2 ^ n + u) = natToBits m u := by
            intro m hm
            induction m with
            | zero => rfl
            | succ m ihm =>
              simp only [natToBits]
              rw [ihm (by omega), Nat.mul_comm, Nat.testBit_two_pow_mul_add _ hlt]
              simp [show m < n by omega]
          exact key n le_rfl
        refine ⟨?_, ?_⟩
        · cases b <;> simp <;> omega
        · simp [natToBits, htest, hlow, hbits]

theorem takeBits_none {n : Nat} {bits : List Bool} : takeBits n bits = none ↔ bits.length < n := by
  induction n generalizing bits with
  | zero => simp [takeBits]
  | succ n ih =>
    cases bits with
    | nil => simp [takeBits]
    | cons b bits =>
      simp only [takeBits, List.length_cons, Nat.add_lt_add_iff_right, ← ih]
      split <;> simp_all

end Sys2Proof

namespace Sys2Proof.Machine

theorem readUnary_code (n : Nat) (rest : List Bool) :
    readUnary (List.replicate n false ++ true :: rest) = some (n, rest) := by
  induction n with
  | zero => rfl
  | succ n ih => simp [List.replicate_succ, readUnary, ih]

theorem readUnary_zeros (n : Nat) : readUnary (List.replicate n false) = none := by
  induction n with
  | zero => rfl
  | succ n ih => simp [List.replicate_succ, readUnary, ih]

theorem readUnary_some {bits : List Bool} {n : Nat} {rest : List Bool} (h : readUnary bits = some (n, rest)) :
    bits = List.replicate n false ++ true :: rest := by
  induction bits generalizing n rest with
  | nil => simp [readUnary] at h
  | cons b bits ih =>
    cases b with
    | true => simp_all [readUnary]
    | false =>
      simp only [readUnary] at h
      split at h
      · cases h
      · rename_i m r hm
        simp only [Option.some.injEq, Prod.mk.injEq] at h
        obtain ⟨rfl, rfl⟩ := h
        simp [List.replicate_succ, ih hm]

/-- A read leaves a tail of the bits it was given. -/
def LeavesTail (code : List Bool → CodeRead) : Prop :=
  ∀ bits v rest, code bits = .value v rest → rest <:+ bits

theorem readS_leavesTail (n : Nat) : LeavesTail (readS n) := by
  intro bits v rest h
  simp only [readS] at h
  split at h
  · cases h
  · rename_i u r hu
    cases h
    exact ⟨_, (takeBits_some hu).2.symm⟩

theorem readRaw_leavesTail (signed : Bool) (n : Nat) : LeavesTail (readRaw signed n) := by
  intro bits v rest h
  simp only [readRaw] at h
  split at h
  · cases h
  · rename_i u r hu
    cases h
    exact ⟨_, (takeBits_some hu).2.symm⟩

theorem readRice_leavesTail (k : Nat) : LeavesTail (readRice k) := by
  intro bits v rest h
  simp only [readRice] at h
  split at h
  · cases h
  · rename_i q r hq
    split at h
    · cases h
    · split at h
      · cases h
      · rename_i u r' hu
        cases h
        refine List.IsSuffix.trans ⟨_, (takeBits_some hu).2.symm⟩ ?_
        exact ⟨List.replicate q false ++ [true], by simp [readUnary_some hq]⟩

/-- A complete run has read `n` words and leaves a tail. -/
theorem readRun_complete {code : List Bool → CodeRead} (hc : LeavesTail code) {n : Nat} {bits : List Bool}
    {vs : List Word} {rest : List Bool} (h : readRun code n bits = (vs, .complete rest)) :
    vs.length = n ∧ rest <:+ bits := by
  induction n generalizing bits vs with
  | zero => simp_all [readRun]
  | succ n ih =>
    simp only [readRun] at h
    split at h
    · cases h
    · cases h
    · rename_i v r hv
      rcases hr : readRun code n r with ⟨ws, fin⟩
      simp only [hr] at h
      cases h
      have := ih hr
      exact ⟨by simp [this.1], this.2.trans (hc _ _ _ hv)⟩

/-- No run reads more than `n` words. -/
theorem readRun_length (code : List Bool → CodeRead) (n : Nat) (bits : List Bool) :
    (readRun code n bits).1.length ≤ n := by
  induction n generalizing bits with
  | zero => simp [readRun]
  | succ n ih =>
    simp only [readRun]
    split
    · simp
    · simp
    · rename_i v r hv
      have := ih r
      rcases hr : readRun code n r with ⟨ws, fin⟩
      simpa [hr] using this

/-- A run over codes that are all there reads them all: `enc` is a wire form whose code reads to `val`. -/
theorem readRun_codes {α : Type} (code : List Bool → CodeRead) (enc : α → List Bool) (val : α → Word) (us : List α)
    (h : ∀ u ∈ us, ∀ rest, code (enc u ++ rest) = .value (val u) rest) (rest : List Bool) :
    readRun code us.length (us.flatMap enc ++ rest) = (us.map val, .complete rest) := by
  induction us with
  | nil => simp [readRun]
  | cons u us ih =>
    have hu := h u (by simp) (us.flatMap enc ++ rest)
    have ih := ih fun w hw => h w (by simp [hw])
    simp only [List.length_cons, List.flatMap_cons, List.append_assoc, readRun, hu, ih, List.map_cons]

/-- A run that ends before its last code: the codes that are all there are read, and the next read says how the run ends. -/
theorem readRun_stops {α : Type} (code : List Bool → CodeRead) (enc : α → List Bool) (val : α → Word) (us : List α)
    (h : ∀ u ∈ us, ∀ rest, code (enc u ++ rest) = .value (val u) rest) {n : Nat} (hn : us.length < n) (tail : List Bool) :
    (code tail = .short → readRun code n (us.flatMap enc ++ tail) = (us.map val, .short)) ∧
    (code tail = .overflow → readRun code n (us.flatMap enc ++ tail) = (us.map val, .overflow)) := by
  induction us generalizing n with
  | nil =>
    obtain ⟨m, rfl⟩ : ∃ m, n = m + 1 := ⟨n - 1, by simp at hn; omega⟩
    constructor <;> intro ht <;> simp [readRun, ht]
  | cons u us ih =>
    obtain ⟨m, rfl⟩ : ∃ m, n = m + 1 := ⟨n - 1, by simp at hn; omega⟩
    have hu := h u (by simp) (us.flatMap enc ++ tail)
    obtain ⟨h1, h2⟩ := ih (fun w hw => h w (by simp [hw])) (n := m) (by simpa using hn)
    constructor <;> intro ht <;>
      simp only [List.flatMap_cons, List.append_assoc, readRun, hu, h1, h2, ht, List.map_cons]

/-- A run of signed fields that the stream ends inside. -/
theorem readRun_readS_short {w n : Nat} {bits : List Bool} (h : bits.length < n * w) :
    (readRun (readS w) n bits).2 = .short := by
  induction n generalizing bits with
  | zero => simp at h
  | succ n ih =>
    simp only [readRun, readS]
    rcases hb : takeBits w bits with _ | ⟨v, rest⟩
    · rfl
    · have hlen := congrArg List.length (takeBits_some hb).2
      simp only [List.length_append, natToBits_length] at hlen
      have := ih (bits := rest) (by rw [Nat.succ_mul] at h; omega)
      rcases hr : readRun (readS w) n rest with ⟨vs, fin⟩
      simpa [hr] using this

/-- A Rice code that the stream ends inside the quotient of (R102). -/
theorem readRice_zeros (k z : Nat) : readRice k (List.replicate z false) = .short := by
  simp [readRice, readUnary_zeros]

/-- A Rice code that the stream ends inside the remainder of, the quotient being small enough (R102). -/
theorem readRice_shortRemainder {k z : Nat} {rest : List Bool} (hz : z < 2 ^ (32 - k)) (hr : rest.length < k) :
    readRice k (List.replicate z false ++ true :: rest) = .short := by
  simp [readRice, readUnary_code, Nat.not_le.mpr hz, takeBits_none.mpr hr]

theorem readS_field {n v : Nat} (h : v < 2 ^ n) (rest : List Bool) :
    readS n (natToBits n v ++ rest) = .value (wrap32 (sext n v)) rest := by
  simp [readS, takeBits_of_lt h]

theorem readRaw_field (signed : Bool) {n v : Nat} (h : v < 2 ^ n) (rest : List Bool) :
    readRaw signed n (natToBits n v ++ rest) = .value (wrap32 (escapeValue signed n v)) rest := by
  simp [readRaw, takeBits_of_lt h]

end Sys2Proof.Machine
end

