-- ==== Sys2Proof/Laws/Memory.lean ====
section
/-! SUPPORT. The buffers: read after write, and the canonical form. -/

namespace Sys2Proof.Machine

theorem Memory.read_write (m : Memory) (i j : Nat) (v : Word) :
    Memory.read (Memory.write m i v) j = if i = j then some v else Memory.read m j := by
  induction m with
  | nil => simp [Memory.write, Memory.read]
  | cons p m ih =>
    obtain ⟨a, w⟩ := p
    simp only [Memory.write]
    split
    · by_cases hij : i = j
      · simp [Memory.read, hij]
      · simp [Memory.read, hij]
    · split
      · rename_i h1 h2
        subst h2
        by_cases hij : i = j
        · simp [Memory.read, hij]
        · simp [Memory.read, hij]
      · by_cases haj : a = j
        · subst haj
          simp [Memory.read, show i ≠ a by omega]
        · simp [Memory.read, haj, ih]

theorem Memory.wf_iff (m : Memory) : Memory.wf m = true ↔ m.Pairwise fun p q => p.1 < q.1 := by
  induction m with
  | nil => simp [Memory.wf]
  | cons p m ih =>
    obtain ⟨a, w⟩ := p
    cases m with
    | nil => simp [Memory.wf]
    | cons q m =>
      obtain ⟨b, u⟩ := q
      rw [List.pairwise_cons, ← ih]
      constructor
      · intro h
        have h' : a < b ∧ Memory.wf ((b, u) :: m) = true := by simpa [Memory.wf] using h
        refine ⟨?_, h'.2⟩
        have := (ih.mp h'.2)
        rw [List.pairwise_cons] at this
        intro r hr
        rcases List.mem_cons.mp hr with rfl | hr
        · exact h'.1
        · exact h'.1.trans (this.1 r hr)
      · rintro ⟨h, h'⟩
        have := h (b, u) (by simp)
        simp only [Memory.wf] at h' ⊢
        simp [this, h']

theorem Memory.mem_write (m : Memory) (i : Nat) (v : Word) :
    ∀ p ∈ Memory.write m i v, p = (i, v) ∨ p ∈ m := by
  induction m with
  | nil => simp [Memory.write]
  | cons q m ih =>
    obtain ⟨a, w⟩ := q
    intro p hp
    simp only [Memory.write] at hp
    split at hp
    · simp_all
    · split at hp
      · rcases List.mem_cons.mp hp with h | h <;> simp_all
      · rcases List.mem_cons.mp hp with h | h
        · simp [h]
        · rcases ih p h with h | h <;> simp [h]

/-- A write keeps the canonical form. -/
theorem Memory.wf_write (m : Memory) (i : Nat) (v : Word) (h : Memory.wf m = true) :
    Memory.wf (Memory.write m i v) = true := by
  rw [Memory.wf_iff] at h ⊢
  induction m with
  | nil => simp [Memory.write]
  | cons q m ih =>
    obtain ⟨a, w⟩ := q
    rw [List.pairwise_cons] at h
    simp only [Memory.write]
    split
    · rename_i hia
      rw [List.pairwise_cons, List.pairwise_cons]
      refine ⟨?_, h⟩
      intro p hp
      rcases List.mem_cons.mp hp with rfl | hp
      · exact hia
      · exact hia.trans (h.1 p hp)
    · split
      · rename_i _ hia
        subst hia
        rw [List.pairwise_cons]
        exact h
      · rename_i h1 h2
        rw [List.pairwise_cons]
        refine ⟨?_, ih h.2⟩
        intro p hp
        rcases Memory.mem_write m i v p hp with rfl | hp
        · show a < i
          omega
        · exact h.1 p hp

theorem Memory.wf_writeRun (m : Memory) (base : Nat) (vs : List Word) (h : Memory.wf m = true) :
    Memory.wf (Memory.writeRun m base vs) = true := by
  induction vs generalizing m base with
  | nil => exact h
  | cons v vs ih => exact ih _ _ (Memory.wf_write m base v h)

/-- What a run of writes leaves at every index. -/
theorem Memory.read_writeRun (m : Memory) (base : Nat) (vs : List Word) (j : Nat) :
    Memory.read (Memory.writeRun m base vs) j =
      if base ≤ j ∧ j < base + vs.length then vs[j - base]? else Memory.read m j := by
  induction vs generalizing m base with
  | nil =>
    simp only [Memory.writeRun, List.length_nil]
    split
    · omega
    · rfl
  | cons v vs ih =>
    simp only [Memory.writeRun]
    rw [ih, Memory.read_write]
    by_cases hj : j = base
    · subst hj; simp
    · by_cases h2 : base + 1 ≤ j ∧ j < base + 1 + vs.length
      · rw [if_pos h2, if_pos (by simp; omega)]
        rw [show j - base = (j - (base + 1)) + 1 by omega, List.getElem?_cons_succ]
      · rw [if_neg h2, if_neg (by omega), if_neg (by simp; omega)]

theorem Memory.readUp_of_holds (m : Memory) (f : Nat → Word) (i n : Nat)
    (h : ∀ k, k < n → Memory.read m (i + k) = some (f (i + k))) :
    Memory.readUp m i n = some ((List.range n).map fun k => f (i + k)) := by
  induction n generalizing i with
  | zero => simp [Memory.readUp]
  | succ n ih =>
    have h0 := h 0 (by omega)
    have := ih (i + 1) fun k hk => by
      have := h (k + 1) (by omega)
      rwa [show i + (k + 1) = i + 1 + k by omega] at this
    simp only [Nat.add_zero] at h0
    simp only [Memory.readUp, h0, this, List.range_succ_eq_map, List.map_cons, List.map_map, Nat.add_zero]
    congr 2
    apply List.map_congr_left
    intro k _
    simp [show i + 1 + k = i + (k + 1) by omega]

theorem Memory.readDown_of_holds (m : Memory) (f : Nat → Word) (i n : Nat) (hn : n ≤ i)
    (h : ∀ k, k < n → Memory.read m (i - 1 - k) = some (f (i - 1 - k))) :
    Memory.readDown m i n = some ((List.range n).map fun k => f (i - 1 - k)) := by
  induction n generalizing i with
  | zero => simp [Memory.readDown]
  | succ n ih =>
    obtain ⟨i, rfl⟩ : ∃ i', i = i' + 1 := ⟨i - 1, by omega⟩
    have h0 := h 0 (by omega)
    have := ih i (by omega) fun k hk => by
      have := h (k + 1) (by omega)
      rwa [show i + 1 - 1 - (k + 1) = i - 1 - k by omega] at this
    simp only [Nat.add_sub_cancel, Nat.sub_zero] at h0
    simp only [Memory.readDown, h0, this, List.range_succ_eq_map, List.map_cons, List.map_map]
    congr 2
    apply List.map_congr_left
    intro k _
    simp [show i - 1 - k = i + 1 - 1 - (k + 1) by omega]

theorem Memory.exactly_nil : Memory.Exactly [] 0 := by
  intro i; simp [Memory.read]

/-- Writing the words from `n` on extends the written words. -/
theorem Memory.Exactly.writeRun {m : Memory} {n : Nat} (hm : Memory.Exactly m n) (vs : List Word) :
    Memory.Exactly (Memory.writeRun m n vs) (n + vs.length) := by
  intro i
  rw [Memory.read_writeRun]
  split
  · rename_i h
    rw [List.getElem?_eq_getElem (by omega)]
    simp [h.2]
  · rw [hm i]
    omega

/-- Writing over a written word leaves the same words written. -/
theorem Memory.Exactly.overwrite {m : Memory} {n : Nat} (hm : Memory.Exactly m n) {i : Nat} (hi : i < n)
    (v : Word) : Memory.Exactly (Memory.write m i v) n := by
  intro j
  rw [Memory.read_write]
  split
  · simp_all
  · exact hm j

end Sys2Proof.Machine
end

