-- ==== Sys2Proof/Laws/State.lean ====
section
/-! SUPPORT. One lemma per field per update of the state, each true by rfl, so that no proof unfolds a record update. -/

namespace Sys2Proof.Machine

/-! ## `State.enter` -/

@[simp] theorem State.enter_truncEn (s : State) (p : Phase) : (s.enter p).truncEn = s.truncEn := rfl
@[simp] theorem State.enter_cfgBs (s : State) (p : Phase) : (s.enter p).cfgBs = s.cfgBs := rfl
@[simp] theorem State.enter_cfgBps (s : State) (p : Phase) : (s.enter p).cfgBps = s.cfgBps := rfl
@[simp] theorem State.enter_phase (s : State) (p : Phase) : (s.enter p).phase = p := rfl
@[simp] theorem State.enter_err (s : State) (p : Phase) : (s.enter p).err = s.err := rfl
@[simp] theorem State.enter_cause (s : State) (p : Phase) : (s.enter p).cause = s.cause := rfl
@[simp] theorem State.enter_typeCode (s : State) (p : Phase) : (s.enter p).typeCode = s.typeCode := rfl
@[simp] theorem State.enter_wasted (s : State) (p : Phase) : (s.enter p).wasted = s.wasted := rfl
@[simp] theorem State.enter_variant (s : State) (p : Phase) : (s.enter p).variant = s.variant := rfl
@[simp] theorem State.enter_order (s : State) (p : Phase) : (s.enter p).order = s.order := rfl
@[simp] theorem State.enter_precision (s : State) (p : Phase) : (s.enter p).precision = s.precision := rfl
@[simp] theorem State.enter_shift (s : State) (p : Phase) : (s.enter p).shift = s.shift := rfl
@[simp] theorem State.enter_method (s : State) (p : Phase) : (s.enter p).method = s.method := rfl
@[simp] theorem State.enter_partOrder (s : State) (p : Phase) : (s.enter p).partOrder = s.partOrder := rfl
@[simp] theorem State.enter_c (s : State) (p : Phase) : (s.enter p).c = s.c := rfl
@[simp] theorem State.enter_x (s : State) (p : Phase) : (s.enter p).x = s.x := rfl
@[simp] theorem State.enter_e (s : State) (p : Phase) : (s.enter p).e = s.e := rfl
@[simp] theorem State.enter_acc (s : State) (p : Phase) : (s.enter p).acc = s.acc := rfl
@[simp] theorem State.enter_cursor (s : State) (p : Phase) : (s.enter p).cursor = s.cursor := rfl
@[simp] theorem State.enter_residual (s : State) (p : Phase) : (s.enter p).residual = s.residual := rfl
@[simp] theorem State.enter_source (s : State) (p : Phase) : (s.enter p).source = s.source := rfl
@[simp] theorem State.enter_srcPos (s : State) (p : Phase) : (s.enter p).srcPos = s.srcPos := rfl
@[simp] theorem State.enter_inbox (s : State) (p : Phase) : (s.enter p).inbox = s.inbox := rfl
@[simp] theorem State.enter_responses (s : State) (p : Phase) : (s.enter p).responses = s.responses := rfl
@[simp] theorem State.enter_hostMem (s : State) (p : Phase) : (s.enter p).hostMem = s.hostMem := rfl
@[simp] theorem State.enter_freeCount (s : State) (p : Phase) : (s.enter p).freeCount = s.freeCount := rfl

/-! ## `State.respond` -/

@[simp] theorem State.respond_truncEn (s : State) (r : Response) : (s.respond r).truncEn = s.truncEn := rfl
@[simp] theorem State.respond_cfgBs (s : State) (r : Response) : (s.respond r).cfgBs = s.cfgBs := rfl
@[simp] theorem State.respond_cfgBps (s : State) (r : Response) : (s.respond r).cfgBps = s.cfgBps := rfl
@[simp] theorem State.respond_phase (s : State) (r : Response) : (s.respond r).phase = s.phase := rfl
@[simp] theorem State.respond_err (s : State) (r : Response) : (s.respond r).err = s.err := rfl
@[simp] theorem State.respond_cause (s : State) (r : Response) : (s.respond r).cause = s.cause := rfl
@[simp] theorem State.respond_typeCode (s : State) (r : Response) : (s.respond r).typeCode = s.typeCode := rfl
@[simp] theorem State.respond_wasted (s : State) (r : Response) : (s.respond r).wasted = s.wasted := rfl
@[simp] theorem State.respond_variant (s : State) (r : Response) : (s.respond r).variant = s.variant := rfl
@[simp] theorem State.respond_order (s : State) (r : Response) : (s.respond r).order = s.order := rfl
@[simp] theorem State.respond_precision (s : State) (r : Response) : (s.respond r).precision = s.precision := rfl
@[simp] theorem State.respond_shift (s : State) (r : Response) : (s.respond r).shift = s.shift := rfl
@[simp] theorem State.respond_method (s : State) (r : Response) : (s.respond r).method = s.method := rfl
@[simp] theorem State.respond_partOrder (s : State) (r : Response) : (s.respond r).partOrder = s.partOrder := rfl
@[simp] theorem State.respond_c (s : State) (r : Response) : (s.respond r).c = s.c := rfl
@[simp] theorem State.respond_x (s : State) (r : Response) : (s.respond r).x = s.x := rfl
@[simp] theorem State.respond_e (s : State) (r : Response) : (s.respond r).e = s.e := rfl
@[simp] theorem State.respond_acc (s : State) (r : Response) : (s.respond r).acc = s.acc := rfl
@[simp] theorem State.respond_cursor (s : State) (r : Response) : (s.respond r).cursor = s.cursor := rfl
@[simp] theorem State.respond_residual (s : State) (r : Response) : (s.respond r).residual = s.residual := rfl
@[simp] theorem State.respond_source (s : State) (r : Response) : (s.respond r).source = s.source := rfl
@[simp] theorem State.respond_srcPos (s : State) (r : Response) : (s.respond r).srcPos = s.srcPos := rfl
@[simp] theorem State.respond_inbox (s : State) (r : Response) : (s.respond r).inbox = s.inbox := rfl
@[simp] theorem State.respond_responses (s : State) (r : Response) : (s.respond r).responses = s.responses ++ [r] := rfl
@[simp] theorem State.respond_hostMem (s : State) (r : Response) : (s.respond r).hostMem = s.hostMem := rfl
@[simp] theorem State.respond_freeCount (s : State) (r : Response) : (s.respond r).freeCount = s.freeCount := rfl

/-! ## `State.finish` -/

@[simp] theorem State.finish_truncEn (s : State) : (s.finish).truncEn = s.truncEn := rfl
@[simp] theorem State.finish_cfgBs (s : State) : (s.finish).cfgBs = s.cfgBs := rfl
@[simp] theorem State.finish_cfgBps (s : State) : (s.finish).cfgBps = s.cfgBps := rfl
@[simp] theorem State.finish_phase (s : State) : (s.finish).phase = .done := rfl
@[simp] theorem State.finish_err (s : State) : (s.finish).err = s.err := rfl
@[simp] theorem State.finish_cause (s : State) : (s.finish).cause = s.cause := rfl
@[simp] theorem State.finish_typeCode (s : State) : (s.finish).typeCode = s.typeCode := rfl
@[simp] theorem State.finish_wasted (s : State) : (s.finish).wasted = s.wasted := rfl
@[simp] theorem State.finish_variant (s : State) : (s.finish).variant = s.variant := rfl
@[simp] theorem State.finish_order (s : State) : (s.finish).order = s.order := rfl
@[simp] theorem State.finish_precision (s : State) : (s.finish).precision = s.precision := rfl
@[simp] theorem State.finish_shift (s : State) : (s.finish).shift = s.shift := rfl
@[simp] theorem State.finish_method (s : State) : (s.finish).method = s.method := rfl
@[simp] theorem State.finish_partOrder (s : State) : (s.finish).partOrder = s.partOrder := rfl
@[simp] theorem State.finish_c (s : State) : (s.finish).c = s.c := rfl
@[simp] theorem State.finish_x (s : State) : (s.finish).x = s.x := rfl
@[simp] theorem State.finish_e (s : State) : (s.finish).e = s.e := rfl
@[simp] theorem State.finish_acc (s : State) : (s.finish).acc = s.acc := rfl
@[simp] theorem State.finish_cursor (s : State) : (s.finish).cursor = s.cursor := rfl
@[simp] theorem State.finish_residual (s : State) : (s.finish).residual = s.residual := rfl
@[simp] theorem State.finish_source (s : State) : (s.finish).source = s.source := rfl
@[simp] theorem State.finish_srcPos (s : State) : (s.finish).srcPos = s.srcPos := rfl
@[simp] theorem State.finish_inbox (s : State) : (s.finish).inbox = s.inbox := rfl
@[simp] theorem State.finish_responses (s : State) : (s.finish).responses = s.responses ++ [.done] := rfl
@[simp] theorem State.finish_hostMem (s : State) : (s.finish).hostMem = s.hostMem := rfl
@[simp] theorem State.finish_freeCount (s : State) : (s.finish).freeCount = s.freeCount := rfl

/-! ## `State.consumed` -/

@[simp] theorem State.consumed_truncEn (s : State) (n : Nat) : (s.consumed n).truncEn = s.truncEn := rfl
@[simp] theorem State.consumed_cfgBs (s : State) (n : Nat) : (s.consumed n).cfgBs = s.cfgBs := rfl
@[simp] theorem State.consumed_cfgBps (s : State) (n : Nat) : (s.consumed n).cfgBps = s.cfgBps := rfl
@[simp] theorem State.consumed_phase (s : State) (n : Nat) : (s.consumed n).phase = s.phase := rfl
@[simp] theorem State.consumed_err (s : State) (n : Nat) : (s.consumed n).err = s.err := rfl
@[simp] theorem State.consumed_cause (s : State) (n : Nat) : (s.consumed n).cause = s.cause := rfl
@[simp] theorem State.consumed_typeCode (s : State) (n : Nat) : (s.consumed n).typeCode = s.typeCode := rfl
@[simp] theorem State.consumed_wasted (s : State) (n : Nat) : (s.consumed n).wasted = s.wasted := rfl
@[simp] theorem State.consumed_variant (s : State) (n : Nat) : (s.consumed n).variant = s.variant := rfl
@[simp] theorem State.consumed_order (s : State) (n : Nat) : (s.consumed n).order = s.order := rfl
@[simp] theorem State.consumed_precision (s : State) (n : Nat) : (s.consumed n).precision = s.precision := rfl
@[simp] theorem State.consumed_shift (s : State) (n : Nat) : (s.consumed n).shift = s.shift := rfl
@[simp] theorem State.consumed_method (s : State) (n : Nat) : (s.consumed n).method = s.method := rfl
@[simp] theorem State.consumed_partOrder (s : State) (n : Nat) : (s.consumed n).partOrder = s.partOrder := rfl
@[simp] theorem State.consumed_c (s : State) (n : Nat) : (s.consumed n).c = s.c := rfl
@[simp] theorem State.consumed_x (s : State) (n : Nat) : (s.consumed n).x = s.x := rfl
@[simp] theorem State.consumed_e (s : State) (n : Nat) : (s.consumed n).e = s.e := rfl
@[simp] theorem State.consumed_acc (s : State) (n : Nat) : (s.consumed n).acc = s.acc := rfl
@[simp] theorem State.consumed_cursor (s : State) (n : Nat) : (s.consumed n).cursor = s.cursor + n := rfl
@[simp] theorem State.consumed_residual (s : State) (n : Nat) : (s.consumed n).residual = s.residual := rfl
@[simp] theorem State.consumed_source (s : State) (n : Nat) : (s.consumed n).source = s.source := rfl
@[simp] theorem State.consumed_srcPos (s : State) (n : Nat) : (s.consumed n).srcPos = s.srcPos + n := rfl
@[simp] theorem State.consumed_inbox (s : State) (n : Nat) : (s.consumed n).inbox = s.inbox := rfl
@[simp] theorem State.consumed_responses (s : State) (n : Nat) : (s.consumed n).responses = s.responses := rfl
@[simp] theorem State.consumed_hostMem (s : State) (n : Nat) : (s.consumed n).hostMem = s.hostMem := rfl
@[simp] theorem State.consumed_freeCount (s : State) (n : Nat) : (s.consumed n).freeCount = s.freeCount := rfl

/-! ## `State.dispatch` -/

@[simp] theorem State.dispatch_truncEn (s : State) (t : Nat) : (s.dispatch t).truncEn = s.truncEn := rfl
@[simp] theorem State.dispatch_cfgBs (s : State) (t : Nat) : (s.dispatch t).cfgBs = s.cfgBs := rfl
@[simp] theorem State.dispatch_cfgBps (s : State) (t : Nat) : (s.dispatch t).cfgBps = s.cfgBps := rfl
@[simp] theorem State.dispatch_phase (s : State) (t : Nat) : (s.dispatch t).phase = s.phase := rfl
@[simp] theorem State.dispatch_err (s : State) (t : Nat) : (s.dispatch t).err = s.err := rfl
@[simp] theorem State.dispatch_cause (s : State) (t : Nat) : (s.dispatch t).cause = s.cause := rfl
@[simp] theorem State.dispatch_typeCode (s : State) (t : Nat) : (s.dispatch t).typeCode = BitVec.ofNat 6 t := rfl
@[simp] theorem State.dispatch_wasted (s : State) (t : Nat) : (s.dispatch t).wasted = s.wasted := rfl
@[simp] theorem State.dispatch_variant (s : State) (t : Nat) : (s.dispatch t).variant = variantOfType t := rfl
@[simp] theorem State.dispatch_order (s : State) (t : Nat) : (s.dispatch t).order = BitVec.ofNat 6 (orderOfType t) := rfl
@[simp] theorem State.dispatch_precision (s : State) (t : Nat) : (s.dispatch t).precision = s.precision := rfl
@[simp] theorem State.dispatch_shift (s : State) (t : Nat) : (s.dispatch t).shift = s.shift := rfl
@[simp] theorem State.dispatch_method (s : State) (t : Nat) : (s.dispatch t).method = s.method := rfl
@[simp] theorem State.dispatch_partOrder (s : State) (t : Nat) : (s.dispatch t).partOrder = s.partOrder := rfl
@[simp] theorem State.dispatch_c (s : State) (t : Nat) : (s.dispatch t).c = s.c := rfl
@[simp] theorem State.dispatch_x (s : State) (t : Nat) : (s.dispatch t).x = s.x := rfl
@[simp] theorem State.dispatch_e (s : State) (t : Nat) : (s.dispatch t).e = s.e := rfl
@[simp] theorem State.dispatch_acc (s : State) (t : Nat) : (s.dispatch t).acc = s.acc := rfl
@[simp] theorem State.dispatch_cursor (s : State) (t : Nat) : (s.dispatch t).cursor = s.cursor := rfl
@[simp] theorem State.dispatch_residual (s : State) (t : Nat) : (s.dispatch t).residual = s.residual := rfl
@[simp] theorem State.dispatch_source (s : State) (t : Nat) : (s.dispatch t).source = s.source := rfl
@[simp] theorem State.dispatch_srcPos (s : State) (t : Nat) : (s.dispatch t).srcPos = s.srcPos := rfl
@[simp] theorem State.dispatch_inbox (s : State) (t : Nat) : (s.dispatch t).inbox = s.inbox := rfl
@[simp] theorem State.dispatch_responses (s : State) (t : Nat) : (s.dispatch t).responses = s.responses := rfl
@[simp] theorem State.dispatch_hostMem (s : State) (t : Nat) : (s.dispatch t).hostMem = s.hostMem := rfl
@[simp] theorem State.dispatch_freeCount (s : State) (t : Nat) : (s.dispatch t).freeCount = s.freeCount := rfl

/-! ## `beginDecode` -/

@[simp] theorem beginDecode_truncEn (s : State) : (beginDecode s).truncEn = s.truncEn := rfl
@[simp] theorem beginDecode_cfgBs (s : State) : (beginDecode s).cfgBs = s.cfgBs := rfl
@[simp] theorem beginDecode_cfgBps (s : State) : (beginDecode s).cfgBps = s.cfgBps := rfl
@[simp] theorem beginDecode_phase (s : State) : (beginDecode s).phase = .readHeader := rfl
@[simp] theorem beginDecode_err (s : State) : (beginDecode s).err = .none := rfl
@[simp] theorem beginDecode_cause (s : State) : (beginDecode s).cause = .none := rfl
@[simp] theorem beginDecode_typeCode (s : State) : (beginDecode s).typeCode = s.typeCode := rfl
@[simp] theorem beginDecode_wasted (s : State) : (beginDecode s).wasted = s.wasted := rfl
@[simp] theorem beginDecode_variant (s : State) : (beginDecode s).variant = s.variant := rfl
@[simp] theorem beginDecode_order (s : State) : (beginDecode s).order = s.order := rfl
@[simp] theorem beginDecode_precision (s : State) : (beginDecode s).precision = s.precision := rfl
@[simp] theorem beginDecode_shift (s : State) : (beginDecode s).shift = s.shift := rfl
@[simp] theorem beginDecode_method (s : State) : (beginDecode s).method = s.method := rfl
@[simp] theorem beginDecode_partOrder (s : State) : (beginDecode s).partOrder = s.partOrder := rfl
@[simp] theorem beginDecode_c (s : State) : (beginDecode s).c = [] := rfl
@[simp] theorem beginDecode_x (s : State) : (beginDecode s).x = [] := rfl
@[simp] theorem beginDecode_e (s : State) : (beginDecode s).e = [] := rfl
@[simp] theorem beginDecode_acc (s : State) : (beginDecode s).acc = s.acc := rfl
@[simp] theorem beginDecode_cursor (s : State) : (beginDecode s).cursor = 0 := rfl
@[simp] theorem beginDecode_residual (s : State) : (beginDecode s).residual = none := rfl
@[simp] theorem beginDecode_source (s : State) : (beginDecode s).source = s.source := rfl
@[simp] theorem beginDecode_srcPos (s : State) : (beginDecode s).srcPos = s.srcPos := rfl
@[simp] theorem beginDecode_inbox (s : State) : (beginDecode s).inbox = s.inbox := rfl
@[simp] theorem beginDecode_responses (s : State) : (beginDecode s).responses = s.responses := rfl
@[simp] theorem beginDecode_hostMem (s : State) : (beginDecode s).hostMem = s.hostMem := rfl
@[simp] theorem beginDecode_freeCount (s : State) : (beginDecode s).freeCount = s.freeCount := rfl

/-! ## `raise` -/

@[simp] theorem raise_truncEn (s : State) (er : Err) (ca : Cause) : (raise er ca s).truncEn = s.truncEn := rfl
@[simp] theorem raise_cfgBs (s : State) (er : Err) (ca : Cause) : (raise er ca s).cfgBs = s.cfgBs := rfl
@[simp] theorem raise_cfgBps (s : State) (er : Err) (ca : Cause) : (raise er ca s).cfgBps = s.cfgBps := rfl
@[simp] theorem raise_phase (s : State) (er : Err) (ca : Cause) : (raise er ca s).phase = .failed := rfl
@[simp] theorem raise_err (s : State) (er : Err) (ca : Cause) : (raise er ca s).err = er := rfl
@[simp] theorem raise_cause (s : State) (er : Err) (ca : Cause) : (raise er ca s).cause = ca := rfl
@[simp] theorem raise_typeCode (s : State) (er : Err) (ca : Cause) : (raise er ca s).typeCode = s.typeCode := rfl
@[simp] theorem raise_wasted (s : State) (er : Err) (ca : Cause) : (raise er ca s).wasted = s.wasted := rfl
@[simp] theorem raise_variant (s : State) (er : Err) (ca : Cause) : (raise er ca s).variant = s.variant := rfl
@[simp] theorem raise_order (s : State) (er : Err) (ca : Cause) : (raise er ca s).order = s.order := rfl
@[simp] theorem raise_precision (s : State) (er : Err) (ca : Cause) : (raise er ca s).precision = s.precision := rfl
@[simp] theorem raise_shift (s : State) (er : Err) (ca : Cause) : (raise er ca s).shift = s.shift := rfl
@[simp] theorem raise_method (s : State) (er : Err) (ca : Cause) : (raise er ca s).method = s.method := rfl
@[simp] theorem raise_partOrder (s : State) (er : Err) (ca : Cause) : (raise er ca s).partOrder = s.partOrder := rfl
@[simp] theorem raise_c (s : State) (er : Err) (ca : Cause) : (raise er ca s).c = s.c := rfl
@[simp] theorem raise_x (s : State) (er : Err) (ca : Cause) : (raise er ca s).x = s.x := rfl
@[simp] theorem raise_e (s : State) (er : Err) (ca : Cause) : (raise er ca s).e = s.e := rfl
@[simp] theorem raise_acc (s : State) (er : Err) (ca : Cause) : (raise er ca s).acc = s.acc := rfl
@[simp] theorem raise_cursor (s : State) (er : Err) (ca : Cause) : (raise er ca s).cursor = s.unspecified (s.source.length - (s.srcPos - s.cursor)) := rfl
@[simp] theorem raise_residual (s : State) (er : Err) (ca : Cause) : (raise er ca s).residual = none := rfl
@[simp] theorem raise_source (s : State) (er : Err) (ca : Cause) : (raise er ca s).source = s.source := rfl
@[simp] theorem raise_srcPos (s : State) (er : Err) (ca : Cause) : (raise er ca s).srcPos = s.srcPos - s.cursor + s.unspecified (s.source.length - (s.srcPos - s.cursor)) := rfl
@[simp] theorem raise_inbox (s : State) (er : Err) (ca : Cause) : (raise er ca s).inbox = s.inbox := rfl
@[simp] theorem raise_responses (s : State) (er : Err) (ca : Cause) : (raise er ca s).responses = s.responses ++ [.failed er.code ca.code] := rfl
@[simp] theorem raise_hostMem (s : State) (er : Err) (ca : Cause) : (raise er ca s).hostMem = s.hostMem := rfl
@[simp] theorem raise_freeCount (s : State) (er : Err) (ca : Cause) : (raise er ca s).freeCount = s.freeCount + 1 := rfl

/-! ## The buffers -/

@[simp] theorem State.buffer_setBuffer (s : State) (b : Buffer) (m : Memory) : (s.setBuffer b m).buffer b = m := by
  cases b <;> rfl
@[simp] theorem State.setBuffer_samples (s : State) (m : Memory) : s.setBuffer .samples m = { s with x := m } := rfl
@[simp] theorem State.setBuffer_residuals (s : State) (m : Memory) : s.setBuffer .residuals m = { s with e := m } := rfl
@[simp] theorem State.setBuffer_coefficients (s : State) (m : Memory) : s.setBuffer .coefficients m = { s with c := m } := rfl
@[simp] theorem State.buffer_samples (s : State) : s.buffer .samples = s.x := rfl
@[simp] theorem State.buffer_residuals (s : State) : s.buffer .residuals = s.e := rfl
@[simp] theorem State.buffer_coefficients (s : State) : s.buffer .coefficients = s.c := rfl

end Sys2Proof.Machine
end

