-- ==== Sys2Proof/Laws/Ops.lean ====
section
/-! SUPPORT. The shared operations: what each one can do, said once. -/

namespace Sys2Proof.Machine

theorem configLegal_iff (bs bps : Nat) :
    configLegal bs bps = true ↔ (1 ≤ bs ∧ bs ≤ 65535) ∧ 1 ≤ bps ∧ bps ≤ 32 := by
  show (decide (1 ≤ bs) && decide (bs ≤ 65535) && decide (1 ≤ bps) && decide (bps ≤ 32)) = true ↔ _
  simp [and_assoc]

@[simp] theorem andThen_next (s : State) (k : State → Result) : andThen (.next s) k = k s := rfl
@[simp] theorem andThen_fault (f : Fault) (k : State → Result) : andThen (.fault f) k = .fault f := rfl
@[simp] theorem andThen_refused (q : Refusal) (k : State → Result) : andThen (.refused q) k = .refused q := rfl

/-- A sequence answers a next state exactly through a next state of its first part. -/
theorem andThen_eq_next {r : Result} {k : State → Result} {t : State} :
    andThen r k = .next t ↔ ∃ u, r = .next u ∧ k u = .next t := by
  cases r <;> simp [andThen]

/-- A write answers a next state exactly inside the buffer. -/
theorem writeWords_eq_next {b : Buffer} {base : Nat} {vs : List Word} {s t : State} :
    writeWords b base vs s = .next t ↔
      base + vs.length ≤ b.capacity ∧ t = s.setBuffer b (Memory.writeRun (s.buffer b) base vs) := by
  unfold writeWords
  split <;> simp_all [eq_comm]

theorem writeWords_inside {b : Buffer} {base : Nat} {vs : List Word} (s : State) (h : base + vs.length ≤ b.capacity) :
    writeWords b base vs s = .next (s.setBuffer b (Memory.writeRun (s.buffer b) base vs)) :=
  writeWords_eq_next.mpr ⟨h, rfl⟩

theorem withWord_some {b : Buffer} {i : Nat} {s : State} {v : Word} (k : Word → Result)
    (h : Memory.read (s.buffer b) i = some v) : withWord b i s k = k v := by
  simp [withWord, h]

theorem withHistory_some {i n : Nat} {s : State} {vs : List Word} (k : List Word → Result)
    (h : Memory.readDown s.x i n = some vs) : withHistory i n s k = k vs := by
  simp [withHistory, h]

/-- A loop whose body answers a next state and carries `P` from each index to the next does so as a whole. -/
theorem forEach_carries {body : Nat → State → Result} (P : Nat → State → Prop) (n i : Nat) (s : State) (h0 : P i s)
    (h : ∀ j u, i ≤ j → j < i + n → P j u → ∃ v, body j u = .next v ∧ P (j + 1) v) :
    ∃ t, forEach body n i s = .next t ∧ P (i + n) t := by
  induction n generalizing i s with
  | zero => exact ⟨s, rfl, h0⟩
  | succ n ih =>
    obtain ⟨v, hv, hP⟩ := h i s (le_refl i) (by omega) h0
    obtain ⟨t, ht, hPt⟩ := ih (i + 1) v hP fun j u h1 h2 => h j u (by omega) (by omega)
    exact ⟨t, by simp [forEach, hv, ht], by rwa [show i + (n + 1) = i + 1 + n by omega]⟩

/-- What every pass of a loop keeps, the loop keeps. -/
theorem forEach_keeps {body : Nat → State → Result} (R : State → State → Prop) (hrefl : ∀ s, R s s)
    (htrans : ∀ a b c, R a b → R b c → R a c) (h : ∀ j u v, body j u = .next v → R u v)
    {n i : Nat} {s t : State} (ht : forEach body n i s = .next t) : R s t := by
  induction n generalizing i s with
  | zero => cases ht; exact hrefl _
  | succ n ih =>
    obtain ⟨u, hu, ht⟩ := andThen_eq_next.mp ht
    exact htrans _ _ _ (h _ _ _ hu) (ih ht)

/-- Moving the read position to a tail of the unread bits consumes the bits before it. -/
theorem State.advanceTo_eq_consumed (s : State) (rest : List Bool) :
    s.advanceTo rest = s.consumed (s.unread.length - rest.length) := rfl

theorem State.advanceTo_append {s : State} {bits rest : List Bool} (h : s.unread = bits ++ rest) :
    s.advanceTo rest = s.consumed bits.length := by
  rw [State.advanceTo_eq_consumed, h]
  simp

theorem State.unread_consumed {s : State} {bits rest : List Bool} (h : s.unread = bits ++ rest) :
    (s.consumed bits.length).unread = rest := by
  have : (s.consumed bits.length).unread = s.unread.drop bits.length := by
    simp [State.unread, State.consumed, List.drop_drop]
  rw [this, h]
  simp

/-- The position never passes the end of the stream. -/
theorem State.consumed_position {s : State} {bits rest : List Bool} (h : s.unread = bits ++ rest)
    (hs : s.srcPos ≤ s.source.length) : s.srcPos + bits.length ≤ s.source.length := by
  have := congrArg List.length h
  simp [State.unread] at this
  omega

theorem withField_append {cls : ReadClass} {n v : Nat} {s : State} {rest : List Bool} (k : Nat → State → Result)
    (hv : v < 2 ^ n) (h : s.unread = natToBits n v ++ rest) : withField cls n s k = k v (s.consumed n) := by
  have := State.advanceTo_append h
  rw [natToBits_length] at this
  simp [withField, h, takeBits_of_lt hv, this]

theorem withField_short {cls : ReadClass} {n : Nat} {s : State} (k : Nat → State → Result) (h : s.unread.length < n) :
    withField cls n s k = .next (readFail cls s) := by
  simp [withField, takeBits_none.mpr h]

/-- The three ways a run of reads into a buffer goes. -/
theorem readInto_cases {cls : ReadClass} {b : Buffer} {base n : Nat} {code : List Bool → CodeRead} {s : State}
    {k : State → Result} (hcap : base + n ≤ b.capacity) :
    let vs := (readRun code n s.unread).1
    let u := s.setBuffer b (Memory.writeRun (s.buffer b) base vs)
    (∃ rest, (readRun code n s.unread).2 = .complete rest ∧ readInto cls b base n code s k = k (u.advanceTo rest)) ∨
    ((readRun code n s.unread).2 = .short ∧ readInto cls b base n code s k = .next (readFail cls u)) ∨
    ((readRun code n s.unread).2 = .overflow ∧ readInto cls b base n code s k = .next (raiseStream .riceOverflow u)) := by
  have hlen := readRun_length code n s.unread
  unfold readInto
  rcases hr : readRun code n s.unread with ⟨vs, fin⟩
  rw [hr] at hlen
  simp only at hlen
  simp only [writeWords_inside s (show base + vs.length ≤ b.capacity by omega), andThen_next]
  cases fin <;> simp

theorem readFail_eq (cls : ReadClass) (s : State) : readFail cls s = raise (cls.err s.truncEn) cls.cause s := rfl

theorem raiseStream_eq (ca : Cause) (s : State) : raiseStream ca s = raise .invalidStream ca s := rfl

theorem State.unspecified_le (s : State) (bound : Nat) : s.unspecified bound ≤ bound := by
  have := Nat.mod_lt (Config.freePosition s.freeCount) (show 0 < bound + 1 by omega)
  unfold State.unspecified
  omega

end Sys2Proof.Machine
end

