-- ==== Sys2Proof/Laws/Fetch.lean ====
section
/-! SUPPORT. The decoder and the fetch: what each can do, said once. -/

namespace Sys2Proof.Machine

/-- The decoder leaves a tail of the bits it was given. -/
theorem decode_leavesTail {f : Format} {bits rest : List Bool} {args : CommandArgs} {i : Instr}
    (h : decode f bits args = .item i rest) : rest <:+ bits := by
  cases f <;> simp only [decode] at h
  · unfold decodeHeader at h
    split at h
    · cases h
    · cases h; exact ⟨[true], rfl⟩
    · split at h
      · cases h
      · rename_i bs _ t r ht
        have hb := (takeBits_some ht).2
        split at h
        · cases h; exact ⟨false :: natToBits 6 t, by simp [hb]⟩
        · split at h
          · cases h
          · rename_i wf _
            cases h
            exact ⟨false :: (natToBits 6 t ++ [wf]), by simp [hb]⟩
  · unfold decodeResidualHeader at h
    split at h
    · rename_i x r
      cases h; exact ⟨[true, x], rfl⟩
    · rename_i m bs
      split at h
      · cases h
      · rename_i p r ht
        cases h
        exact ⟨[false, m] ++ natToBits 4 p, by simp [(takeBits_some ht).2]⟩
    · cases h
  all_goals
    simp only [decodePartition4, decodePartition5, decodeCommand] at h
    split at h
    · cases h
    · rename_i ht
      cases h
      exact ⟨_, (takeBits_some ht).2.symm⟩

/-- The header decoder reads a set reserved bit, or the row of a type code (R50, R51). -/
theorem decodeHeader_item {bits rest : List Bool} {i : Instr} (h : decodeHeader bits = .item i rest) :
    i = .reservedRsv ∨ ∃ t wf, t < 64 ∧ i = instrOfType t wf := by
  unfold decodeHeader at h
  split at h
  · cases h
  · cases h; exact .inl rfl
  · split at h
    · cases h
    · rename_i t r ht
      have hlt := (takeBits_some ht).1
      split at h
      · cases h; exact .inr ⟨t, false, hlt, rfl⟩
      · split at h
        · cases h
        · rename_i wf _
          cases h
          exact .inr ⟨t, wf, hlt, rfl⟩

/-- A command's code decodes to its command. -/
theorem decode_code (c : BitVec 3) (args : CommandArgs) :
    decode .cmd (natToBits 3 c.toNat) args = .item (commandOfCode c.toNat args) [] := by
  have := takeBits_of_lt c.isLt []
  simp only [List.append_nil] at this
  simp [decode, decodeCommand, this]

/-- The seven commands of the eight codes (R106). -/
theorem commandOfCode_cases (code : Nat) (a : CommandArgs) :
    commandOfCode code a = .cmdReset ∨ commandOfCode code a = .cmdStart a.bs a.bps a.truncEn ∨
    commandOfCode code a = .cmdRead a.dest a.len ∨ commandOfCode code a = .cmdQueryType ∨
    commandOfCode code a = .cmdQueryWasted ∨ commandOfCode code a = .cmdQueryStatus ∨
    ∃ x, commandOfCode code a = .cmdReserved x := by
  unfold commandOfCode
  repeat' split
  all_goals simp

theorem takeEvent_command (c : Command) (s : State) : takeEvent (.command c) s = .run (commandOfCode c.code.toNat c.args) s := by
  simp [takeEvent, decode_code]

/-- Without a host event at this step, the engine moves (R106). -/
theorem fetch_of_engineMoves {s s' : State} (h : EngineMoves s s') : fetch s = engineFetch s' := by
  rcases h with ⟨h, rfl⟩ | ⟨hb, w, e, rest, h, rfl⟩
  · simp [fetch, h]
  · simp [fetch, h, hb]

/-- The engine's move is the same state but for the pending events. -/
theorem EngineMoves.same {s s' : State} (h : EngineMoves s s') : s' = { s with inbox := s'.inbox } := by
  rcases h with ⟨_, rfl⟩ | ⟨_, w, e, rest, _, rfl⟩ <;> rfl

/-- Between decodes the engine does nothing (R126). -/
theorem engineFetch_idle {s : State} (h : s.phase.busy = false) : engineFetch s = .without s := by
  unfold engineFetch
  cases hp : s.phase <;> simp_all [Phase.busy]

theorem fetchItem_item {f : Format} {short s : State} {i : Instr} {rest : List Bool}
    (h : decode f s.unread = .item i rest) : fetchItem f short s = .run i (s.advanceTo rest) := by
  simp [fetchItem, h]

theorem fetchItem_rejected {f : Format} {short s : State} {why : DecodeError}
    (h : decode f s.unread = .rejected why) : fetchItem f short s = .without (readFail .field short) := by
  simp [fetchItem, h]

theorem step_run {s t : State} {i : Instr} (h : fetch s = .run i t) : step s = exec i t := by
  simp [step, h]

theorem step_without {s t : State} (h : fetch s = .without t) : step s = .next t := by
  simp [step, h]

theorem step_stop {s : State} {f : Fault} (h : fetch s = .stop f) : step s = .fault f := by
  simp [step, h]

end Sys2Proof.Machine
end

