-- ==== Sys2Proof/Laws/PerInstr.lean ====
section
/-! SUPPORT. Facts about each instruction as syntax, one lemma per constructor. -/

namespace Sys2Proof.Laws

/-- `ItemLength`: how many bits an item has on the wire up to the field that decides it: the header word 8, a reserved header 1 or
7, a residual header 6, a reserved method 2, a partition parameter 4 or 5, a command code 3 (R50, R56, R58, R106, R118). -/
def ItemLength.Statement (i : Instr) : Prop :=
  (encode i).bits.length =
    match (encode i).format with
    | .hdr => if i = .reservedRsv then 1 else if typeReserved (((takeBits 6 (encode i).bits.tail).map Prod.fst).getD 0) then 7 else 8
    | .res => if (encode i).bits.head? = some true then 2 else 6
    | .part4 => 4
    | .part5 => 5
    | .cmd => 3

theorem ItemLength.constant (wf : Bool) : ItemLength.Statement (.constant wf) := by revert wf; unfold ItemLength.Statement; decide
theorem ItemLength.verbatim (wf : Bool) : ItemLength.Statement (.verbatim wf) := by revert wf; unfold ItemLength.Statement; decide
theorem ItemLength.fixed0 (wf : Bool) : ItemLength.Statement (.fixed0 wf) := by revert wf; unfold ItemLength.Statement; decide
theorem ItemLength.fixed1 (wf : Bool) : ItemLength.Statement (.fixed1 wf) := by revert wf; unfold ItemLength.Statement; decide
theorem ItemLength.fixed2 (wf : Bool) : ItemLength.Statement (.fixed2 wf) := by revert wf; unfold ItemLength.Statement; decide
theorem ItemLength.fixed3 (wf : Bool) : ItemLength.Statement (.fixed3 wf) := by revert wf; unfold ItemLength.Statement; decide
theorem ItemLength.fixed4 (wf : Bool) : ItemLength.Statement (.fixed4 wf) := by revert wf; unfold ItemLength.Statement; decide
theorem ItemLength.lpc (o : BitVec 5) (wf : Bool) : ItemLength.Statement (.lpc o wf) := by
  revert o wf; unfold ItemLength.Statement; decide
theorem ItemLength.reservedRsv : ItemLength.Statement .reservedRsv := by unfold ItemLength.Statement; decide
theorem ItemLength.reservedType2_3 (o : BitVec 1) : ItemLength.Statement (.reservedType2_3 o) := by
  revert o; unfold ItemLength.Statement; decide
theorem ItemLength.reservedType4_7 (o : BitVec 2) : ItemLength.Statement (.reservedType4_7 o) := by
  revert o; unfold ItemLength.Statement; decide
theorem ItemLength.reservedType13 : ItemLength.Statement .reservedType13 := by unfold ItemLength.Statement; decide
theorem ItemLength.reservedType14_15 (o : BitVec 1) : ItemLength.Statement (.reservedType14_15 o) := by
  revert o; unfold ItemLength.Statement; decide
theorem ItemLength.reservedType16_31 (o : BitVec 4) : ItemLength.Statement (.reservedType16_31 o) := by
  revert o; unfold ItemLength.Statement; decide
theorem ItemLength.resRice (p : BitVec 4) : ItemLength.Statement (.resRice p) := by
  revert p; unfold ItemLength.Statement; decide
theorem ItemLength.resRice2 (p : BitVec 4) : ItemLength.Statement (.resRice2 p) := by
  revert p; unfold ItemLength.Statement; decide
theorem ItemLength.resReserved (x : Bool) : ItemLength.Statement (.resReserved x) := by
  revert x; unfold ItemLength.Statement; decide
theorem ItemLength.partRice4 (k : BitVec 4) : ItemLength.Statement (.partRice4 k) := by
  revert k; unfold ItemLength.Statement; decide
theorem ItemLength.partEsc4 : ItemLength.Statement .partEsc4 := by unfold ItemLength.Statement; decide
theorem ItemLength.partRice5 (k : BitVec 5) : ItemLength.Statement (.partRice5 k) := by
  revert k; unfold ItemLength.Statement; decide
theorem ItemLength.partEsc5 : ItemLength.Statement .partEsc5 := by unfold ItemLength.Statement; decide
theorem ItemLength.cmdReset : ItemLength.Statement .cmdReset := rfl
theorem ItemLength.cmdStart (bs bps : Nat) (truncEn : Bool) : ItemLength.Statement (.cmdStart bs bps truncEn) := rfl
theorem ItemLength.cmdRead (dest len : Nat) : ItemLength.Statement (.cmdRead dest len) := rfl
theorem ItemLength.cmdQueryType : ItemLength.Statement .cmdQueryType := rfl
theorem ItemLength.cmdQueryWasted : ItemLength.Statement .cmdQueryWasted := rfl
theorem ItemLength.cmdQueryStatus : ItemLength.Statement .cmdQueryStatus := rfl
theorem ItemLength.cmdReserved (x : Bool) : ItemLength.Statement (.cmdReserved x) := by
  revert x; unfold ItemLength.Statement; decide

end Sys2Proof.Laws
end

