-- ==== Sys2Proof/Laws/Phases.lean ====
section
/-! SUPPORT. The shared operations of the meanings: what each can do, said once, for proofs to cite instead of unfolding. -/

namespace Sys2Proof.Machine

/-! ## Type codes -/

/-- The legal type codes (R51). -/
theorem typeReserved_false {t : Nat} (ht : t < 64) (h : typeReserved t = false) :
    t = 0 ∨ t = 1 ∨ (8 ≤ t ∧ t ≤ 12) ∨ (32 ≤ t ∧ t ≤ 63) := by
  simp [typeReserved] at h
  omega

/-- The reserved type codes, row by row of the table (R51). -/
theorem typeReserved_true {t : Nat} (h : typeReserved t = true) :
    (2 ≤ t ∧ t < 4) ∨ (4 ≤ t ∧ t < 8) ∨ t = 13 ∨ (14 ≤ t ∧ t < 16) ∨ (16 ≤ t ∧ t < 32) := by
  simp [typeReserved] at h
  omega

theorem orderOfType_lt {t : Nat} : orderOfType t < 64 := by
  unfold orderOfType
  split
  · omega
  · split <;> omega

theorem orderOfType_fixed {t : Nat} (h : 8 ≤ t ∧ t ≤ 12) : orderOfType t = t - 8 := by
  unfold orderOfType
  rw [if_neg (by omega), if_pos (by omega)]
  omega

theorem orderOfType_lpc {t : Nat} (h : 32 ≤ t ∧ t ≤ 63) : orderOfType t = t - 31 := by
  unfold orderOfType
  rw [if_neg (by omega), if_neg (by omega)]
  omega

theorem variantOfType_fixed {t : Nat} (h : 8 ≤ t ∧ t ≤ 12) : variantOfType t = .fixed := by
  unfold variantOfType
  rw [if_neg (by omega), if_neg (by omega), if_pos (by omega)]

theorem variantOfType_lpc {t : Nat} (h : 32 ≤ t) : variantOfType t = .lpc := by
  unfold variantOfType
  rw [if_neg (by omega), if_neg (by omega), if_neg (by omega)]

theorem instrOfType_fixed {t : Nat} (h : 8 ≤ t ∧ t ≤ 12) (wf : Bool) : instrOfType t wf = fixedInstr (t - 8) wf := by
  obtain ⟨h1, h2⟩ := h
  interval_cases t <;> rfl

theorem instrOfType_lpc {t : Nat} (h : 32 ≤ t) (wf : Bool) : instrOfType t wf = .lpc (BitVec.ofNat 5 t) wf := by
  unfold instrOfType
  iterate 12 rw [if_neg (by omega)]

/-- The five fixed predictors are one meaning with a type code and a list of as many coefficients as the order (R81 to R85). -/
theorem exec_fixedInstr {n : Nat} (hn : n ≤ 4) (wf : Bool) :
    ∃ cs, cs.length = n ∧ (∀ s, exec (fixedInstr n wf) s = fixedPhases (8 + n) cs wf s) ∧
      ∀ (x : Nat → Int) (i : Nat), n ≤ i → dot cs ((List.range n).map fun k => x (i - 1 - k)) = fixedPrediction n x i := by
  interval_cases n
  · exact ⟨[], rfl, fun _ => rfl, fun _ _ _ => rfl⟩
  · exact ⟨[1], rfl, fun _ => rfl, fun x i _ => by simp [dot, fixedPrediction]⟩
  · refine ⟨[2, -1], rfl, fun _ => rfl, fun x i _ => ?_⟩
    have h2 : i - 1 - 1 = i - 2 := by omega
    simp [List.range_succ, dot, fixedPrediction, h2]
    ring
  · refine ⟨[3, -3, 1], rfl, fun _ => rfl, fun x i _ => ?_⟩
    have h2 : i - 1 - 1 = i - 2 := by omega
    have h3 : i - 1 - 2 = i - 3 := by omega
    simp [List.range_succ, dot, fixedPrediction, h2, h3]
    ring
  · refine ⟨[4, -6, 4, -1], rfl, fun _ => rfl, fun x i _ => ?_⟩
    have h2 : i - 1 - 1 = i - 2 := by omega
    have h3 : i - 1 - 2 = i - 3 := by omega
    have h4 : i - 1 - 3 = i - 4 := by omega
    simp [List.range_succ, dot, fixedPrediction, h2, h3, h4]
    ring

/-! ## The header -/

theorem readWasted_absent (s : State) (k : State → Result) : readWasted false s k = k { s with wasted := 0 } := rfl

theorem readWasted_short {s : State} (k : State → Result) (h : readUnary s.unread = none) :
    readWasted true s k = .next (readFail .field s) := by
  simp [readWasted, h]

theorem readWasted_code {s : State} {n : Nat} {rest : List Bool} (k : State → Result)
    (h : s.unread = List.replicate n false ++ true :: rest) :
    readWasted true s k =
      if s.cfgBps.toNat ≤ n + 1 then
        .next (raiseStream .wastedTooLarge { s.consumed (n + 1) with wasted := latch 5 (n + 1) })
      else k { s.consumed (n + 1) with wasted := latch 5 (n + 1) } := by
  have hadv : s.advanceTo rest = s.consumed (n + 1) := by
    rw [State.advanceTo_append (bits := List.replicate n false ++ [true]) (by simp [h])]
    simp
  simp only [readWasted, h, readUnary_code, hadv]

theorem latch_of_lt {w v : Nat} (h : v < 2 ^ w) : latch w v = BitVec.ofNat w v := if_pos h

/-! ## The residual section -/

theorem atResidualHeader_here {s : State} (h1 : s.phase = .decodeResidual) (h2 : s.residual = none) (r : Result) :
    atResidualHeader s r = r := by
  simp [atResidualHeader, h1, h2]

theorem atPartition_here {s : State} {m : BitVec 1} {at_ : ResidualProgress} (h1 : s.phase = .decodeResidual)
    (h2 : s.residual = some at_) (h3 : s.method = m) (k : ResidualProgress → Result) : atPartition m s k = k at_ := by
  simp [atPartition, h1, h2, h3]

/-- A run of reads into a buffer whose codes are all there. -/
theorem readInto_complete {cls : ReadClass} {b : Buffer} {base n : Nat} {code : List Bool → CodeRead} {s : State}
    {k : State → Result} {vs : List Word} {bits rest : List Bool} (hcap : base + n ≤ b.capacity)
    (hs : s.unread = bits ++ rest) (h : readRun code n s.unread = (vs, .complete rest)) :
    readInto cls b base n code s k = k ((s.setBuffer b (Memory.writeRun (s.buffer b) base vs)).consumed bits.length) := by
  have hlen := readRun_length code n s.unread
  rw [h] at hlen
  simp only at hlen
  unfold readInto
  simp only [h, writeWords_inside s (show base + vs.length ≤ b.capacity by omega), andThen_next]
  rw [State.advanceTo_append (bits := bits)]
  cases b <;> exact hs

/-! ## Restoration -/

/-- One sample of a fixed predictor (R79). -/
theorem fixedSample_next {coeffs : List Int} {i : Nat} {s : State} {e : Word} {past : List Word} (hi : i < 65535)
    (he : Memory.read s.e (i - s.order.toNat) = some e) (hp : Memory.readDown s.x i coeffs.length = some past) :
    fixedSample coeffs i s =
      .next { s with x := Memory.write s.x i (wrap32 (e.toInt + dot coeffs (past.map BitVec.toInt))) } := by
  unfold fixedSample
  rw [withWord_some (b := .residuals) _ he, withHistory_some _ hp, writeWords_inside _ (show i + 1 ≤ 65535 by omega)]
  rfl

/-- One sample of the LPC unit (R90, R91). -/
theorem lpcSample_next {coeffs : List Int} {i : Nat} {s : State} {e : Word} {past : List Word} (hi : i < 65535)
    (he : Memory.read s.e (i - s.order.toNat) = some e) (hp : Memory.readDown s.x i coeffs.length = some past) :
    lpcSample coeffs i s =
      .next { s with
        x := Memory.write s.x i (wrap32 (e.toInt +
          ((wrap64 (dot coeffs (past.map BitVec.toInt))).sshiftRight s.shift.toNat).toInt))
        acc := wrap64 (dot coeffs (past.map BitVec.toInt)) } := by
  unfold lpcSample
  rw [withWord_some (b := .residuals) _ he, withHistory_some _ hp]
  dsimp only
  rw [writeWords_inside _ (show i + 1 ≤ 65535 by omega)]
  rfl

/-- The last operation of every decode: each of the `BS` samples is shifted, the decode is DONE, nothing else changes (R76). -/
theorem complete_next {s : State} {f : Nat → Word} (h : Memory.Holds s.x s.blockSize f) :
    ∃ t, complete s = .next t ∧
      t = { s with x := t.x, phase := .done, responses := s.responses ++ [.done] } ∧
      (Memory.wf s.x = true → Memory.wf t.x = true) ∧
      ∀ i, Memory.read t.x i =
        if i < s.blockSize then some (wrap32 ((f i).toInt * 2 ^ s.wasted.toNat)) else Memory.read s.x i := by
  have hbs : s.blockSize < 2 ^ 16 := s.cfgBs.isLt
  obtain ⟨t, ht, h1, h2, h3⟩ := forEach_carries (body := shiftSample)
    (fun i u => u = { s with x := u.x } ∧ (Memory.wf s.x = true → Memory.wf u.x = true) ∧
      ∀ j, Memory.read u.x j =
        if j < i then some (wrap32 ((f j).toInt * 2 ^ s.wasted.toNat)) else Memory.read s.x j)
    s.blockSize 0 s ⟨rfl, id, fun j => by simp⟩ (by
      rintro j u - hj ⟨h1, h2, h3⟩
      have hj : j < s.blockSize := by omega
      have hr : Memory.read (u.buffer .samples) j = some (f j) := by
        rw [State.buffer_samples, h3 j, if_neg (by omega), h j hj]
      have hw : u.wasted = s.wasted := by rw [h1]
      rw [← hw] at h3 ⊢
      refine ⟨{ u with x := Memory.write u.x j (wrap32 ((f j).toInt * 2 ^ u.wasted.toNat)) }, ?_, ?_, ?_, ?_⟩
      · unfold shiftSample
        rw [withWord_some (b := .samples) _ hr, writeWords_inside _ (show j + 1 ≤ 65535 by omega)]
        rfl
      · rw [h1]
      · exact fun hs => Memory.wf_write _ _ _ (h2 hs)
      · intro k
        show Memory.read (Memory.write u.x j _) k = _
        rw [Memory.read_write, h3 k]
        by_cases hk : j = k
        · subst hk; simp
        · rw [if_neg hk]
          by_cases hlt : k < j
          · rw [if_pos hlt, if_pos (by omega)]
          · rw [if_neg hlt, if_neg (by omega)])
  refine ⟨t.finish, by simp [complete, ht], ?_, h2, fun i => ?_⟩
  · rw [h1]; rfl
  · simpa using h3 i

/-! ## Entering FAILED -/

/-- Entering FAILED from a state that agrees with `s` on what a failing item leaves alone. -/
theorem failsWith_raise {s u : State} (err : Err) (cause : Cause) (h1 : u.responses = s.responses)
    (h2 : u.truncEn = s.truncEn) (h3 : u.cfgBs = s.cfgBs) (h4 : u.cfgBps = s.cfgBps) (h5 : u.acc = s.acc)
    (h6 : u.source = s.source) (h7 : u.inbox = s.inbox) (h8 : u.hostMem = s.hostMem) :
    FailsWith (.next (raise err cause u)) s err cause :=
  ⟨_, rfl, rfl, rfl, rfl, by simp [h1], by simp [h2], by simp [h3], by simp [h4], by simp [h5], by simp [h6], by simp [h7],
    by simp [h8]⟩

/-- The same for a failing field read (R116). -/
theorem failsWith_readFail {s u : State} (h1 : u.responses = s.responses) (h2 : u.truncEn = s.truncEn)
    (h3 : u.cfgBs = s.cfgBs) (h4 : u.cfgBps = s.cfgBps) (h5 : u.acc = s.acc) (h6 : u.source = s.source)
    (h7 : u.inbox = s.inbox) (h8 : u.hostMem = s.hostMem) :
    FailsWith (.next (readFail .field u)) s (if s.truncEn then .truncated else .invalidStream) .readFailField := by
  have := failsWith_raise (s := s) (u := u) (ReadClass.err .field u.truncEn) .readFailField h1 h2 h3 h4 h5 h6 h7 h8
  rw [h2] at this
  have hr : readFail .field u = raise (ReadClass.err .field s.truncEn) .readFailField u := by
    rw [readFail_eq, h2]; rfl
  rw [hr]
  exact this

end Sys2Proof.Machine
end

