-- ==== Sys2Proof/Tests/Slice0.lean ====
section
/-! SUPPORT. Tests of the model against the spec's own encodings, examples and vectors (95_test_vectors.md), and for every
obligation with hypotheses a state and operands that meet them. -/

namespace Sys2Proof.Tests

open Sys2Proof.Machine

/-- A bit string of the spec, first bit on the left. -/
def bits (l : List Nat) : List Bool := l.map (· == 1)

/-- A machine in a phase of a decode, the bits ahead of it. -/
def mid (phase : Phase) (bs bps : Nat) (ahead : List Nat) : State :=
  { State.reset with
    phase := phase
    cfgBs := BitVec.ofNat 16 bs
    cfgBps := BitVec.ofNat 6 bps
    source := bits ahead }

/-- A buffer of the given values, from index 0. -/
def buf (vs : List Int) : Memory := Memory.writeRun [] 0 (vs.map (BitVec.ofInt 32))

/-- A machine in RESTORE. -/
def restoring (typeCode bs : Nat) (order : BitVec 6) (x e : List Int) : State :=
  { mid .restore bs 16 [] with typeCode := BitVec.ofNat 6 typeCode, order := order, x := buf x, e := buf e }

/-- A machine in DECODE_RESIDUAL. -/
def unpacking (bs : Nat) (order : BitVec 6) (method : BitVec 1) (partOrder : BitVec 4) (at_ : Option ResidualProgress)
    (ahead : List Nat) : State :=
  { mid .decodeResidual bs 8 ahead with order := order, method := method, partOrder := partOrder, residual := at_ }

/-- A machine with one command issued. -/
def issued (s : State) (code : BitVec 3) (args : CommandArgs := { }) : State :=
  { s with inbox := [⟨0, .command ⟨code, args⟩⟩] }

/-- The words of a buffer, as integers. -/
def words (m : Memory) : List Int := m.map fun p => p.2.toInt

/-- What the next state shows, where there is one. -/
def sees {α : Type} (f : State → α) (r : Result) : Option α :=
  match r with
  | .next t => some (f t)
  | _ => none

/-! ## Well-formedness refuses the escape codes as Rice parameters -/

theorem test_wf_refuses_partRice4_escape : Instr.wellFormed (.partRice4 15) = false := by decide
theorem test_wf_refuses_partRice5_escape : Instr.wellFormed (.partRice5 31) = false := by decide

/-! ## Decoding, by words written out from R50, R51, R56, R58 and R106 -/

theorem test_decode_constant : decode .hdr (bits [0, 0, 0, 0, 0, 0, 0, 1]) = .item (.constant true) [] := by decide
theorem test_decode_verbatim : decode .hdr (bits [0, 0, 0, 0, 0, 0, 1, 0]) = .item (.verbatim false) [] := by decide
theorem test_decode_fixed0 : decode .hdr (bits [0, 0, 0, 1, 0, 0, 0, 0]) = .item (.fixed0 false) [] := by decide
theorem test_decode_fixed1 : decode .hdr (bits [0, 0, 0, 1, 0, 0, 1, 0]) = .item (.fixed1 false) [] := by decide
theorem test_decode_fixed2 : decode .hdr (bits [0, 0, 0, 1, 0, 1, 0, 1]) = .item (.fixed2 true) [] := by decide
theorem test_decode_fixed3 : decode .hdr (bits [0, 0, 0, 1, 0, 1, 1, 0]) = .item (.fixed3 false) [] := by decide
theorem test_decode_fixed4 : decode .hdr (bits [0, 0, 0, 1, 1, 0, 0, 0]) = .item (.fixed4 false) [] := by decide
/-- Type code 63 is LPC of order 32 (VH17): the field holds 31. -/
theorem test_decode_lpc : decode .hdr (bits [0, 1, 1, 1, 1, 1, 1, 0]) = .item (.lpc 31 false) [] := by decide
theorem test_decode_reservedRsv : decode .hdr (bits [1, 0, 1]) = .item .reservedRsv (bits [0, 1]) := by decide
theorem test_decode_reservedType2_3 : decode .hdr (bits [0, 0, 0, 0, 0, 1, 1, 0]) = .item (.reservedType2_3 1) [false] := by
  decide
theorem test_decode_reservedType4_7 : decode .hdr (bits [0, 0, 0, 0, 1, 1, 0, 1]) = .item (.reservedType4_7 2) [true] := by
  decide
theorem test_decode_reservedType13 : decode .hdr (bits [0, 0, 0, 1, 1, 0, 1]) = .item .reservedType13 [] := by decide
theorem test_decode_reservedType14_15 : decode .hdr (bits [0, 0, 0, 1, 1, 1, 1]) = .item (.reservedType14_15 1) [] := by decide
theorem test_decode_reservedType16_31 : decode .hdr (bits [0, 0, 1, 1, 0, 0, 1]) = .item (.reservedType16_31 9) [] := by decide
theorem test_decode_resRice : decode .res (bits [0, 0, 1, 0, 1, 0]) = .item (.resRice 10) [] := by decide
theorem test_decode_resRice2 : decode .res (bits [0, 1, 0, 0, 1, 1]) = .item (.resRice2 3) [] := by decide
theorem test_decode_resReserved : decode .res (bits [1, 1, 0, 0]) = .item (.resReserved true) (bits [0, 0]) := by decide
theorem test_decode_partRice4 : decode .part4 (bits [1, 1, 1, 0]) = .item (.partRice4 14) [] := by decide
theorem test_decode_partEsc4 : decode .part4 (bits [1, 1, 1, 1, 0]) = .item .partEsc4 [false] := by decide
theorem test_decode_partRice5 : decode .part5 (bits [0, 1, 1, 1, 1]) = .item (.partRice5 15) [] := by decide
theorem test_decode_partEsc5 : decode .part5 (bits [1, 1, 1, 1, 1]) = .item .partEsc5 [] := by decide
theorem test_decode_cmdReset : decode .cmd (bits [0, 0, 0]) = .item .cmdReset [] := by decide
theorem test_decode_cmdStart :
    decode .cmd (bits [0, 0, 1]) { bs := 3, bps := 8, truncEn := true } = .item (.cmdStart 3 8 true) [] := by decide
theorem test_decode_cmdRead : decode .cmd (bits [0, 1, 0]) { dest := 7, len := 16 } = .item (.cmdRead 7 16) [] := by decide
theorem test_decode_cmdQueryType : decode .cmd (bits [0, 1, 1]) = .item .cmdQueryType [] := by decide
theorem test_decode_cmdQueryWasted : decode .cmd (bits [1, 0, 0]) = .item .cmdQueryWasted [] := by decide
theorem test_decode_cmdQueryStatus : decode .cmd (bits [1, 0, 1]) = .item .cmdQueryStatus [] := by decide
theorem test_decode_cmdReserved : decode .cmd (bits [1, 1, 0]) = .item (.cmdReserved false) [] := by decide
/-- A header that ends inside the type code is rejected by name. -/
theorem test_decode_short : decode .hdr (bits [0, 0, 0, 1]) = .rejected .short := by decide
/-- Bits of a byte from bit 7 on (R36): `00010100` is FIXED2's header. -/
theorem test_decode_byte : decode .hdr (bitsOfBytes [0x14]) = .item (.fixed2 false) [] := by decide

/-! ## Headers -/

/-- VK10: the header of a Verbatim sub-frame with two wasted bits. -/
theorem test_verbatim_header :
    sees (fun t => (t.typeCode, t.wasted, t.cursor)) (step (mid .readHeader 3 8 [0, 0, 0, 0, 0, 0, 1, 1, 0, 1, 0])) =
      some (1, 2, 10) := by decide
/-- R71's examples: `TYPE = 001010` gives Fixed of order 2, `TYPE = 100011` gives LPC of order 4. -/
theorem test_dispatch_table :
    (variantOfType 10, orderOfType 10) = (.fixed, 2) ∧ (variantOfType 35, orderOfType 35) = (.lpc, 4) := by decide
/-- VH7: FIXED3 with a block of two samples. -/
theorem test_fixed3_order_exceeds_block :
    sees (fun t => (t.phase, t.err, t.cause)) (step (mid .readHeader 2 8 [0, 0, 0, 1, 0, 1, 1, 0])) =
      some (.failed, .invalidStream, .orderExceedsBlock) := by decide
/-- VH6: as many wasted bits as bits per sample. -/
theorem test_constant_wasted_too_large :
    sees (fun t => (t.err, t.cause)) (step (mid .readHeader 2 8 [0, 0, 0, 0, 0, 0, 0, 1, 0, 0, 0, 0, 0, 0, 0, 1, 0])) =
      some (.invalidStream, .wastedTooLarge) := by decide
/-- VH16: the reserved bit is checked before the next read is attempted. -/
theorem test_reservedRsv : sees (fun t => (t.err, t.cause)) (step (mid .readHeader 4 16 [1])) =
    some (.invalidStream, .reservedBit) := by decide
/-- VH2: type 2. -/
theorem test_reservedType2_3 : sees (fun t => (t.err, t.cause)) (step (mid .readHeader 4 16 [0, 0, 0, 0, 0, 1, 0, 0])) =
    some (.invalidStream, .reservedType) := by decide
/-- VH2: type 7. -/
theorem test_reservedType4_7 : sees (fun t => (t.err, t.cause)) (step (mid .readHeader 4 16 [0, 0, 0, 0, 1, 1, 1, 0])) =
    some (.invalidStream, .reservedType) := by decide
/-- VF9: type 13. -/
theorem test_reservedType13 : sees (fun t => (t.err, t.cause)) (step (mid .readHeader 8 8 [0, 0, 0, 1, 1, 0, 1, 0])) =
    some (.invalidStream, .reservedType) := by decide
/-- VH2: type 15. -/
theorem test_reservedType14_15 : sees (fun t => (t.err, t.cause)) (step (mid .readHeader 4 16 [0, 0, 0, 1, 1, 1, 1, 0])) =
    some (.invalidStream, .reservedType) := by decide
/-- VH2: type 16. -/
theorem test_reservedType16_31 : sees (fun t => (t.err, t.cause)) (step (mid .readHeader 4 16 [0, 0, 1, 0, 0, 0, 0, 0])) =
    some (.invalidStream, .reservedType) := by decide
/-- VH9 and VH10: an empty stream, without and with `TRUNC_EN`. -/
theorem test_empty_stream : sees (fun t => (t.err, t.cause)) (step (mid .readHeader 4 16 [])) =
    some (.invalidStream, .readFailField) := by decide
theorem test_empty_stream_truncEn : sees (fun t => (t.err, t.cause)) (step { mid .readHeader 4 16 [] with truncEn := true }) =
    some (.truncated, .readFailField) := by decide

/-! ## Bodies -/

/-- VK0: the value -5, four times. -/
theorem test_constant_body :
    sees (fun t => (words t.x, t.phase, t.responses)) (step (mid .readRaw 4 16 [1, 1, 1, 1, 1, 1, 1, 1, 1, 1, 1, 1, 1, 0, 1, 1])) =
      some ([-5, -5, -5, -5], .done, [.done]) := by decide
/-- VK10: the samples of the Verbatim sub-frame with two wasted bits. -/
theorem test_verbatim_body :
    sees (fun t => (words t.x, t.cursor)) (step { mid .readRaw 3 8 [0, 0, 0, 1, 0, 1, 1, 1, 1, 1, 1, 1, 1, 0, 0, 0, 0, 0] with
      typeCode := 1, wasted := 2 }) = some ([20, -4, -128], 18) := by decide
/-- VF0. -/
theorem test_fixed0_restore : sees (fun t => words t.x) (step (restoring 8 4 0 [] [3, -2, 0, 7])) = some [3, -2, 0, 7] := by decide
/-- VF5: the sum wraps upward. -/
theorem test_fixed1_restore_wraps : sees (fun t => words t.x) (step (restoring 9 2 1 [2147483647] [1])) =
    some [2147483647, -2147483648] := by decide
/-- VF2k1. -/
theorem test_fixed2_restore : sees (fun t => words t.x) (step (restoring 10 6 2 [100, 103] [0, 1, -1, 2])) =
    some [100, 103, 106, 110, 113, 118] := by decide
/-- VF3. -/
theorem test_fixed3_restore : sees (fun t => words t.x) (step (restoring 11 6 3 [0, 1, 4] [0, -1, 2])) =
    some [0, 1, 4, 9, 15, 24] := by decide
/-- VF4. -/
theorem test_fixed4_restore : sees (fun t => words t.x) (step (restoring 12 7 4 [1, 2, 4, 8] [0, 0, -5])) =
    some [1, 2, 4, 8, 15, 26, 37] := by decide
/-- VF7: the same with two wasted bits, shifted after the whole block is restored. -/
theorem test_fixed4_restore_wasted :
    sees (fun t => words t.x) (step { restoring 12 5 4 [1, 2, 4, 8] [0] with wasted := 2 }) = some [4, 8, 16, 32, 60] := by decide
/-- VF1: the warm-up of FIXED1. -/
theorem test_fixed1_warmup :
    sees (fun t => (words t.x, t.phase)) (step { mid .readWarmup 4 8 [0, 0, 0, 0, 1, 0, 1, 0] with typeCode := 9, order := 1 }) =
      some ([10], .decodeResidual) := by decide
/-- VL1: precision 3, shift 2 and the coefficient -3. -/
theorem test_lpc_params :
    sees (fun t => (t.precision, t.shift, words t.c, t.cursor))
      (step { mid .readPredParams 3 8 [0, 0, 1, 0, 0, 0, 0, 1, 0, 1, 0, 1] with typeCode := 32, order := 1 }) =
      some (3, 2, [-3], 12) := by decide
/-- VL1: the shift is a floor: `-15 >> 2 = -4`. -/
theorem test_lpc_restore :
    sees (fun t => (words t.x, t.acc)) (step { restoring 32 3 1 [5] [0, 0] with shift := 2, c := buf [-3] }) =
      some ([5, -4, 3], 12) := by decide

/-! ## The residual section -/

/-- VF0: the residual header of one partition. -/
theorem test_resRice :
    sees (fun t => (t.method, t.partOrder, t.residual, t.cursor)) (step (unpacking 4 0 1 7 none [0, 0, 0, 0, 0, 0])) =
      some (0, 0, some ⟨0, 0⟩, 6) := by decide
/-- VR5: too small is found before misaligned. -/
theorem test_resRice_too_small : sees (fun t => t.cause) (step (unpacking 6 2 0 0 none [0, 0, 0, 0, 1, 0])) =
    some .partitionTooSmall := by decide
/-- VL2: method 1, two partitions. -/
theorem test_resRice2 :
    sees (fun t => (t.method, t.partOrder, t.residual)) (step (unpacking 4 2 0 0 none [0, 1, 0, 0, 0, 1])) =
      some (1, 1, some ⟨0, 0⟩) := by decide
/-- VR2: method 11, rejected although the partition order is not there. -/
theorem test_resReserved : sees (fun t => (t.err, t.cause)) (step (unpacking 4 0 0 0 none [1, 1])) =
    some (.invalidStream, .reservedMethod) := by decide
/-- VF0: parameter 2 and the residuals 3, -2, 0, 7. -/
theorem test_partRice4 :
    sees (fun t => (words t.e, t.phase, t.cursor))
      (step (unpacking 4 0 0 0 (some ⟨0, 0⟩) [0, 0, 1, 0, 0, 1, 1, 0, 1, 1, 1, 1, 0, 0, 0, 0, 0, 1, 1, 0])) =
      some ([3, -2, 0, 7], .restore, 20) := by decide
/-- VR10: the stream ends inside a Rice code: a payload failure, even with `TRUNC_EN`. -/
theorem test_partRice4_short :
    sees (fun t => (t.err, t.cause)) (step { unpacking 2 0 0 0 (some ⟨0, 0⟩) [0, 0, 0, 1, 0, 0, 0] with truncEn := true }) =
      some (.invalidStream, .readFailPayload) := by decide
/-- VF8: an escape of width 0 in an empty partition still has its width. -/
theorem test_partEsc4_empty :
    sees (fun t => (t.residual, t.cursor)) (step (unpacking 4 2 0 1 (some ⟨0, 0⟩) [1, 1, 1, 1, 0, 0, 0, 0, 0])) =
      some (some ⟨1, 0⟩, 9) := by decide
/-- VL2 and VL3: the raw field `1110` is -2 or 14, `0011` is 3 in both readings. -/
theorem test_escape_values :
    readRaw true 4 (bits [1, 1, 1, 0]) = .value (-2) [] ∧ readRaw false 4 (bits [1, 1, 1, 0]) = .value 14 [] ∧
      ∀ signed, readRaw signed 4 (bits [0, 0, 1, 1]) = .value 3 [] := by decide
/-- VR8: `k = 30`, four zeros: rejected at the one bit. -/
theorem test_partRice5_overflow :
    sees (fun t => (t.err, t.cause)) (step (unpacking 1 0 1 0 (some ⟨0, 0⟩) [1, 1, 1, 1, 0, 0, 0, 0, 0, 1])) =
      some (.invalidStream, .riceOverflow) := by decide
/-- VL2: partition 0 of two is empty and has its 5-bit parameter. -/
theorem test_partRice5_empty :
    sees (fun t => (t.residual, t.cursor)) (step (unpacking 4 2 1 1 (some ⟨0, 0⟩) [0, 0, 0, 0, 0])) =
      some (some ⟨1, 0⟩, 5) := by decide
/-- VR12 for method 1: the stream ends inside a raw value. -/
theorem test_partEsc5_short :
    sees (fun t => (t.err, t.cause)) (step (unpacking 2 0 1 0 (some ⟨0, 0⟩) [1, 1, 1, 1, 1, 0, 0, 1, 0, 0, 0, 0, 1])) =
      some (.invalidStream, .readFailPayload) := by decide

/-! ## Commands -/

/-- HC10. -/
theorem test_cmdReset :
    sees (fun t => (t.phase, t.typeCode, t.x, t.responses)) (step (issued { mid .restore 4 16 [] with typeCode := 9, x := buf [1] } 0)) =
      some (.idle, 0, [], [.ok]) := by decide
/-- P1, step 1. -/
theorem test_cmdStart :
    sees (fun t => (t.phase, t.cfgBs, t.cfgBps, t.responses)) (step (issued State.reset 1 { bs := 4, bps := 16 })) =
      some (.readHeader, 4, 16, []) := by decide
/-- VH13: a block of 65536. -/
theorem test_cmdStart_bad_config :
    sees (fun t => (t.phase, t.err, t.responses)) (step (issued State.reset 1 { bs := 65536, bps := 16 })) =
      some (.failed, .invalidConfig, [.failed 3 13]) := by decide
/-- HC6, with the host words at 10 and up. -/
theorem test_cmdRead :
    sees (fun t => (t.hostMem, t.responses)) (step (issued { mid .done 2 16 [] with x := buf [7, 8] } 2 { dest := 10, len := 4 })) =
      some ([(10, 7), (11, 8)], [.count 2]) := by decide
/-- HC5. -/
theorem test_cmdRead_short_buffer :
    sees (fun t => (t.hostMem, t.responses)) (step (issued { mid .done 4 16 [] with x := buf [1, 2, 3, 4] } 2 { len := 3 })) =
      some ([], [.endOfStream]) := by decide
/-- HC12. -/
theorem test_cmdQueryType : sees (fun t => t.responses) (step (issued { mid .done 4 16 [] with typeCode := 33 } 3)) =
    some [.subFrameType 33] := by decide
/-- HC11. -/
theorem test_cmdQueryWasted : sees (fun t => t.responses) (step (issued { mid .done 4 16 [] with wasted := 2 } 4)) =
    some [.wastedBits 2] := by decide
/-- P4, step 4. -/
theorem test_cmdQueryStatus :
    sees (fun t => t.responses) (step (issued { mid .failed 4 16 [] with err := .invalidStream, cause := .reservedMethod } 5)) =
      some [.status 8 1 7] := by decide
/-- HC4. -/
theorem test_cmdReserved : sees (fun t => t.responses) (step (issued State.reset 6)) = some [.illegalCommand] := by decide

/-! ## The state after reset -/

theorem test_reset_memory_canonical :
    Memory.wf State.reset.x = true ∧ Memory.wf State.reset.e = true ∧ Memory.wf State.reset.c = true ∧
      Memory.wf State.reset.hostMem = true := by decide

/-! ## Witnesses: for each obligation with hypotheses, states and operands that meet them -/

/-- A machine that has just begun a decode. -/
def begun (ahead : List Nat) (inbox : List Arrival) : State := { mid .readHeader 4 16 ahead with inbox := inbox }

/-- It has the invariant, whatever lies ahead and whatever the host has issued. -/
theorem begun_inv (ahead : List Nat) (inbox : List Arrival) : EngineInv (begun ahead inbox) := by
  constructor
  case buffers => exact ⟨rfl, rfl, rfl, rfl⟩
  case config => exact fun _ => rfl
  all_goals simp [begun, mid, State.reset, Phase.busy, Phase.pastHeader, phaseFits]

theorem witness_DecodeOfEncodeIsIdentity :
    Instr.wellFormed (.partRice4 14) = true ∧ Instr.wellFormed (.partRice5 30) = true ∧ Instr.wellFormed (.lpc 31 true) = true := by
  decide
theorem witness_EncodeOfDecodeIsIdentity :
    decode .part4 (bits [1, 1, 1, 0, 1]) = .item (.partRice4 14) [true] ∧
    decode .hdr (bits [0, 0, 1, 1, 1, 1, 1]) = .item (.reservedType16_31 15) [] := by decide
theorem witness_FieldIsReadMsbFirst :
    2 ≤ (mid .readRaw 4 16 [1, 0]).unread.length ∧ (mid .readRaw 4 16 [1]).unread.length < 2 := by decide
theorem witness_RiceCodeReadsFoldedValue : (30 ≤ 30 ∧ 2 ^ 32 - 1 < 2 ^ 32) ∧ 2 ^ (32 - 30) ≤ 4 := by decide
/-- The widest and the narrowest field. -/
theorem witness_SignedFieldIsTwosComplement : (1 ≤ 1 ∧ 1 < 2 ^ 1) ∧ (1 ≤ 32 ∧ 32 ≤ 32 ∧ 2 ^ 32 - 1 < 2 ^ 32) := by decide
theorem witness_BuffersAreCanonical :
    Memory.wf (buf [1, 2]) = true ∧ (∀ i, Memory.read (buf [1, 2]) i = Memory.read (buf [1, 2]) i) ∧ 0 ≠ 1 := by
  refine ⟨by decide, fun _ => rfl, by decide⟩
theorem witness_RaiseEntersFailed :
    let s := { mid .readRaw 4 16 [1, 0] with cursor := 1, srcPos := 2 }
    s.cursor ≤ s.srcPos ∧ s.srcPos ≤ s.source.length := by decide
theorem witness_ReadFailureIsClassified :
    (mid .readRaw 4 16 []).truncEn = false ∧ ({ mid .readRaw 4 16 [] with truncEn := true } : State).truncEn = true := by decide
theorem witness_HeaderSelectsVariantAndOrder :
    (mid .readHeader 32 16 []).phase = .readHeader ∧ (8 ≤ 12 ∧ 12 - 8 ≤ (mid .readHeader 4 16 []).blockSize) ∧
      (63 ≤ 63 ∧ 63 - 31 ≤ (mid .readHeader 32 16 []).blockSize) := by decide
theorem witness_WastedCountIsZerosPlusOne :
    let s := mid .readHeader 1 8 [0, 0, 0, 0, 0, 0, 1]
    let u := mid .readHeader 1 7 [0, 0, 0, 0, 0, 0, 1]
    let v := mid .readHeader 1 32 [0, 0]
    (s.phase = .readHeader ∧ s.cfgBps.toNat ≤ 32 ∧ typeReserved 32 = false ∧
      s.unread = List.replicate 6 false ++ true :: [] ∧ 6 + 1 < s.cfgBps.toNat ∧ orderOfType 32 ≤ s.blockSize) ∧
    (u.unread = List.replicate 6 false ++ true :: [] ∧ u.cfgBps.toNat ≤ 6 + 1) ∧
    (v.unread = List.replicate 2 false ∧ v.cfgBps.toNat ≤ 32) := by decide
theorem witness_OrderAboveBlockIsRejected :
    let s := mid .readHeader 3 4 [0, 0, 1]
    s.blockSize < 12 - 8 ∧ (mid .readHeader 31 16 []).blockSize < 63 - 31 ∧
      (s.unread = List.replicate 2 false ++ true :: [] ∧ 2 + 1 < s.cfgBps.toNat) ∧
      12 - 8 = (mid .readHeader 4 16 []).blockSize ∧ 63 - 31 = (mid .readHeader 32 16 []).blockSize := by decide
theorem witness_ReservedHeadersFail : (mid .readHeader 4 16 []).phase = .readHeader := by decide
theorem witness_WarmupReadsSamples :
    let s := { mid .readWarmup 4 2 [1, 0, 0, 1, 1] with order := 2 }
    let u := { mid .readWarmup 4 2 [1, 0, 0] with order := 2 }
    (s.phase = .readWarmup ∧ [2, 1].length = s.order.toNat ∧ (∀ v ∈ [2, 1], v < 2 ^ (s.cfgBps.toNat - s.wasted.toNat)) ∧
      s.unread = fieldsBits (s.cfgBps.toNat - s.wasted.toNat) [2, 1] ++ [true]) ∧
    (u.phase = .readWarmup ∧ u.unread.length < u.order.toNat * (u.cfgBps.toNat - u.wasted.toNat)) := by decide
theorem witness_ShortRawFieldsFail :
    let s := mid .readRaw 4 2 [1]
    let u := mid .readRaw 2 2 [1, 0, 0]
    s.phase = .readRaw ∧ s.unread.length < (s.cfgBps.toNat - s.wasted.toNat) ∧ u.unread.length < u.blockSize * (u.cfgBps.toNat - u.wasted.toNat) := by decide
theorem witness_ConstantFillsBlock :
    let s := { mid .readRaw 4 5 [1, 1] with wasted := 3 }
    s.phase = .readRaw ∧ 3 < 2 ^ (s.cfgBps.toNat - s.wasted.toNat) ∧ s.unread = natToBits (s.cfgBps.toNat - s.wasted.toNat) 3 ++ [] := by decide
theorem witness_VerbatimReadsBlock :
    let s := mid .readRaw 2 2 [1, 1, 0, 1]
    s.phase = .readRaw ∧ [3, 1].length = s.blockSize ∧ (∀ v ∈ [3, 1], v < 2 ^ (s.cfgBps.toNat - s.wasted.toNat)) ∧
      s.unread = fieldsBits (s.cfgBps.toNat - s.wasted.toNat) [3, 1] ++ [] := by decide
theorem witness_RawShiftNeverWraps : (32 ≤ 32 ∧ 31 < 32 ∧ 1 < 2 ^ (32 - 31)) ∧ (0 < 32 ∧ 2 ^ 31 < 2 ^ (32 - 0)) := by decide
/-- VF5's block; the recurrence wraps. -/
theorem witness_FixedRestoresBlock :
    let s := restoring 9 2 1 [2147483647] [1]
    let x : Nat → Word := fun i => if i = 0 then 2147483647 else 2147483648
    s.phase = .restore ∧ s.order.toNat = 1 ∧ 1 ≤ s.blockSize ∧ (∀ i, i < 1 → Memory.read s.x i = some (x i)) ∧
      (∀ i, i < s.blockSize - 1 → Memory.read s.e i = some ((fun _ => 1 : Nat → Word) i)) ∧
      (∀ i, i < s.blockSize → 1 ≤ i → x i = wrap32 (((fun _ => 1 : Nat → Word) (i - 1)).toInt + fixedPrediction 1 (fun k => (x k).toInt) i)) := by
  decide
theorem witness_LpcParametersAreRead :
    let s := { mid .readPredParams 3 8 [0, 0, 1, 0, 0, 1, 1, 1, 1, 1, 0, 1] with order := 1 }
    s.phase = .readPredParams ∧ [5].length = s.order.toNat ∧ s.order.toNat ≤ 32 ∧ (∀ c ∈ [5], c < 2 ^ (2 + 1)) ∧
      s.unread = natToBits 4 2 ++ (natToBits 5 15 ++ (fieldsBits (2 + 1) [5] ++ [])) := by decide
theorem witness_LpcReservedParametersFail :
    (mid .readPredParams 3 8 [1, 1, 1, 1]).unread = natToBits 4 15 ++ [] ∧
      (mid .readPredParams 3 8 [1, 1, 1, 0, 1, 0, 0, 0, 0]).unread = natToBits 4 14 ++ (natToBits 5 16 ++ []) := by decide
/-- One bit short of each field, for the largest precision and shift. -/
theorem witness_ShortLpcParametersFail :
    let s := mid .readPredParams 32 8 [1, 1, 1]
    let u := mid .readPredParams 32 8 [1, 1, 1, 0, 0, 1, 1, 1]
    let v := { mid .readPredParams 32 8 ([1, 1, 1, 0, 0, 1, 1, 1, 1] ++ List.replicate 29 1) with order := 2 }
    (s.phase = .readPredParams ∧ s.unread.length < 4) ∧
      (u.unread = natToBits 4 14 ++ bits [0, 1, 1, 1] ∧ (bits [0, 1, 1, 1]).length < 5) ∧
      (v.order.toNat ≤ 32 ∧ v.unread = natToBits 4 14 ++ (natToBits 5 15 ++ bits (List.replicate 29 1)) ∧
        (bits (List.replicate 29 1)).length < v.order.toNat * (14 + 1)) := by decide
/-- VL1's block. -/
theorem witness_LpcRestoresBlock :
    let s := { restoring 32 3 1 [5] [0, 0] with shift := 2, c := buf [-3] }
    let x : Nat → Word := fun i => if i = 0 then 5 else if i = 1 then -4 else 3
    let c : Nat → Word := fun _ => -3
    let e : Nat → Word := fun _ => 0
    s.phase = .restore ∧ s.order.toNat = 1 ∧ 1 ≤ s.blockSize ∧ (∀ i, i < 1 → Memory.read s.c i = some (c i)) ∧
      (∀ i, i < 1 → Memory.read s.x i = some (x i)) ∧ (∀ i, i < s.blockSize - 1 → Memory.read s.e i = some (e i)) ∧
      (∀ k, k < 1 → -(2 : Int) ^ 14 ≤ (c k).toInt ∧ (c k).toInt < (2 : Int) ^ 14) ∧
      (∀ i, i < s.blockSize → 1 ≤ i → x i = wrap32 ((e (i - 1)).toInt +
        dotProduct 1 (fun k => (c k).toInt) (fun k => (x k).toInt) i / (2 : Int) ^ s.shift.toNat)) := by decide
theorem witness_AccumulatorIsExact :
    let cs := List.replicate 32 (-(2 : Int) ^ 14)
    let vs := List.replicate 32 ((2 : Int) ^ 31 - 1)
    cs.length ≤ 32 ∧ (∀ c ∈ cs, -(2 : Int) ^ 14 ≤ c ∧ c < (2 : Int) ^ 14) ∧ (∀ v ∈ vs, -(2 : Int) ^ 31 ≤ v ∧ v < (2 : Int) ^ 31) := by
  decide
/-- The boundary of R98: a partition exactly as large as the order. -/
theorem witness_ResidualHeaderIsAccepted :
    let s := unpacking 4 2 0 0 none []
    s.phase = .decodeResidual ∧ s.residual = none ∧ s.order.toNat ≤ s.blockSize / 2 ^ (1 : BitVec 4).toNat ∧
      s.blockSize % 2 ^ (1 : BitVec 4).toNat = 0 := by decide
theorem witness_BadResidualHeadersFail :
    let s := unpacking 6 2 0 0 none []
    let u := unpacking 6 1 0 0 none []
    s.blockSize / 2 ^ (2 : BitVec 4).toNat < s.order.toNat ∧
      (u.order.toNat ≤ u.blockSize / 2 ^ (2 : BitVec 4).toNat ∧ u.blockSize % 2 ^ (2 : BitVec 4).toNat ≠ 0) := by decide
theorem witness_PartitionCountsSumToResiduals :
    let s := unpacking 8 4 0 1 none []
    s.order.toNat ≤ s.blockSize / 2 ^ s.partOrder.toNat ∧ s.blockSize % 2 ^ s.partOrder.toNat = 0 := by decide
/-- VR15's second and third code, in the last of two partitions, and VR7's largest code of method 1. -/
theorem witness_RicePartitionReadsResiduals :
    let s := unpacking 4 2 0 1 (some ⟨1, 0⟩) [0, 1, 0, 0, 1]
    let u := unpacking 1 0 1 0 (some ⟨0, 0⟩) [0, 0, 0, 1, 1, 1, 1, 1, 1, 1, 1, 1, 1, 1, 1, 1, 1, 1, 1, 1, 1, 1, 1, 1, 1, 1, 1, 1,
      1, 1, 1, 1, 1, 1]
    (s.method = 0 ∧ s.residual = some ⟨1, 0⟩ ∧ [1, 2].length = s.blockSize / 2 ^ s.partOrder.toNat ∧ s.unread = ricesBits 0 [1, 2] ++ []) ∧
    (u.method = 1 ∧ [2 ^ 32 - 1].length = u.blockSize / 2 ^ u.partOrder.toNat - u.order.toNat ∧
      u.unread = ricesBits 30 [2 ^ 32 - 1] ++ []) := by decide
theorem witness_EscapePartitionReadsResiduals :
    let s := unpacking 2 1 1 0 (some ⟨0, 0⟩) [0, 0, 0, 1, 0, 1, 1]
    s.method = 1 ∧ [3].length = s.blockSize / 2 ^ s.partOrder.toNat - s.order.toNat ∧ (∀ v ∈ [3], v < 2 ^ 2) ∧
      s.unread = natToBits 5 2 ++ (fieldsBits 2 [3] ++ []) := by decide
/-- Codes that end in the quotient and in the remainder (the largest quotient of `k = 30`), and the smallest overflow. -/
theorem witness_BadPartitionPayloadFails :
    let s := unpacking 2 0 0 0 (some ⟨0, 0⟩) [1, 0, 0]
    let v := unpacking 1 0 1 0 (some ⟨0, 0⟩) [0, 0, 0, 1, 1]
    let u := unpacking 1 0 1 0 (some ⟨0, 0⟩) [0, 0, 0, 0, 1]
    (3 < 2 ^ (32 - 30) ∧ [true].length < 30 ∧ v.unread = ricesBits 30 [] ++ (List.replicate 3 false ++ true :: [true])) ∧
    (s.phase = .decodeResidual ∧ [0].length < s.residualCount 0 ∧ s.unread = ricesBits 0 [0] ++ List.replicate 2 false) ∧
    (([] : List Nat).length < u.residualCount 0 ∧ u.unread = ricesBits 30 [] ++ (List.replicate 4 false ++ true :: []) ∧
      2 ^ (32 - 30) ≤ 4) := by decide
theorem witness_ShortEscapePartitionFails :
    let s := unpacking 2 0 0 0 (some ⟨0, 0⟩) [0, 0, 1, 0]
    let u := unpacking 2 0 0 0 (some ⟨0, 0⟩) [0, 0, 0, 1, 0, 1, 1, 1]
    s.unread.length < 5 ∧ (u.unread = natToBits 5 2 ++ bits [1, 1, 1] ∧ (bits [1, 1, 1]).length < u.residualCount 0 * 2) := by decide
theorem witness_StartBeginsDecode :
    (mid .failed 4 16 []).phase = .failed ∧ (1 ≤ 65535 ∧ 65535 ≤ 65535 ∧ 1 ≤ 32 ∧ 32 ≤ 32) := by decide
theorem witness_StartRejectsBadConfigOrBusy :
    (mid .restore 4 16 []).phase.busy = true ∧ (State.reset.phase.busy = false ∧ 65535 < 65536 ∧ 32 < 33) := by decide
theorem witness_ReadDeliversWholeBlock :
    let s := { mid .done 2 16 [] with x := buf [7, 8] }
    (s.phase = .done ∧ (s.blockSize ≤ 2 ∧ ∀ i, i < s.blockSize → Memory.read s.x i = some (if i = 0 then 7 else 8)) ∧
      1 < s.blockSize) ∧
    ((mid .failed 4 16 []).phase = .failed ∧ State.reset.phase = .idle ∧ (mid .restore 4 16 []).phase.busy = true) := by decide
theorem witness_QueriesAnswerInDoneOnly : (mid .done 4 16 []).phase = .done ∧ State.reset.phase ≠ .done := by decide
theorem witness_StepRunsDecodedItem :
    let s := mid .readHeader 4 16 [0, 0, 0, 0, 0, 0, 0, 0]
    EngineMoves s s ∧ s.phase = .readHeader ∧ decode .hdr s.unread = .item (.constant false) [] :=
  ⟨.inl ⟨rfl, rfl⟩, rfl, by decide⟩
/-- The other formats, and an event that still has to wait. -/
theorem witness_StepRunsDecodedItem_residual :
    let s := { unpacking 4 2 1 1 (some ⟨0, 0⟩) [0, 0, 0, 0, 0] with inbox := [⟨1, .supply [] 0⟩] }
    EngineMoves s { s with inbox := [⟨0, .supply [] 0⟩] } ∧ s.residual ≠ none ∧ s.method = 1 ∧
      decode .part5 s.unread = .item (.partRice5 0) [] :=
  ⟨.inr ⟨rfl, 0, .supply [] 0, [], rfl, rfl⟩, by decide, rfl, by decide⟩
theorem witness_StepFailsOnShortItem :
    let s := unpacking 4 2 0 1 none [0, 1, 0]
    EngineMoves s s ∧ (s.phase = .decodeResidual ∧ s.residual = none) ∧ decode .res s.unread = .rejected .short :=
  ⟨.inl ⟨rfl, rfl⟩, ⟨rfl, rfl⟩, by decide⟩
theorem witness_StepResumesSubFrameInstruction :
    EngineMoves (mid .readRaw 4 16 []) (mid .readRaw 4 16 []) ∧ (mid .readRaw 4 16 []).phase = .readRaw :=
  ⟨.inl ⟨rfl, rfl⟩, rfl⟩
theorem witness_StepTakesHostEvents :
    let s := { mid .restore 4 16 [] with inbox := [⟨0, .command ⟨5, { }⟩⟩] }
    let u := { State.reset with inbox := [⟨3, .supply [true] 0⟩] }
    let v := { State.reset with inbox := [⟨0, .supplyBytes [0x14] 8⟩] }
    s.inbox = [⟨0, .command ⟨5, { }⟩⟩] ∧ (u.inbox = [⟨3, .supply [true] 0⟩] ∧ u.phase.busy = false) ∧
      (v.inbox = [⟨0, .supplyBytes [0x14] 8⟩] ∧ v.phase.busy = false) ∧ State.reset.inbox = [] := by decide
theorem witness_ItemsOutsideTheirPhaseStop :
    itemFits (.constant false) (mid .restore 4 16 []) = false ∧ itemFits (.resRice 0) (unpacking 4 0 0 0 (some ⟨0, 0⟩) []) = false ∧
      itemFits (.partRice5 3) (unpacking 4 0 0 0 (some ⟨0, 0⟩) []) = false := by decide
theorem witness_StepKeepsInvariant :
    EngineInv (begun [0, 0, 0, 0, 0, 0, 0, 0] []) ∧ ∃ t, step (begun [0, 0, 0, 0, 0, 0, 0, 0] []) = .next t :=
  ⟨begun_inv _ _, _, rfl⟩
theorem witness_StepStopsOnlyWhenStreamChanges :
    (EngineInv (begun [] []) ∧ hostBreaksStream (begun [] []) = false) ∧
      EngineInv (begun [] [⟨0, .supply [] 0⟩]) ∧ hostBreaksStream (begun [] [⟨0, .supply [] 0⟩]) = true :=
  ⟨⟨begun_inv _ _, by decide⟩, begun_inv _ _, by decide⟩
theorem witness_PhasesFollowTheVariant :
    let s := begun [0, 0, 0, 0, 0, 0, 0, 0] []
    EngineInv s ∧ s.phase.busy = true ∧ EngineMoves s s ∧ ∃ t, step s = .next t :=
  ⟨begun_inv _ _, rfl, .inl ⟨rfl, rfl⟩, _, rfl⟩
theorem witness_PhasesFollowTheVariant_done :
    (mid .done 4 16 []).phase = .done ∧ nextIsStartOrReset (issued (mid .done 4 16 []) 2) = false ∧
      ∃ t, step (mid .done 4 16 []) = .next t := ⟨rfl, by decide, _, rfl⟩
theorem witness_EveryDecodeEnds : EngineInv (begun [] []) ∧ (begun [] []).phase.busy = true ∧ (begun [] []).inbox = [] :=
  ⟨begun_inv _ _, rfl, rfl⟩
theorem witness_NothingChangesBetweenDecodes :
    let s := issued (mid .done 4 16 []) 3
    s.phase.busy = false ∧ nextIsStartOrReset s = false ∧ ∃ t, step s = .next t := ⟨rfl, by decide, _, rfl⟩
theorem witness_InstructionsLeaveHostAndStream : ∃ t, exec .cmdQueryStatus State.reset = .next t := ⟨_, rfl⟩
theorem witness_PhaseWritesOnlyItsRegisters :
    (∃ t, exec (.constant false) (mid .readHeader 4 16 []) = .next t) ∧ (encode (.constant false)).format ≠ .cmd :=
  ⟨⟨_, rfl⟩, by decide⟩
theorem witness_CursorOnlyMovesForward :
    let s := mid .readHeader 4 16 []
    (sees (fun t => decide (t.phase ≠ .failed)) (exec (.constant false) s) = some true) ∧ s.phase.busy = true ∧
      (encode (.constant false)).format ≠ .cmd ∧ s.srcPos ≤ s.source.length := by decide
/-- VK3 with fields of 13 bits: the same body with and without the three wasted bits. -/
theorem witness_WastedBitsShiftEverySample :
    let s := { mid .readRaw 2 16 [1, 1, 1, 1, 1, 1, 1, 1, 1, 1, 1, 1, 1] with wasted := 3 }
    s.phase = .readRaw ∧
      sees (fun t => t.phase) (exec (.constant false) { s with
        wasted := 0, cfgBps := BitVec.ofNat 6 (s.cfgBps.toNat - s.wasted.toNat) }) = some .done := by decide
theorem witness_StartForgetsEarlierDecode :
    let s := State.reset
    let u := { State.reset with phase := .done, typeCode := 9, x := buf [1] }
    s.phase.busy = false ∧ u.phase.busy = false ∧ u.source = s.source ∧ u.srcPos = s.srcPos ∧ u.freeCount = s.freeCount := by decide
/-- VF1k2: FIXED1, warm-up 10, parameter 2, residuals 1, 2, -3. -/
theorem witness_FixedSubFrameIsLossless :
    let s := mid .readHeader 4 8 [0, 0, 0, 1, 0, 0, 1, 0, 0, 0, 0, 0, 1, 0, 1, 0, 0, 0, 0, 0, 0, 0, 0, 0, 1, 0, 1, 1, 0, 0, 1, 0, 0, 0, 1, 0, 1]
    let x : Nat → Int := fun i => if i = 1 then 11 else if i = 2 then 13 else 10
    s.phase = .readHeader ∧ s.inbox = [] ∧ s.residual = none ∧ 1 ≤ s.blockSize ∧
      (∀ i, i < 1 → [10].getD i 0 < 2 ^ s.cfgBps.toNat ∧ sext s.cfgBps.toNat ([10].getD i 0) = x i) ∧
      [2, 4, 5].length = s.blockSize - 1 ∧
      (∀ j, j < s.blockSize - 1 → [2, 4, 5].getD j 0 < 2 ^ 32 ∧ foldRice ([2, 4, 5].getD j 0) = x (1 + j) - fixedPrediction 1 x (1 + j)) ∧
      s.unread = headerBits (8 + 1) false ++ (fieldsBits s.cfgBps.toNat [10] ++
        (natToBits 6 0 ++ (natToBits 4 2 ++ (ricesBits 2 [2, 4, 5] ++ [])))) := by decide
/-- VL1 with the residuals in method 1, parameter 1. -/
theorem witness_LpcSubFrameIsLossless :
    let s := mid .readHeader 3 8 [0, 1, 0, 0, 0, 0, 0, 0, 0, 0, 0, 0, 0, 1, 0, 1, 0, 0, 1, 0, 0, 0, 0, 1, 0, 1, 0, 1, 0, 1, 0, 0, 0, 0,
      0, 0, 0, 0, 1, 1, 0, 1, 0]
    let x : Nat → Int := fun i => if i = 0 then 5 else if i = 1 then -4 else 3
    s.phase = .readHeader ∧ s.inbox = [] ∧ s.residual = none ∧ 1 ≤ s.blockSize ∧
      (∀ i, i < 1 → [5].getD i 0 < 2 ^ s.cfgBps.toNat ∧ sext s.cfgBps.toNat ([5].getD i 0) = x i) ∧
      (∀ c ∈ [5], c < 2 ^ (2 + 1)) ∧ [0, 0].length = s.blockSize - 1 ∧
      (∀ j, j < s.blockSize - 1 → [0, 0].getD j 0 < 2 ^ 32 ∧ foldRice ([0, 0].getD j 0) =
        x (1 + j) - dotProduct 1 (fun i => sext (2 + 1) ([5].getD i 0)) x (1 + j) / (2 : Int) ^ 2) ∧
      s.unread = headerBits (31 + 1) false ++ (fieldsBits s.cfgBps.toNat [5] ++ (natToBits 4 2 ++ (natToBits 5 2 ++
        (fieldsBits (2 + 1) [5] ++ (natToBits 6 16 ++ (natToBits 5 1 ++ (ricesBits 1 [0, 0] ++ []))))))) := by decide

end Sys2Proof.Tests
end

section
/-! PROOFS. Between decodes (R28, R119, R126): what a step can do there, what the commands other than START and RESET leave, and
the statement that together they leave the engine as it is. -/

namespace Sys2Proof.Machine

/-- The engine of `t` is that of `s`: all but the pending events, the answers, the host words and the host's bit source. -/
def SameEngine (s t : State) : Prop :=
  t = { s with
    inbox := t.inbox
    responses := t.responses
    hostMem := t.hostMem
    source := t.source
    srcPos := t.srcPos }

theorem SameEngine.refl (s : State) : SameEngine s s := rfl

theorem SameEngine.withInbox (s : State) (rest : List Arrival) : SameEngine s { s with inbox := rest } := rfl

theorem SameEngine.withStream (s : State) (rest : List Arrival) (bits : List Bool) (pos : Nat) :
    SameEngine s { s with inbox := rest, source := bits, srcPos := pos } := rfl

theorem SameEngine.withHostMem (s : State) (m : Memory) : SameEngine s { s with hostMem := m } := rfl

theorem SameEngine.trans {s t u : State} (hst : SameEngine s t) (htu : SameEngine t u) : SameEngine s u := by
  unfold SameEngine at hst htu ⊢
  rw [htu, hst]

theorem SameEngine.respond (s : State) (r : Response) : SameEngine s (s.respond r) := rfl

/-- Between decodes the oldest host event is taken at once, whatever its `wait` (R106). -/
theorem fetch_idle_cons {s : State} {a : Arrival} {rest : List Arrival} (hidle : s.phase.busy = false)
    (hin : s.inbox = a :: rest) : fetch s = takeEvent a.event { s with inbox := rest } := by
  simp [fetch, hin, hidle]

/-- Between decodes a step that fetches a stream accepts it, positioned at most at its end (R113). -/
theorem step_supplyStream_idle {s : State} {rest : List Arrival} {bits : List Bool} {pos : Nat}
    (hidle : s.phase.busy = false) (hfetch : fetch s = supplyStream bits pos { s with inbox := rest }) :
    step s = .next { s with inbox := rest, source := bits, srcPos := min pos bits.length } :=
  step_without (by simp [hfetch, supplyStream, hidle])

/-- What a step between decodes can do: nothing, take a stream, or run the oldest command. -/
theorem step_idle_cases {s t : State} (hidle : s.phase.busy = false) (h : step s = .next t) :
    (s.inbox = [] ∧ t = s) ∨
    (∃ a rest bits pos, s.inbox = a :: rest ∧ t = { s with inbox := rest, source := bits, srcPos := min pos bits.length }) ∨
    (∃ a rest c, s.inbox = a :: rest ∧ a.event = .command c ∧
      exec (commandOfCode c.code.toNat c.args) { s with inbox := rest } = .next t) := by
  cases hin : s.inbox with
  | nil =>
    have hfetch : fetch s = .without s := (fetch_of_engineMoves (.inl ⟨hin, rfl⟩)).trans (engineFetch_idle hidle)
    cases h.symm.trans (step_without hfetch)
    exact .inl ⟨rfl, rfl⟩
  | cons a rest =>
    have hfetch := fetch_idle_cons hidle hin
    cases hev : a.event with
    | command c =>
      rw [hev, takeEvent_command] at hfetch
      exact .inr (.inr ⟨a, rest, c, rfl, hev, step_run hfetch ▸ h⟩)
    | supply bits pos =>
      rw [hev] at hfetch
      cases h.symm.trans (step_supplyStream_idle hidle hfetch)
      exact .inr (.inl ⟨a, rest, bits, pos, rfl, rfl⟩)
    | supplyBytes bytes pos =>
      rw [hev] at hfetch
      cases h.symm.trans (step_supplyStream_idle hidle hfetch)
      exact .inr (.inl ⟨a, rest, bitsOfBytes bytes, pos, rfl, rfl⟩)

/-- READ writes host words and answers, and nothing else (R108). -/
theorem execCmdRead_sameEngine {dest len : Nat} {s t : State} (h : execCmdRead dest len s = .next t) : SameEngine s t := by
  unfold execCmdRead at h
  split at h
  · split at h
    · cases h; exact .respond s _
    · split at h
      · cases h
      · cases h; exact (SameEngine.withHostMem s _).trans (.respond _ _)
  · cases h; exact .respond s _
  · cases h; exact .respond s _

/-- QUERY_TYPE only answers (R109). -/
theorem execCmdQueryType_sameEngine {s t : State} (h : execCmdQueryType s = .next t) : SameEngine s t := by
  unfold execCmdQueryType at h
  split at h <;> (cases h; exact .respond s _)

/-- QUERY_WASTED only answers (R110). -/
theorem execCmdQueryWasted_sameEngine {s t : State} (h : execCmdQueryWasted s = .next t) : SameEngine s t := by
  unfold execCmdQueryWasted at h
  split at h <;> (cases h; exact .respond s _)

/-- RESET has code 0 only (R106). -/
theorem commandOfCode_ne_cmdReset {code : Nat} (h : code ≠ 0) (a : CommandArgs) : commandOfCode code a ≠ .cmdReset := by
  unfold commandOfCode
  repeat' split
  all_goals simp_all

/-- START has code 1 only (R106). -/
theorem commandOfCode_ne_cmdStart {code : Nat} (h : code ≠ 1) (a : CommandArgs) (bs bps : Nat) (tr : Bool) :
    commandOfCode code a ≠ .cmdStart bs bps tr := by
  unfold commandOfCode
  repeat' split
  all_goals simp_all

/-- A command other than RESET and START leaves the engine as it is, in every phase (R106, R108 to R111). -/
theorem exec_command_sameEngine {code : Nat} {a : CommandArgs} {s t : State} (hreset : code ≠ 0) (hstart : code ≠ 1)
    (h : exec (commandOfCode code a) s = .next t) : SameEngine s t := by
  rcases commandOfCode_cases code a with hc | hc | hc | hc | hc | hc | ⟨x, hc⟩
  · exact absurd hc (commandOfCode_ne_cmdReset hreset a)
  · exact absurd hc (commandOfCode_ne_cmdStart hstart a _ _ _)
  all_goals rw [hc] at h
  · exact execCmdRead_sameEngine h
  · exact execCmdQueryType_sameEngine h
  · exact execCmdQueryWasted_sameEngine h
  · cases h; exact .respond s _
  · cases h; exact .respond s _

/-- Where the next event is a command and neither START nor RESET, its code is neither theirs. -/
theorem code_of_not_nextIsStartOrReset {s : State} {a : Arrival} {rest : List Arrival} {c : Command}
    (hin : s.inbox = a :: rest) (hev : a.event = .command c) (h : nextIsStartOrReset s = false) :
    c.code.toNat ≠ 0 ∧ c.code.toNat ≠ 1 := by
  have hcode : ¬ (c.code = 0 ∨ c.code = 1) := by simpa [nextIsStartOrReset, hin, hev] using h
  constructor <;> (intro hn; exact hcode (by bv_omega))

/-- Settles O51, by what a step between decodes can do (`step_idle_cases`). -/
theorem nothingChangesBetweenDecodes : Obligations.NothingChangesBetweenDecodes := by
  intro s t hidle hother hstep
  show SameEngine s t
  rcases step_idle_cases hidle hstep with ⟨_, rfl⟩ | ⟨_, rest, bits, pos, _, rfl⟩ | ⟨_, rest, c, hin, hev, hexec⟩
  · exact .refl t
  · exact .withStream s rest bits _
  · obtain ⟨hreset, hstart⟩ := code_of_not_nextIsStartOrReset hin hev hother
    exact (SameEngine.withInbox s rest).trans (exec_command_sameEngine hreset hstart hexec)

end Sys2Proof.Machine
end

section
/-! PROOFS. The bit input (R32 to R34) and the registers a signed field is kept in (R9, R23): the value of a field as the sum of its
bits, the unary count, and two's complement. -/

namespace Sys2Proof

/-- The sum of R32: the first of `n` bits is the most significant. -/
def msbFirstSum (n : Nat) (bits : List Bool) : Nat :=
  ((List.range n).map fun j => (bits.getD j false).toNat * 2 ^ (n - 1 - j)).sum

@[simp] theorem msbFirstSum_zero (bits : List Bool) : msbFirstSum 0 bits = 0 := rfl

theorem msbFirstSum_cons (n : Nat) (b : Bool) (bits : List Bool) :
    msbFirstSum (n + 1) (b :: bits) = b.toNat * 2 ^ n + msbFirstSum n bits := by
  simp [msbFirstSum, List.range_succ_eq_map, Function.comp_def, Nat.sub_sub, Nat.add_comm 1]

theorem takeBits_of_le {n : Nat} {bits : List Bool} (h : n ≤ bits.length) :
    takeBits n bits = some (msbFirstSum n bits, bits.drop n) := by
  induction n generalizing bits with
  | zero => rfl
  | succ n ih =>
    cases bits with
    | nil => simp at h
    | cons b bits => simp [takeBits, ih (Nat.le_of_succ_le_succ h), msbFirstSum_cons]

end Sys2Proof

namespace Sys2Proof.Machine

/-! ## Fields -/

theorem State.advanceTo_drop {n : Nat} {s : State} (h : n ≤ s.unread.length) :
    s.advanceTo (s.unread.drop n) = s.consumed n := by
  rw [State.advanceTo_eq_consumed, List.length_drop, Nat.sub_sub_self h]

@[simp] theorem State.consumed_unread (n : Nat) (s : State) : (s.consumed n).unread = s.unread.drop n := by
  simp [State.unread, List.drop_drop]

/-- Settles O4, by `takeBits_none` and `takeBits_of_le`. -/
theorem fieldIsReadMsbFirst : Obligations.FieldIsReadMsbFirst := fun n s =>
  ⟨takeBits_none, fun h => ⟨takeBits_of_le h, State.advanceTo_drop h, s.consumed_unread n⟩⟩

/-! ## Unary codes -/

theorem readUnary_none_iff {bits : List Bool} : readUnary bits = none ↔ ∀ b ∈ bits, b = false := by
  induction bits with
  | nil => simp [readUnary]
  | cons b bits ih =>
    cases b with
    | true => simp [readUnary]
    | false =>
      simp only [readUnary, List.forall_mem_cons, true_and, ← ih]
      cases readUnary bits with
      | none => simp
      | some r => simp

/-- Settles O5: the count is the length of the run of zeros (`readUnary_some`, `readUnary_code`). -/
theorem unaryCountsZeros : Obligations.UnaryCountsZeros := fun _ =>
  ⟨fun n rest => ⟨readUnary_some, fun h => h ▸ readUnary_code n rest⟩, readUnary_none_iff⟩

/-! ## Two's complement -/

theorem sext_zero (v : Nat) : sext 0 v = 0 := rfl

theorem readS_zero (bits : List Bool) : readS 0 bits = .value 0 bits := rfl

/-- The two cases of R9: the top bit of the pattern clear or set. -/
theorem sext_succ_cases (n v : Nat) :
    (v < 2 ^ n ∧ sext (n + 1) v = v) ∨ (2 ^ n ≤ v ∧ sext (n + 1) v = v - (2 : Int) ^ (n + 1)) := by
  rcases Nat.lt_or_ge v (2 ^ n) with h | h
  · exact .inl ⟨h, by simp [sext, h]⟩
  · exact .inr ⟨h, by simp [sext, Nat.not_lt.mpr h]⟩

theorem sext_succ_bounds {n v : Nat} (hv : v < 2 ^ (n + 1)) :
    -(2 : Int) ^ n ≤ sext (n + 1) v ∧ sext (n + 1) v < (2 : Int) ^ n := by
  zify at hv
  rw [pow_succ'] at hv
  rcases sext_succ_cases n v with ⟨hclear, hs⟩ | ⟨hset, hs⟩
  · zify at hclear
    omega
  · zify at hset
    rw [pow_succ'] at hs
    omega

theorem sext_succ_congr (n v : Nat) : (sext (n + 1) v - (v : Int)) % (2 : Int) ^ (n + 1) = 0 := by
  rcases sext_succ_cases n v with ⟨_, hs⟩ | ⟨_, hs⟩
  · simp [hs]
  · simp [hs]

/-- A register of `w + 1` bits keeps the representative of `v` modulo `2^(w+1)` that lies in its range. -/
theorem toInt_ofInt_wraps (w : Nat) (v : Int) :
    -(2 : Int) ^ w ≤ (BitVec.ofInt (w + 1) v).toInt ∧ (BitVec.ofInt (w + 1) v).toInt < (2 : Int) ^ w ∧
      ((BitVec.ofInt (w + 1) v).toInt - v) % (2 : Int) ^ (w + 1) = 0 := by
  refine ⟨BitVec.le_toInt _, BitVec.toInt_lt, ?_⟩
  rw [BitVec.toInt_ofInt]
  simpa using Int.emod_eq_emod_iff_emod_sub_eq_zero.mp (Int.bmod_emod (x := v) (m := 2 ^ (w + 1)))

theorem wrap32_of_fits {v : Int} (hlo : -(2 : Int) ^ 31 ≤ v) (hhi : v < (2 : Int) ^ 31) : (wrap32 v).toInt = v :=
  BitVec.toInt_ofInt_eq_self (by decide) hlo hhi

theorem wrap32_sext {n v : Nat} (hn : n < 32) (hv : v < 2 ^ (n + 1)) :
    (wrap32 (sext (n + 1) v)).toInt = sext (n + 1) v := by
  obtain ⟨hlo, hhi⟩ := sext_succ_bounds hv
  have hpow : (2 : Int) ^ n ≤ 2 ^ 31 := pow_le_pow_right₀ (by norm_num) (Nat.le_of_lt_succ hn)
  exact wrap32_of_fits (by omega) (by omega)

/-- Settles O7: `sext_n` by its two cases (`sext_succ_cases`), the registers by one lemma for every width (`toInt_ofInt_wraps`). -/
theorem signedFieldIsTwosComplement : Obligations.SignedFieldIsTwosComplement := by
  refine ⟨sext_zero, readS_zero, fun n v hn hn' hv => ?_, toInt_ofInt_wraps 31, toInt_ofInt_wraps 63⟩
  obtain ⟨m, rfl⟩ := Nat.exists_eq_add_of_le' hn
  obtain ⟨hlo, hhi⟩ := sext_succ_bounds hv
  exact ⟨hlo, hhi, sext_succ_congr m v, wrap32_sext hn' hv⟩

end Sys2Proof.Machine
end

section
/-! PROOFS. The Rice code (R59, R103): its bits read back to the value they were written for, the folding fits the
register, and a quotient too large is found before the remainder is read. -/

namespace Sys2Proof.Machine

/-- The two cases of R59: an even value folds to the nonnegative side, an odd one to the negative side. -/
theorem foldRice_cases (u : Nat) :
    (∃ m : Nat, u = 2 * m ∧ foldRice u = m) ∨ (∃ m : Nat, u = 2 * m + 1 ∧ foldRice u = -(m : Int) - 1) := by
  rcases Nat.even_or_odd' u with ⟨m, rfl | rfl⟩
  · exact .inl ⟨m, rfl, by rw [foldRice, if_pos (by omega)]; omega⟩
  · exact .inr ⟨m, rfl, by rw [foldRice, if_neg (by omega)]; omega⟩

theorem wrap32_foldRice {u : Nat} (hu : u < 2 ^ 32) : (wrap32 (foldRice u)).toInt = foldRice u := by
  rcases foldRice_cases u with ⟨m, rfl, hf⟩ | ⟨m, rfl, hf⟩
  · exact wrap32_of_fits (by omega) (by omega)
  · exact wrap32_of_fits (by omega) (by omega)

theorem readRice_overflow {k q : Nat} (hq : 2 ^ (32 - k) ≤ q) (rest : List Bool) :
    readRice k (List.replicate q false ++ true :: rest) = .overflow := by
  simp [readRice, readUnary_code, hq]

/-- The quotient of a 32-bit value stays below the bound of R103. -/
theorem riceQuotient_lt {k u : Nat} (hk : k ≤ 32) (hu : u < 2 ^ 32) : u / 2 ^ k < 2 ^ (32 - k) := by
  rwa [Nat.div_lt_iff_lt_mul (by positivity), Nat.pow_sub_mul_pow 2 hk]

theorem readRice_riceBits {k u : Nat} (hk : k ≤ 32) (hu : u < 2 ^ 32) (rest : List Bool) :
    readRice k (riceBits k u ++ rest) = .value (wrap32 (foldRice u)) rest := by
  have hq : ¬ 2 ^ (32 - k) ≤ u / 2 ^ k := Nat.not_le.mpr (riceQuotient_lt hk hu)
  have hr : u % 2 ^ k < 2 ^ k := Nat.mod_lt u (by positivity)
  simp only [readRice, riceBits, List.append_assoc, List.cons_append, readUnary_code, if_neg hq, takeBits_of_lt hr,
    Nat.div_add_mod']

/-- Settles O6: the code's quotient and remainder are read back (`readRice_riceBits`, `readRice_overflow`), and the folding fits
(`wrap32_foldRice`). -/
theorem riceCodeReadsFoldedValue : Obligations.RiceCodeReadsFoldedValue := fun _ rest hk =>
  ⟨fun _ hu => ⟨readRice_riceBits (by omega) hu rest, wrap32_foldRice hu⟩, fun _ hq => readRice_overflow hq rest⟩

end Sys2Proof.Machine
end

section
/-! PROOFS. The residual counts of the partitions (R57). -/

namespace Sys2Proof.Machine

@[simp] theorem State.residualCount_zero (s : State) : s.residualCount 0 = s.partitionSamples - s.order.toNat := rfl

@[simp] theorem State.residualCount_succ (s : State) (q : Nat) : s.residualCount (q + 1) = s.partitionSamples := rfl

/-- The first `n + 1` partitions: the first one is short of the warm-up samples, the others are whole. -/
theorem State.residualCount_sum (s : State) (n : Nat) :
    ((List.range (n + 1)).map s.residualCount).sum = (s.partitionSamples - s.order.toNat) + n * s.partitionSamples := by
  simp [List.range_succ_eq_map, Function.comp_def]

theorem State.partitionCount_pos (s : State) : 0 < s.partitionCount := Nat.two_pow_pos _

/-- The partitions fill the block when it is aligned (R99). -/
theorem State.partitionCount_mul_partitionSamples {s : State} (h : s.blockSize % s.partitionCount = 0) :
    s.partitionCount * s.partitionSamples = s.blockSize :=
  Nat.mul_div_cancel' (Nat.dvd_of_mod_eq_zero h)

theorem State.residualCount_total {s : State} (horder : s.order.toNat ≤ s.partitionSamples)
    (haligned : s.blockSize % s.partitionCount = 0) :
    ((List.range s.partitionCount).map s.residualCount).sum = s.blockSize - s.order.toNat := by
  obtain ⟨n, hn⟩ := Nat.exists_eq_add_of_le' s.partitionCount_pos
  calc ((List.range s.partitionCount).map s.residualCount).sum
      = (s.partitionSamples - s.order.toNat) + n * s.partitionSamples := by rw [hn, s.residualCount_sum]
    _ = (n + 1) * s.partitionSamples - s.order.toNat := by rw [Nat.succ_mul]; omega
    _ = s.blockSize - s.order.toNat := by rw [← hn, State.partitionCount_mul_partitionSamples haligned]

/-- Settles O29: the counts by their definition, the sum by `State.residualCount_total`. -/
theorem partitionCountsSumToResiduals : Obligations.PartitionCountsSumToResiduals := fun _ =>
  ⟨fun _ => rfl, State.residualCount_total⟩

end Sys2Proof.Machine
end

section
/-! PROOFS. The order check of the header (R69 to R72): every legal type code reads one header, whose order is checked after the
wasted count. -/

namespace Sys2Proof.Machine

/-- Whichever row a legal type code selects, its instruction reads the shared header (R69, R71). -/
theorem exec_instrOfType_readHeader {t : Nat} {s : State} (ht : t < 64) (hlegal : typeReserved t = false) (wf : Bool)
    (hphase : s.phase = .readHeader) :
    exec (instrOfType t wf) s = header t wf (if t < 2 then .readRaw else .readWarmup) s := by
  rcases typeReserved_false ht hlegal with rfl | rfl | hfixed | hlpc
  · simp [instrOfType, exec, execConstant, hphase]
  · simp [instrOfType, exec, execVerbatim, hphase]
  · obtain ⟨cs, _, hexec, _⟩ := exec_fixedInstr (n := t - 8) (by omega) wf
    rw [instrOfType_fixed hfixed, hexec, if_neg (by omega), Nat.add_sub_cancel' hfixed.1]
    simp [fixedPhases, hphase]
  · have hcode : 32 + (BitVec.ofNat 5 t).toNat = t := by rw [BitVec.toNat_ofNat]; omega
    rw [instrOfType_lpc hlpc.1, if_neg (by omega)]
    simp only [exec, execLpc, hphase, hcode]

/-- `s` with the header read: type code `t` dispatched, `n` bits of wasted count consumed, and `w` in `WASTED` (R69, R70). -/
def State.headerRead (t n : Nat) (w : BitVec 5) (s : State) : State := { (s.dispatch t).consumed n with wasted := w }

@[simp] theorem State.headerRead_blockSize (t n : Nat) (w : BitVec 5) (s : State) :
    (s.headerRead t n w).blockSize = s.blockSize := rfl

@[simp] theorem State.headerRead_variant (t n : Nat) (w : BitVec 5) (s : State) :
    (s.headerRead t n w).variant = variantOfType t := rfl

@[simp] theorem State.headerRead_order_toNat (t n : Nat) (w : BitVec 5) (s : State) :
    (s.headerRead t n w).order.toNat = orderOfType t :=
  Nat.mod_eq_of_lt orderOfType_lt

/-- The order check (R72), the last thing the header does. -/
def State.checkOrder (body : Phase) (u : State) : Result :=
  if u.blockSize < u.order.toNat then .next (raiseStream .orderExceedsBlock u) else .next (u.enter body)

theorem State.checkOrder_above {u : State} (body : Phase) (h : u.blockSize < u.order.toNat) :
    u.checkOrder body = .next (raiseStream .orderExceedsBlock u) := if_pos h

theorem State.checkOrder_within {u : State} (body : Phase) (h : u.order.toNat ≤ u.blockSize) :
    u.checkOrder body = .next (u.enter body) := if_neg (Nat.not_lt.mpr h)

theorem header_absent (t : Nat) (body : Phase) (s : State) :
    header t false body s = (s.headerRead t 0 0).checkOrder body := rfl

theorem header_code {n : Nat} {rest : List Bool} {s : State} (t : Nat) (body : Phase)
    (hcode : s.unread = List.replicate n false ++ true :: rest) (hlegal : n + 1 < s.cfgBps.toNat) :
    header t true body s = (s.headerRead t (n + 1) (latch 5 (n + 1))).checkOrder body :=
  (readWasted_code (s := s.dispatch t) _ hcode).trans (if_neg (Nat.not_le.mpr hlegal))

/-- The ways a header ends: in FAILED, or with its fields written and the order checked (R69 to R72). -/
theorem header_cases (t : Nat) (wf : Bool) (body : Phase) (s : State) :
    (∃ err cause u, header t wf body s = .next (raise err cause u)) ∨
      ∃ n w, header t wf body s = (s.headerRead t n w).checkOrder body := by
  cases wf with
  | false => exact .inr ⟨0, 0, rfl⟩
  | true =>
    cases hcode : readUnary s.unread with
    | none => exact .inl ⟨_, _, _, readWasted_short (s := s.dispatch t) _ hcode⟩
    | some code =>
      have hheader := readWasted_code (s := s.dispatch t)
        (fun u => u.checkOrder body) (readUnary_some (n := code.1) (rest := code.2) hcode)
      rcases Nat.lt_or_ge (code.1 + 1) s.cfgBps.toNat with hlegal | hlarge
      · exact .inr ⟨_, _, hheader.trans (if_neg (Nat.not_le.mpr hlegal))⟩
      · exact .inl ⟨_, _, _, hheader.trans (if_pos hlarge)⟩

/-- A reserved type code is rejected, whichever row it selects (R71). -/
theorem exec_instrOfType_reserved {t : Nat} (h : typeReserved t = true) (wf : Bool) (s : State) :
    ∃ code, exec (instrOfType t wf) s = rejectType code s := by
  unfold instrOfType
  rcases typeReserved_true h with ht | ht | ht | ht | ht
  all_goals
    repeat rw [if_neg (by omega)]
    rw [if_pos (by omega)]
    exact ⟨_, rfl⟩

/-- Settles O15: the header of a Fixed or LPC type code (`exec_instrOfType_readHeader`), without a wasted count (`header_absent`)
and after a legal one (`header_code`). -/
theorem orderAboveBlockIsRejected : Obligations.OrderAboveBlockIsRejected := by
  intro s t k rest hphase ht
  have hlegal : typeReserved t = false := by simp [typeReserved]; omega
  have horder : (if t < 32 then t - 8 else t - 31) = orderOfType t := by
    rcases ht with hfixed | hlpc
    · rw [if_pos (by omega), orderOfType_fixed hfixed]
    · rw [if_neg (by omega), orderOfType_lpc hlpc]
  have hexec := fun wf => exec_instrOfType_readHeader (by omega) hlegal wf hphase
  rw [horder]
  refine ⟨fun habove => ?_, fun habove hcode hbps => ?_, fun hequal => ?_⟩
  · rw [hexec, header_absent, State.checkOrder_above _ (by simpa using habove)]
    exact failsWith_raise _ _ rfl rfl rfl rfl rfl rfl rfl rfl
  · rw [hexec, header_code t _ hcode hbps, State.checkOrder_above _ (by simpa using habove)]
    exact failsWith_raise _ _ rfl rfl rfl rfl rfl rfl rfl rfl
  · rw [hexec, header_absent, State.checkOrder_within _ (by simp [hequal]), if_neg (by omega)]
    exact ⟨_, rfl, rfl⟩

end Sys2Proof.Machine
end

section
/-! PROOFS. What the shared operations and the decoder do, where an operation answers a next state: one lemma each, for the
sections below to cite. -/

namespace Sys2Proof.Machine

/-! ## Buffers -/

@[simp] theorem State.setBuffer_variant (s : State) (b : Buffer) (m : Memory) : (s.setBuffer b m).variant = s.variant := by
  cases b <;> rfl

@[simp] theorem State.setBuffer_phase (s : State) (b : Buffer) (m : Memory) : (s.setBuffer b m).phase = s.phase := by
  cases b <;> rfl

/-- A run of reads into a buffer that ends with its last code. -/
theorem readInto_of_runEnd {cls : ReadClass} {b : Buffer} {base n : Nat} {code : List Bool → CodeRead} {s : State}
    {k : State → Result} {rest : List Bool} (hcap : base + n ≤ b.capacity)
    (h : (readRun code n s.unread).2 = .complete rest) :
    readInto cls b base n code s k =
      k ((s.setBuffer b (Memory.writeRun (s.buffer b) base (readRun code n s.unread).1)).advanceTo rest) := by
  rcases readInto_cases hcap with ⟨rest', hend, heq⟩ | ⟨hend, _⟩ | ⟨hend, _⟩
  · cases h.symm.trans hend
    exact heq
  · cases h.symm.trans hend
  · cases h.symm.trans hend

/-! ## One pass of each loop over the block (R76, R79, R90) -/

theorem withWord_eq_next {b : Buffer} {i : Nat} {s t : State} {k : Word → Result} :
    withWord b i s k = .next t ↔ ∃ v, Memory.read (s.buffer b) i = some v ∧ k v = .next t := by
  unfold withWord
  cases Memory.read (s.buffer b) i <;> simp

theorem withHistory_eq_next {i n : Nat} {s t : State} {k : List Word → Result} :
    withHistory i n s k = .next t ↔ ∃ vs, Memory.readDown s.x i n = some vs ∧ k vs = .next t := by
  unfold withHistory
  cases Memory.readDown s.x i n <;> simp

theorem shiftSample_eq_next {i : Nat} {s t : State} (h : shiftSample i s = .next t) :
    ∃ v, Memory.read s.x i = some v ∧ t = { s with x := Memory.write s.x i (wrap32 (v.toInt * 2 ^ s.wasted.toNat)) } := by
  obtain ⟨v, hv, hwrite⟩ := withWord_eq_next.mp h
  exact ⟨v, hv, (writeWords_eq_next.mp hwrite).2⟩

theorem fixedSample_eq_next {coeffs : List Int} {i : Nat} {s t : State} (h : fixedSample coeffs i s = .next t) :
    ∃ e past, i < 65535 ∧ Memory.read s.e (i - s.order.toNat) = some e ∧ Memory.readDown s.x i coeffs.length = some past ∧
      t = { s with x := Memory.write s.x i (wrap32 (e.toInt + dot coeffs (past.map BitVec.toInt))) } := by
  obtain ⟨e, he, hrest⟩ := withWord_eq_next.mp h
  obtain ⟨past, hpast, hwrite⟩ := withHistory_eq_next.mp hrest
  obtain ⟨hi, ht⟩ := writeWords_eq_next.mp hwrite
  exact ⟨e, past, hi, he, hpast, ht⟩

theorem lpcSample_eq_next {coeffs : List Int} {i : Nat} {s t : State} (h : lpcSample coeffs i s = .next t) :
    ∃ e past, i < 65535 ∧ Memory.read s.e (i - s.order.toNat) = some e ∧ Memory.readDown s.x i coeffs.length = some past ∧
      t = { s with
        x := Memory.write s.x i (wrap32 (e.toInt +
          ((wrap64 (dot coeffs (past.map BitVec.toInt))).sshiftRight s.shift.toNat).toInt))
        acc := wrap64 (dot coeffs (past.map BitVec.toInt)) } := by
  obtain ⟨e, he, hrest⟩ := withWord_eq_next.mp h
  obtain ⟨past, hpast, hwrite⟩ := withHistory_eq_next.mp hrest
  obtain ⟨hi, ht⟩ := writeWords_eq_next.mp hwrite
  exact ⟨e, past, hi, he, hpast, ht⟩

/-! ## Fetching -/

/-- The residual-header decoder reads a reserved method or the header of one of the two methods (R56). -/
theorem decodeResidualHeader_item {bits rest : List Bool} {i : Instr} (h : decodeResidualHeader bits = .item i rest) :
    (∃ x, i = .resReserved x) ∨ (∃ p, i = .resRice p) ∨ ∃ p, i = .resRice2 p := by
  unfold decodeResidualHeader at h
  split at h
  · cases h; exact .inl ⟨_, rfl⟩
  · split at h
    · cases h
    · cases h
      split
      · exact .inr (.inr ⟨_, rfl⟩)
      · exact .inr (.inl ⟨_, rfl⟩)
  · cases h

theorem decodePartition4_item {bits rest : List Bool} {i : Instr} (h : decodePartition4 bits = .item i rest) :
    i = .partEsc4 ∨ ∃ k, i = .partRice4 k := by
  unfold decodePartition4 at h
  split at h
  · cases h
  · cases h
    split
    · exact .inl rfl
    · exact .inr ⟨_, rfl⟩

theorem decodePartition5_item {bits rest : List Bool} {i : Instr} (h : decodePartition5 bits = .item i rest) :
    i = .partEsc5 ∨ ∃ k, i = .partRice5 k := by
  unfold decodePartition5 at h
  split at h
  · cases h
  · cases h
    split
    · exact .inl rfl
    · exact .inr ⟨_, rfl⟩

theorem State.shortResidualHeader_variant (s : State) : s.shortResidualHeader.variant = s.variant := by
  unfold State.shortResidualHeader
  split
  · rfl
  · rfl

/-- What comes of a fetched action. -/
def Fetched.outcome : Fetched → Result
  | .run i t => exec i t
  | .without t => .next t
  | .stop f => .fault f

theorem step_eq_outcome (s : State) : step s = (fetch s).outcome := by
  cases h : fetch s with
  | run i t => exact step_run h
  | without t => exact step_without h
  | stop f => exact step_stop h

end Sys2Proof.Machine
end

section
/-! PROOFS. The phase order (R67): each meaning, from its phase, goes on to a phase that the variant's sequence allows, and after
the header none of them changes the variant. -/

namespace Sys2Proof.Machine

/-- Every next state of `r` is in a phase that may follow `p` in the order of its variant, and from the header on that variant
is `v`. -/
def InOrder (v : Variant) (p : Phase) (r : Result) : Prop :=
  ∀ t, r = .next t → phaseFollows t.variant p t.phase = true ∧ (p ≠ .readHeader → t.variant = v)

/-! ## The shared operations -/

theorem InOrder.next {v : Variant} {p : Phase} {t : State} (hv : t.variant = v) (hp : phaseFollows v p t.phase = true) :
    InOrder v p (.next t) := by
  rintro _ ⟨⟩
  exact ⟨hv ▸ hp, fun _ => hv⟩

theorem InOrder.fault {v : Variant} {p : Phase} (f : Fault) : InOrder v p (.fault f) := by
  rintro _ ⟨⟩

theorem InOrder.andThen {v : Variant} {p : Phase} {r : Result} {k : State → Result}
    (hk : ∀ u, r = .next u → InOrder v p (k u)) : InOrder v p (andThen r k) := by
  intro t ht
  obtain ⟨u, hu, ht⟩ := andThen_eq_next.mp ht
  exact hk u hu t ht

theorem writeWords_variant {b : Buffer} {base : Nat} {vs : List Word} {s t : State} (h : writeWords b base vs s = .next t) :
    t.variant = s.variant := by
  rw [(writeWords_eq_next.mp h).2, State.setBuffer_variant]

theorem InOrder.readInto {v : Variant} {p : Phase} {cls : ReadClass} {b : Buffer} {base n : Nat}
    {code : List Bool → CodeRead} {s : State} {k : State → Result} (hs : s.variant = v)
    (hfail : phaseFollows v p .failed = true) (hk : ∀ u, u.variant = v → u.phase = s.phase → InOrder v p (k u)) :
    InOrder v p (readInto cls b base n code s k) := by
  refine .andThen fun u hu => ?_
  obtain ⟨_, rfl⟩ := writeWords_eq_next.mp hu
  have hv := (s.setBuffer_variant b (Memory.writeRun (s.buffer b) base (readRun code n s.unread).1)).trans hs
  split
  · exact hk _ hv (s.setBuffer_phase b _)
  · exact .next hv hfail
  · exact .next hv hfail

theorem InOrder.withField {v : Variant} {p : Phase} {cls : ReadClass} {n : Nat} {s : State} {k : Nat → State → Result}
    (hs : s.variant = v) (hfail : phaseFollows v p .failed = true)
    (hk : ∀ w u, u.variant = v → u.phase = s.phase → InOrder v p (k w u)) : InOrder v p (withField cls n s k) := by
  unfold Machine.withField
  split
  · exact .next hs hfail
  · exact hk _ _ hs rfl

theorem forEach_variant {body : Nat → State → Result} (hbody : ∀ i s t, body i s = .next t → t.variant = s.variant)
    {n i : Nat} {s t : State} (h : forEach body n i s = .next t) : t.variant = s.variant :=
  forEach_keeps (fun a b => b.variant = a.variant) (fun _ => rfl) (fun _ _ _ hab hbc => hbc.trans hab) hbody h

theorem shiftSample_variant (i : Nat) (s t : State) (h : shiftSample i s = .next t) : t.variant = s.variant := by
  obtain ⟨_, _, rfl⟩ := shiftSample_eq_next h
  rfl

theorem fixedSample_variant (coeffs : List Int) (i : Nat) (s t : State) (h : fixedSample coeffs i s = .next t) :
    t.variant = s.variant := by
  obtain ⟨_, _, _, _, _, rfl⟩ := fixedSample_eq_next h
  rfl

theorem lpcSample_variant (coeffs : List Int) (i : Nat) (s t : State) (h : lpcSample coeffs i s = .next t) :
    t.variant = s.variant := by
  obtain ⟨_, _, _, _, _, rfl⟩ := lpcSample_eq_next h
  rfl

theorem complete_inOrder {v : Variant} {p : Phase} {s : State} (hs : s.variant = v) (hdone : phaseFollows v p .done = true) :
    InOrder v p (complete s) :=
  .andThen fun _ hu => .next ((forEach_variant shiftSample_variant hu).trans hs) hdone

/-! ## The phases of the sub-frame instructions -/

theorem raise_header_inOrder (v : Variant) (err : Err) (cause : Cause) (u : State) :
    InOrder v .readHeader (.next (raise err cause u)) := by
  rintro _ ⟨⟩
  exact ⟨rfl, fun h => absurd rfl h⟩

/-- The body's phase follows the header in the order of the variant the type code selects (R67, R71). -/
theorem phaseFollows_body (t : Nat) :
    phaseFollows (variantOfType t) .readHeader (if t < 2 then .readRaw else .readWarmup) = true := by
  unfold variantOfType
  by_cases h : t < 2
  · obtain rfl | rfl : t = 0 ∨ t = 1 := by omega
    · rfl
    · rfl
  · rw [if_neg (by omega), if_neg (by omega), if_neg h]
    split
    · rfl
    · rfl

theorem header_inOrder (v : Variant) (t : Nat) (wf : Bool) (s : State) :
    InOrder v .readHeader (header t wf (if t < 2 then .readRaw else .readWarmup) s) := by
  rcases header_cases t wf (if t < 2 then .readRaw else .readWarmup) s with ⟨err, cause, u, h⟩ | ⟨n, w, h⟩
  · rw [h]
    exact raise_header_inOrder v err cause u
  · rw [h, State.checkOrder]
    split
    · exact raise_header_inOrder v _ _ _
    · rintro _ ⟨⟩
      exact ⟨phaseFollows_body t, fun h => absurd rfl h⟩

theorem warmup_inOrder {v : Variant} {following : Phase} {s : State} (hs : s.variant = v)
    (hfollowing : phaseFollows v .readWarmup following = true) : InOrder v .readWarmup (warmup following s) :=
  .readInto hs rfl fun _ hu _ => .next hu hfollowing

theorem constantBody_inOrder {v : Variant} {s : State} (hs : s.variant = v) : InOrder v .readRaw (constantBody s) := by
  unfold constantBody
  split
  · exact .andThen fun _ hu => complete_inOrder ((writeWords_variant hu).trans hs) rfl
  · exact .next hs rfl
  · exact .next hs rfl

theorem verbatimBody_inOrder {v : Variant} {s : State} (hs : s.variant = v) : InOrder v .readRaw (verbatimBody s) :=
  .readInto hs rfl fun _ hu _ => complete_inOrder hu rfl

theorem fixedRestore_inOrder {v : Variant} (coeffs : List Int) {s : State} (hs : s.variant = v) :
    InOrder v .restore (fixedRestore coeffs s) :=
  .andThen fun _ hu => complete_inOrder ((forEach_variant (fixedSample_variant coeffs) hu).trans hs) rfl

theorem lpcParams_inOrder {v : Variant} {s : State} (hs : s.variant = v) : InOrder v .readPredParams (lpcParams s) := by
  refine .withField hs rfl fun f u hu _ => ?_
  split
  · exact .next hu rfl
  · refine .withField hu rfl fun sh w hw _ => ?_
    split
    · exact .next hw rfl
    · exact .readInto hw rfl fun _ ht _ => .next ht rfl

theorem lpcRestore_inOrder {v : Variant} {s : State} (hs : s.variant = v) : InOrder v .restore (lpcRestore s) := by
  unfold lpcRestore
  split
  · exact .fault _
  · exact .andThen fun _ hu => complete_inOrder ((forEach_variant (lpcSample_variant _) hu).trans hs) rfl

/-! ## The sub-frame instructions after their header -/

theorem execConstant_inOrder {wf : Bool} {s : State} (hphase : s.phase ≠ .readHeader) :
    InOrder s.variant s.phase (execConstant wf s) := by
  unfold execConstant
  split
  next h => exact absurd h hphase
  next h => rw [h]; exact constantBody_inOrder rfl
  next => exact .fault _

theorem execVerbatim_inOrder {wf : Bool} {s : State} (hphase : s.phase ≠ .readHeader) :
    InOrder s.variant s.phase (execVerbatim wf s) := by
  unfold execVerbatim
  split
  next h => exact absurd h hphase
  next h => rw [h]; exact verbatimBody_inOrder rfl
  next => exact .fault _

theorem fixedPhases_inOrder {code : Nat} {coeffs : List Int} {wf : Bool} {s : State} (hphase : s.phase ≠ .readHeader)
    (hv : s.variant = .fixed) : InOrder s.variant s.phase (fixedPhases code coeffs wf s) := by
  unfold fixedPhases
  split
  next h => exact absurd h hphase
  next h => rw [h, hv]; exact warmup_inOrder hv rfl
  next h => rw [h]; exact fixedRestore_inOrder coeffs rfl
  next => exact .fault _

theorem execLpc_inOrder {o : BitVec 5} {wf : Bool} {s : State} (hphase : s.phase ≠ .readHeader) (hv : s.variant = .lpc) :
    InOrder s.variant s.phase (execLpc o wf s) := by
  unfold execLpc
  split
  next h => exact absurd h hphase
  next h => rw [h, hv]; exact warmup_inOrder hv rfl
  next h => rw [h]; exact lpcParams_inOrder rfl
  next h => rw [h]; exact lpcRestore_inOrder rfl
  next => exact .fault _

/-- A sub-frame instruction of a legal type code keeps the order in every phase, where after the header the variant is the one
the type code selects. -/
theorem exec_instrOfType_inOrder {t : Nat} {s : State} (ht : t < 64) (hlegal : typeReserved t = false) (wf : Bool)
    (hv : s.phase ≠ .readHeader → s.variant = variantOfType t) :
    InOrder s.variant s.phase (exec (instrOfType t wf) s) := by
  by_cases hphase : s.phase = .readHeader
  · rw [exec_instrOfType_readHeader ht hlegal wf hphase, hphase]
    exact header_inOrder _ t wf s
  · rcases typeReserved_false ht hlegal with rfl | rfl | hfixed | hlpc
    · exact execConstant_inOrder hphase
    · exact execVerbatim_inOrder hphase
    · obtain ⟨coeffs, _, hexec, _⟩ := exec_fixedInstr (n := t - 8) (by omega) wf
      rw [instrOfType_fixed hfixed, hexec]
      exact fixedPhases_inOrder hphase ((hv hphase).trans (variantOfType_fixed hfixed))
    · rw [instrOfType_lpc hlpc.1]
      exact execLpc_inOrder hphase ((hv hphase).trans (variantOfType_lpc hlpc.1))

theorem rejectType_inOrder (v : Variant) (code : Nat) {s : State} (hphase : s.phase = .readHeader) :
    InOrder v .readHeader (rejectType code s) := by
  rw [rejectType, hphase]
  exact raise_header_inOrder v _ _ _

/-! ## The residual section -/

theorem nextPartition_inOrder {v : Variant} (q j : Nat) {s : State} (hs : s.variant = v) (hphase : s.phase = .decodeResidual) :
    InOrder v .decodeResidual (.next (nextPartition q j s)) := by
  unfold nextPartition
  split
  · exact .next hs (by simp [hphase, phaseFollows])
  · exact .next hs rfl

theorem readPartition_inOrder {v : Variant} (code : List Bool → CodeRead) (at_ : ResidualProgress) {s : State}
    (hs : s.variant = v) (hphase : s.phase = .decodeResidual) : InOrder v .decodeResidual (readPartition code at_ s) :=
  .readInto hs rfl fun _ hu hsame => nextPartition_inOrder _ _ hu (hsame.trans hphase)

theorem atResidualHeader_inOrder {v : Variant} {p : Phase} {s : State} {r : Result} (hr : InOrder v p r) :
    InOrder v p (atResidualHeader s r) := by
  unfold atResidualHeader
  split
  · exact hr
  · exact .fault _

theorem atPartition_inOrder {v : Variant} {p : Phase} {method : BitVec 1} {s : State} {k : ResidualProgress → Result}
    (hk : ∀ at_, InOrder v p (k at_)) : InOrder v p (atPartition method s k) := by
  unfold atPartition
  split
  · split
    · exact hk _
    · exact .fault _
  · exact .fault _

theorem residualHeader_inOrder {v : Variant} (method : BitVec 1) (p : BitVec 4) {s : State} (hs : s.variant = v)
    (hphase : s.phase = .decodeResidual) : InOrder v .decodeResidual (residualHeader method p s) := by
  refine atResidualHeader_inOrder ?_
  dsimp only
  split
  · exact .next hs rfl
  · split
    · exact .next hs rfl
    · exact .next hs (by simp [hphase, phaseFollows])

theorem ricePartition_inOrder {v : Variant} (method : BitVec 1) (k : Nat) {s : State} (hs : s.variant = v)
    (hphase : s.phase = .decodeResidual) : InOrder v .decodeResidual (ricePartition method k s) :=
  atPartition_inOrder fun at_ => readPartition_inOrder _ at_ hs hphase

theorem escapePartition_inOrder {v : Variant} (method : BitVec 1) {s : State} (hs : s.variant = v)
    (hphase : s.phase = .decodeResidual) : InOrder v .decodeResidual (escapePartition method s) :=
  atPartition_inOrder fun at_ => .withField hs rfl fun _ _ hu hsame => readPartition_inOrder _ at_ hu (hsame.trans hphase)

theorem exec_residualHeaderItem_inOrder {s : State} {bits rest : List Bool} {i : Instr}
    (hitem : decode .res bits { } = .item i rest) (hphase : s.phase = .decodeResidual) :
    InOrder s.variant .decodeResidual (exec i s) := by
  rcases decodeResidualHeader_item hitem with ⟨x, rfl⟩ | ⟨p, rfl⟩ | ⟨p, rfl⟩
  · exact atResidualHeader_inOrder (.next rfl rfl)
  · exact residualHeader_inOrder 0 p rfl hphase
  · exact residualHeader_inOrder 1 p rfl hphase

theorem exec_partitionItem_inOrder {s u : State} {bits rest : List Bool} {i : Instr}
    (hitem : decode u.partitionFormat bits { } = .item i rest) (hphase : s.phase = .decodeResidual) :
    InOrder s.variant .decodeResidual (exec i s) := by
  unfold State.partitionFormat at hitem
  split at hitem
  · rcases decodePartition4_item hitem with rfl | ⟨k, rfl⟩
    · exact escapePartition_inOrder 0 rfl hphase
    · exact ricePartition_inOrder 0 k.toNat rfl hphase
  · rcases decodePartition5_item hitem with rfl | ⟨k, rfl⟩
    · exact escapePartition_inOrder 1 rfl hphase
    · exact ricePartition_inOrder 1 k.toNat rfl hphase

/-! ## The step -/

theorem fetchItem_inOrder {v : Variant} {p : Phase} {f : Format} {short s : State}
    (hitem : ∀ i rest, decode f s.unread { } = .item i rest → InOrder v p (exec i (s.advanceTo rest)))
    (hshort : InOrder v p (.next (readFail .field short))) : InOrder v p (fetchItem f short s).outcome := by
  cases h : decode f s.unread { } with
  | item i rest => rw [fetchItem_item h]; exact hitem i rest h
  | rejected why => rw [fetchItem_rejected h]; exact hshort

theorem exec_headerItem_inOrder {s : State} {bits rest : List Bool} {i : Instr}
    (hitem : decode .hdr bits { } = .item i rest) (hphase : s.phase = .readHeader) :
    InOrder s.variant .readHeader (exec i s) := by
  rcases decodeHeader_item hitem with rfl | ⟨t, wf, ht, rfl⟩
  · show InOrder s.variant .readHeader (execReservedRsv s)
    rw [execReservedRsv, hphase]
    exact raise_header_inOrder _ _ _ _
  · cases hlegal : typeReserved t with
    | true =>
      obtain ⟨code, hexec⟩ := exec_instrOfType_reserved hlegal wf s
      rw [hexec]
      exact rejectType_inOrder _ code hphase
    | false =>
      have h := exec_instrOfType_inOrder ht hlegal wf (fun h => absurd hphase h)
      rwa [hphase] at h

/-- The engine's own next action keeps the order, where past the header `TYPE` is legal and has selected the variant. -/
theorem engineFetch_inOrder {s : State} (hcode : s.phase.pastHeader = true →
      typeReserved s.typeCode.toNat = false ∧ s.variant = variantOfType s.typeCode.toNat) :
    InOrder s.variant s.phase (engineFetch s).outcome := by
  have hinFlight : ∀ p, s.phase = p → p.pastHeader = true → InOrder s.variant p (exec s.inFlight s) := by
    rintro _ rfl hpast
    obtain ⟨hlegal, hvariant⟩ := hcode hpast
    exact exec_instrOfType_inOrder s.typeCode.isLt hlegal _ fun _ => hvariant
  unfold engineFetch
  cases hphase : s.phase with
  | idle => exact .next rfl (by simp [hphase, phaseFollows])
  | readHeader =>
    exact fetchItem_inOrder (fun i rest h => exec_headerItem_inOrder h hphase) (raise_header_inOrder _ _ _ _)
  | readRaw => exact hinFlight _ hphase rfl
  | readWarmup => exact hinFlight _ hphase rfl
  | readPredParams => exact hinFlight _ hphase rfl
  | decodeResidual =>
    dsimp only
    split
    · exact fetchItem_inOrder (fun i rest h => exec_residualHeaderItem_inOrder h hphase)
        (.next s.shortResidualHeader_variant rfl)
    · exact fetchItem_inOrder (fun i rest h => exec_partitionItem_inOrder h hphase) (.next rfl rfl)
  | restore => exact hinFlight _ hphase rfl
  | done => exact .next rfl (by simp [hphase, phaseFollows])
  | failed => exact .next rfl (by simp [hphase, phaseFollows])

theorem step_inOrder {s s' : State} (hinv : EngineInv s) (hmoves : EngineMoves s s') : InOrder s.variant s.phase (step s) := by
  rw [step_eq_outcome, fetch_of_engineMoves hmoves, hmoves.same]
  exact engineFetch_inOrder (s := { s with inbox := s'.inbox }) fun h => ⟨(hinv.header h).legal, (hinv.header h).variant⟩

/-- Settles O49: during a decode by `step_inOrder`, between decodes by `nothingChangesBetweenDecodes`. -/
theorem phasesFollowTheVariant : Obligations.PhasesFollowTheVariant := by
  refine ⟨fun s s' t hinv _ hmoves hstep => step_inOrder hinv hmoves t hstep, fun s t hphase hother hstep => ?_⟩
  have hidle : s.phase.busy = false := by rcases hphase with h | h <;> rw [h] <;> rfl
  rw [nothingChangesBetweenDecodes s t hidle hother hstep]

end Sys2Proof.Machine
end

section
/-! PROOFS. The wasted-bits law (R76, R77): what comes before the shift reads neither `WASTED` nor `CFG_BPS` but through the width
of a sample field, and the shift multiplies every sample by one power of two. -/

namespace Sys2Proof.Machine

/-- `s` with other values of the two registers that give a sample field its width (R39). -/
def State.withWidth (w : BitVec 5) (bps : BitVec 6) (s : State) : State := { s with wasted := w, cfgBps := bps }

@[simp] theorem State.withWidth_wasted (w : BitVec 5) (bps : BitVec 6) (s : State) : (s.withWidth w bps).wasted = w := rfl
@[simp] theorem State.withWidth_cfgBps (w : BitVec 5) (bps : BitVec 6) (s : State) : (s.withWidth w bps).cfgBps = bps := rfl
@[simp] theorem State.withWidth_blockSize (w : BitVec 5) (bps : BitVec 6) (s : State) :
    (s.withWidth w bps).blockSize = s.blockSize := rfl
@[simp] theorem State.withWidth_phase (w : BitVec 5) (bps : BitVec 6) (s : State) : (s.withWidth w bps).phase = s.phase := rfl
@[simp] theorem State.withWidth_order (w : BitVec 5) (bps : BitVec 6) (s : State) : (s.withWidth w bps).order = s.order := rfl
@[simp] theorem State.withWidth_c (w : BitVec 5) (bps : BitVec 6) (s : State) : (s.withWidth w bps).c = s.c := rfl
@[simp] theorem State.withWidth_unread (w : BitVec 5) (bps : BitVec 6) (s : State) :
    (s.withWidth w bps).unread = s.unread := rfl

/-- An operation that keeps the block size and neither reads nor writes `WASTED` and `CFG_BPS`: where it completes, it completes
with any other values of them, and to the same state but for them. -/
def IgnoresWidth (r : State → Result) : Prop :=
  ∀ s t, r s = .next t →
    t.blockSize = s.blockSize ∧ ∀ w bps, r (s.withWidth w bps) = .next (t.withWidth w bps)

theorem IgnoresWidth.forEach {body : Nat → State → Result} (hbody : ∀ i, IgnoresWidth (body i)) (n i : Nat) :
    IgnoresWidth (forEach body n i) := by
  induction n generalizing i with
  | zero =>
    rintro s _ ⟨⟩
    exact ⟨rfl, fun _ _ => rfl⟩
  | succ n ih =>
    intro s t h
    obtain ⟨u, hu, ht⟩ := andThen_eq_next.mp h
    obtain ⟨hsu, hfirst⟩ := hbody i s u hu
    obtain ⟨hut, hrest⟩ := ih (i + 1) u t ht
    exact ⟨hut.trans hsu, fun w bps => andThen_eq_next.mpr ⟨u.withWidth w bps, hfirst w bps, hrest w bps⟩⟩

theorem fixedSample_ignoresWidth (coeffs : List Int) (i : Nat) : IgnoresWidth (fixedSample coeffs i) := by
  intro s t h
  obtain ⟨e, past, hi, he, hpast, rfl⟩ := fixedSample_eq_next h
  exact ⟨rfl, fun w bps => fixedSample_next (s := s.withWidth w bps) hi he hpast⟩

theorem lpcSample_ignoresWidth (coeffs : List Int) (i : Nat) : IgnoresWidth (lpcSample coeffs i) := by
  intro s t h
  obtain ⟨e, past, hi, he, hpast, rfl⟩ := lpcSample_eq_next h
  exact ⟨rfl, fun w bps => lpcSample_next (s := s.withWidth w bps) hi he hpast⟩

theorem writeSamples_ignoresWidth (base : Nat) (vs : List Word) : IgnoresWidth (writeWords .samples base vs) := by
  intro s t h
  obtain ⟨hinside, rfl⟩ := writeWords_eq_next.mp h
  exact ⟨rfl, fun w bps => writeWords_inside (s.withWidth w bps) hinside⟩

/-! ## The shift -/

/-- The answer `r` is the end of a decode whose first `n` samples are those of `t0` shifted left by `w`. -/
def EndsShifted (n w : Nat) (t0 : State) (r : Result) : Prop :=
  ∃ t, r = .next t ∧ t.phase = .done ∧
    ∀ k, k < n → ∃ v, Memory.read t0.x k = some v ∧ Memory.read t.x k = some (wrap32 (v.toInt * 2 ^ w))

/-- Every sample that the loop of the shift goes over has been written before it. -/
theorem forEach_shiftSample_written {n i : Nat} {s t : State} (h : forEach shiftSample n i s = .next t) :
    ∀ k, i ≤ k → k < i + n → (Memory.read s.x k).isSome = true := by
  induction n generalizing i s with
  | zero => intro k hik hki; omega
  | succ n ih =>
    intro k hik hki
    obtain ⟨u, hu, ht⟩ := andThen_eq_next.mp h
    obtain ⟨v, hv, rfl⟩ := shiftSample_eq_next hu
    rcases Nat.eq_or_lt_of_le hik with rfl | hlt
    · simp [hv]
    · have := ih ht k hlt (by omega)
      rwa [Memory.read_write, if_neg (by omega)] at this

theorem complete_holds {s t : State} (h : complete s = .next t) :
    Memory.Holds s.x s.blockSize fun k => (Memory.read s.x k).getD 0 := by
  obtain ⟨u, hu, _⟩ := andThen_eq_next.mp h
  intro k hk
  obtain ⟨v, hv⟩ := Option.isSome_iff_exists.mp (forEach_shiftSample_written hu k (Nat.zero_le k) (by omega))
  simp [hv]

/-- Completing without wasted bits leaves the samples as they are; so completing with `WASTED` shifts the samples of that. -/
theorem complete_endsShifted {s t0 : State} {bps : BitVec 6} (h : complete (s.withWidth 0 bps) = .next t0) :
    EndsShifted s.blockSize s.wasted.toNat t0 (complete s) := by
  have hholds : Memory.Holds s.x s.blockSize fun k => (Memory.read s.x k).getD 0 :=
    complete_holds (s := s.withWidth 0 bps) h
  obtain ⟨t, ht, hframe, _, hread⟩ := complete_next hholds
  obtain ⟨_, ht0, _, _, hread0⟩ := complete_next (s := s.withWidth 0 bps) hholds
  cases h.symm.trans ht0
  refine ⟨t, ht, by rw [hframe], fun k hk => ⟨(Memory.read s.x k).getD 0, ?_, by rw [hread, if_pos hk]⟩⟩
  simp [hread0, hk, wrap32]

theorem IgnoresWidth.andThen_complete {r : State → Result} (hr : IgnoresWidth r) {s t0 : State} {bps : BitVec 6}
    (h : andThen (r (s.withWidth 0 bps)) complete = .next t0) :
    EndsShifted s.blockSize s.wasted.toNat t0 (andThen (r s) complete) := by
  obtain ⟨u0, hu0, hcomplete⟩ := andThen_eq_next.mp h
  obtain ⟨hsize, hwidth⟩ := hr _ _ hu0
  have hu : r s = .next (u0.withWidth s.wasted s.cfgBps) := hwidth s.wasted s.cfgBps
  have hu0' : r (s.withWidth 0 bps) = .next (u0.withWidth 0 bps) := hwidth 0 bps
  have hsame : u0 = (u0.withWidth s.wasted s.cfgBps).withWidth 0 bps := Host.Outcome.next.inj (hu0.symm.trans hu0')
  rw [hsame] at hcomplete
  rw [hu, andThen_next, ← State.withWidth_blockSize 0 bps s, ← hsize]
  exact complete_endsShifted hcomplete

/-! ## The last phase of each variant -/

/-- The field width that `bps` and the wasted count give is `bps` less the count, itself a `bps` (R39). -/
theorem State.sampleWidth_withWidth_zero (s : State) :
    (s.withWidth 0 (BitVec.ofNat 6 (s.cfgBps.toNat - s.wasted.toNat))).sampleWidth = s.sampleWidth := by
  have hfits : s.cfgBps.toNat - s.wasted.toNat < 64 := by omega
  simpa [State.sampleWidth] using hfits

theorem constantBody_endsShifted {s t0 : State} {bps : BitVec 6} (hwidth : (s.withWidth 0 bps).sampleWidth = s.sampleWidth)
    (h : constantBody (s.withWidth 0 bps) = .next t0) (hdone : t0.phase = .done) :
    EndsShifted s.blockSize s.wasted.toNat t0 (constantBody s) := by
  unfold constantBody at h ⊢
  rw [hwidth, State.withWidth_unread] at h
  cases hread : readS s.sampleWidth s.unread with
  | value v rest =>
    rw [hread] at h
    exact (writeSamples_ignoresWidth 0 (List.replicate s.blockSize v)).andThen_complete (s := s.advanceTo rest) h
  | short =>
    rw [hread] at h
    cases h
    cases hdone
  | overflow =>
    rw [hread] at h
    cases h
    cases hdone

theorem verbatimBody_endsShifted {s t0 : State} {bps : BitVec 6} (hwidth : (s.withWidth 0 bps).sampleWidth = s.sampleWidth)
    (h : verbatimBody (s.withWidth 0 bps) = .next t0) (hdone : t0.phase = .done) :
    EndsShifted s.blockSize s.wasted.toNat t0 (verbatimBody s) := by
  have hcap : 0 + s.blockSize ≤ Buffer.capacity .samples := by
    show 0 + s.cfgBs.toNat ≤ 65535
    omega
  unfold verbatimBody at h ⊢
  rw [hwidth] at h
  rcases readInto_cases (cls := .field) (code := readS s.sampleWidth) (s := s.withWidth 0 bps) (k := complete) hcap with
    ⟨rest, hend, heq⟩ | ⟨_, heq⟩ | ⟨_, heq⟩
  · rw [readInto_of_runEnd (s := s) hcap hend]
    exact complete_endsShifted (heq.symm.trans h)
  · cases heq.symm.trans h
    cases hdone
  · cases heq.symm.trans h
    cases hdone

theorem fixedRestore_endsShifted {coeffs : List Int} {s t0 : State} {bps : BitVec 6}
    (h : fixedRestore coeffs (s.withWidth 0 bps) = .next t0) :
    EndsShifted s.blockSize s.wasted.toNat t0 (fixedRestore coeffs s) :=
  (IgnoresWidth.forEach (fixedSample_ignoresWidth coeffs) _ _).andThen_complete h

theorem lpcRestore_endsShifted {s t0 : State} {bps : BitVec 6} (h : lpcRestore (s.withWidth 0 bps) = .next t0) :
    EndsShifted s.blockSize s.wasted.toNat t0 (lpcRestore s) := by
  unfold lpcRestore at h ⊢
  rw [State.withWidth_c, State.withWidth_order] at h
  cases hcs : Memory.readUp s.c 0 s.order.toNat with
  | none =>
    rw [hcs] at h
    cases h
  | some cs =>
    rw [hcs] at h
    exact (IgnoresWidth.forEach (lpcSample_ignoresWidth _) _ _).andThen_complete h

theorem fixedPhases_endsShifted {code : Nat} {coeffs : List Int} {wf : Bool} {s t0 : State} {bps : BitVec 6}
    (hphase : s.phase = .readRaw ∨ s.phase = .restore) (h : fixedPhases code coeffs wf (s.withWidth 0 bps) = .next t0) :
    EndsShifted s.blockSize s.wasted.toNat t0 (fixedPhases code coeffs wf s) := by
  unfold fixedPhases at h ⊢
  rw [State.withWidth_phase] at h
  rcases hphase with hphase | hphase
  · rw [hphase] at h
    cases h
  · rw [hphase] at h ⊢
    exact fixedRestore_endsShifted h

/-- Settles O55, variant by variant: in the phase that is not the variant's last the instruction stops, and the last phase is an
operation that ignores the width, or reads fields of the same width, then the shift (`complete_endsShifted`). -/
theorem wastedBitsShiftEverySample : Obligations.WastedBitsShiftEverySample := by
  intro s t0 i hphase h hdone hvariant
  change exec i (s.withWidth 0 (BitVec.ofNat 6 (s.cfgBps.toNat - s.wasted.toNat))) = .next t0 at h
  show EndsShifted s.blockSize s.wasted.toNat t0 (exec i s)
  rcases hvariant with ⟨wf, rfl⟩ | ⟨wf, rfl⟩ | ⟨n, wf, hn, rfl⟩ | ⟨o, wf, rfl⟩
  · rcases hphase with hphase | hphase
    · simp only [exec, execConstant, State.withWidth_phase, hphase] at h ⊢
      exact constantBody_endsShifted s.sampleWidth_withWidth_zero h hdone
    · simp [exec, execConstant, hphase] at h
  · rcases hphase with hphase | hphase
    · simp only [exec, execVerbatim, State.withWidth_phase, hphase] at h ⊢
      exact verbatimBody_endsShifted s.sampleWidth_withWidth_zero h hdone
    · simp [exec, execVerbatim, hphase] at h
  · obtain ⟨coeffs, _, hexec, _⟩ := exec_fixedInstr hn wf
    rw [hexec] at h ⊢
    exact fixedPhases_endsShifted hphase h
  · rcases hphase with hphase | hphase
    · simp [exec, execLpc, hphase] at h
    · simp only [exec, execLpc, State.withWidth_phase, hphase] at h ⊢
      exact lpcRestore_endsShifted h

end Sys2Proof.Machine
end

section
/-! PROOFS. LPC: the exact sum of R92, and the parameters that are rejected before the next field is read (R87, R88). -/

namespace Sys2Proof.Machine

/-! ## The accumulator -/

@[simp] theorem dot_nil_left (vs : List Int) : dot [] vs = 0 := rfl

@[simp] theorem dot_nil_right (cs : List Int) : dot cs [] = 0 := by cases cs <;> rfl

@[simp] theorem dot_cons (c v : Int) (cs vs : List Int) : dot (c :: cs) (v :: vs) = c * v + dot cs vs := rfl

/-- Each product adds at most the product of the two bounds. -/
theorem abs_dot_le {a b : Int} (ha : 0 ≤ a) (hb : 0 ≤ b) {cs vs : List Int} (hcs : ∀ c ∈ cs, |c| ≤ a)
    (hvs : ∀ v ∈ vs, |v| ≤ b) : |dot cs vs| ≤ cs.length * (a * b) := by
  have hab : 0 ≤ a * b := mul_nonneg ha hb
  induction cs generalizing vs with
  | nil => simp
  | cons c cs ih =>
    cases vs with
    | nil =>
      rw [dot_nil_right, abs_zero]
      positivity
    | cons v vs =>
      obtain ⟨hc, hcs⟩ := List.forall_mem_cons.mp hcs
      obtain ⟨hv, hvs⟩ := List.forall_mem_cons.mp hvs
      calc |dot (c :: cs) (v :: vs)|
          ≤ |c * v| + |dot cs vs| := abs_add_le (c * v) (dot cs vs)
        _ ≤ a * b + cs.length * (a * b) := by
            rw [abs_mul]
            exact add_le_add (mul_le_mul hc hv (abs_nonneg v) ha) (ih hcs hvs)
        _ = (c :: cs).length * (a * b) := by rw [List.length_cons]; push_cast; ring

theorem wrap64_of_fits {v : Int} (hlo : -(2 : Int) ^ 63 ≤ v) (hhi : v < (2 : Int) ^ 63) : (wrap64 v).toInt = v :=
  BitVec.toInt_ofInt_eq_self (by decide) hlo hhi

/-- Settles O26: 32 products of at most `2^14 * 2^31` (`abs_dot_le`) add up to at most `2^50`, which fits (`wrap64_of_fits`). -/
theorem accumulatorIsExact : Obligations.AccumulatorIsExact := by
  intro cs vs hlen hcs hvs
  have hsum : |dot cs vs| ≤ cs.length * (2 ^ 14 * 2 ^ 31) :=
    abs_dot_le (by positivity) (by positivity) (fun c hc => abs_le.mpr ⟨(hcs c hc).1, (hcs c hc).2.le⟩)
      fun v hv => abs_le.mpr ⟨(hvs v hv).1, (hvs v hv).2.le⟩
  obtain ⟨hlo, hhi⟩ : -(2 : Int) ^ 50 ≤ dot cs vs ∧ dot cs vs ≤ (2 : Int) ^ 50 := abs_le.mp (by omega)
  exact ⟨hlo, hhi, wrap64_of_fits (by omega) (by omega)⟩

/-! ## The parameters -/

/-- `s` with a legal precision field `f` read (R87). -/
def State.precisionRead (f : Nat) (s : State) : State := { s.consumed 4 with precision := BitVec.ofNat 4 (f + 1) }

@[simp] theorem State.precisionRead_unread (f : Nat) (s : State) : (s.precisionRead f).unread = (s.consumed 4).unread := rfl

/-- What LPC does once the shift field `v` is read: the sign check (R88), then the coefficients (R86). -/
def State.shiftRead (v : Nat) (s : State) : Result :=
  if sext 5 v < 0 then .next (raiseStream .negativeShift s)
  else readInto .field .coefficients 0 s.order.toNat (readS s.precision.toNat)
    { s with shift := BitVec.ofNat 4 v } fun t => .next (t.enter .decodeResidual)

theorem exec_lpc_readPredParams {s : State} (o : BitVec 5) (wf : Bool) (hphase : s.phase = .readPredParams) :
    exec (.lpc o wf) s = lpcParams s := by
  simp only [exec, execLpc, hphase]

theorem lpcParams_reservedPrecision {s : State} {rest : List Bool} (h : s.unread = natToBits 4 15 ++ rest) :
    lpcParams s = .next (raiseStream .reservedPrecision (s.consumed 4)) :=
  withField_append _ (by decide) h

theorem lpcParams_legalPrecision {s : State} {f : Nat} {rest : List Bool} (hf : f < 15)
    (h : s.unread = natToBits 4 f ++ rest) :
    lpcParams s = withField .field 5 (s.precisionRead f) State.shiftRead :=
  (withField_append _ (by omega) h).trans (if_neg hf.ne)

theorem lpcParams_legalPrecision_shift {s : State} {f v : Nat} {rest : List Bool} (hf : f < 15) (hv : v < 32)
    (h : s.unread = natToBits 4 f ++ (natToBits 5 v ++ rest)) :
    lpcParams s = ((s.precisionRead f).consumed 5).shiftRead v := by
  have hshift : (s.precisionRead f).unread = natToBits 5 v ++ rest := by simp [h]
  rw [lpcParams_legalPrecision hf h, withField_append _ hv hshift]

/-- A shift field with its top bit set is negative (R9, R88). -/
theorem sext_five_neg {v : Nat} (hlo : 16 ≤ v) (hhi : v < 32) : sext 5 v < 0 := by
  rcases sext_succ_cases 4 v with ⟨hclear, _⟩ | ⟨_, hs⟩
  · omega
  · rw [hs]; omega

/-- Settles O24: the precision is checked when its field is read (`lpcParams_reservedPrecision`), the sign of the shift when the
shift is (`lpcParams_legalPrecision_shift`, `sext_five_neg`). -/
theorem lpcReservedParametersFail : Obligations.LpcReservedParametersFail := by
  intro s o wf rest hphase
  rw [exec_lpc_readPredParams o wf hphase]
  refine ⟨fun h => ?_, fun f v hf hlo hhi h => ?_⟩
  · rw [lpcParams_reservedPrecision h]
    exact failsWith_raise _ _ rfl rfl rfl rfl rfl rfl rfl rfl
  · rw [lpcParams_legalPrecision_shift hf hhi h, State.shiftRead, if_pos (sext_five_neg hlo hhi)]
    exact failsWith_raise _ _ rfl rfl rfl rfl rfl rfl rfl rfl

end Sys2Proof.Machine
end

section
/-! PROOFS. The residual section (R96 to R104): the checks of its header, and a partition whose codes are all there. -/

namespace Sys2Proof.Machine

/-! ## The residual header -/

theorem residualHeader_tooSmall {s : State} (method : BitVec 1) {p : BitVec 4} (hphase : s.phase = .decodeResidual)
    (hnone : s.residual = none) (hsmall : s.blockSize / 2 ^ p.toNat < s.order.toNat) :
    residualHeader method p s = .next (raiseStream .partitionTooSmall { s with method := method, partOrder := p }) :=
  (atResidualHeader_here hphase hnone _).trans (if_pos hsmall)

theorem residualHeader_misaligned {s : State} (method : BitVec 1) {p : BitVec 4} (hphase : s.phase = .decodeResidual)
    (hnone : s.residual = none) (hfits : s.order.toNat ≤ s.blockSize / 2 ^ p.toNat)
    (hrest : s.blockSize % 2 ^ p.toNat ≠ 0) :
    residualHeader method p s = .next (raiseStream .partitionMisaligned { s with method := method, partOrder := p }) :=
  (atResidualHeader_here hphase hnone _).trans ((if_neg (Nat.not_lt.mpr hfits)).trans (if_pos hrest))

/-- A residual header that answers a failure with only `METHOD` and `PART_ORDER` written before it fails as R117 says. -/
theorem failsWith_residualHeader {r : Result} {s : State} {method : BitVec 1} {p : BitVec 4} {cause : Cause}
    (h : r = .next (raiseStream cause { s with method := method, partOrder := p })) :
    FailsWith r s .invalidStream cause := by
  rw [h]
  exact failsWith_raise _ _ rfl rfl rfl rfl rfl rfl rfl rfl

/-- Settles O28: the reserved method is rejected at once, the size of the partitions is checked before their alignment
(`residualHeader_tooSmall`, `residualHeader_misaligned`). -/
theorem badResidualHeadersFail : Obligations.BadResidualHeadersFail := fun _ hphase hnone =>
  ⟨fun _ => atResidualHeader_here hphase hnone _,
    fun _ hsmall =>
      ⟨failsWith_residualHeader (residualHeader_tooSmall 0 hphase hnone hsmall),
        failsWith_residualHeader (residualHeader_tooSmall 1 hphase hnone hsmall)⟩,
    fun _ hfits hrest =>
      ⟨failsWith_residualHeader (residualHeader_misaligned 0 hphase hnone hfits hrest),
        failsWith_residualHeader (residualHeader_misaligned 1 hphase hnone hfits hrest)⟩⟩

/-! ## A partition -/

theorem fieldsBits_length (w : Nat) (vs : List Nat) : (fieldsBits w vs).length = vs.length * w := by
  simp [fieldsBits, List.length_flatMap]

/-- The words of `E` after a partition: one for each code from the next index on, the others as before (R101). -/
theorem Memory.read_writeRun_map {α : Type} (m : Memory) (base : Nat) (us : List α) (val : α → Word) (d : α) (n : Nat) :
    Memory.read (Memory.writeRun m base (us.map val)) n =
      if base ≤ n ∧ n < base + us.length then some (val (us.getD (n - base) d)) else Memory.read m n := by
  rw [Memory.read_writeRun, List.length_map]
  split
  · have hlt : n - base < us.length := by omega
    simp [hlt]
  · rfl

theorem nextPartition_eq {s : State} (q j : Nat) (hphase : s.phase = .decodeResidual) :
    nextPartition q j s =
      { s with
        residual := if q + 1 < s.partitionCount then some ⟨q + 1, j⟩ else none
        phase := if q + 1 < s.partitionCount then .decodeResidual else .restore } := by
  unfold nextPartition
  split
  · rw [← hphase]
  · rfl

theorem State.consumed_consumed (s : State) (m n : Nat) : (s.consumed m).consumed n = s.consumed (m + n) := by
  simp [State.consumed, Nat.add_assoc]

/-- A partition whose codes are all there, in the wire form `enc` that `code` reads to `val` (R101). -/
theorem readPartition_codes {α : Type} {code : List Bool → CodeRead} {enc : α → List Bool} {val : α → Word} {us : List α}
    {q j : Nat} {s : State} {rest : List Bool} (hphase : s.phase = .decodeResidual) (hcount : us.length = s.residualCount q)
    (hcap : j + us.length ≤ Config.blockSizeMax)
    (hcodes : ∀ u ∈ us, ∀ tail, code (enc u ++ tail) = .value (val u) tail) (hbits : s.unread = us.flatMap enc ++ rest) :
    readPartition code ⟨q, j⟩ s =
      .next { s.consumed (us.flatMap enc).length with
        e := Memory.writeRun s.e j (us.map val)
        residual := if q + 1 < s.partitionCount then some ⟨q + 1, j + us.length⟩ else none
        phase := if q + 1 < s.partitionCount then .decodeResidual else .restore } := by
  have hrun : readRun code us.length s.unread = (us.map val, .complete rest) := by
    rw [hbits, readRun_codes code enc val us hcodes]
  rw [readPartition, ← hcount, readInto_complete (b := .residuals) hcap hbits hrun]
  exact congrArg Host.Outcome.next (nextPartition_eq q _ hphase)

/-- The escape partition of the current method, its width read (R101, R104). -/
theorem escapePartition_width {s : State} {at_ : ResidualProgress} {w : Nat} {rest : List Bool} (hw : w < 32)
    (hphase : s.phase = .decodeResidual) (hat : s.residual = some at_) (hbits : s.unread = natToBits 5 w ++ rest) :
    escapePartition s.method s = readPartition (readRaw Config.escapeRawSigned w) at_ (s.consumed 5) :=
  (atPartition_here hphase hat rfl _).trans (withField_append _ hw hbits)

/-- The escape row of the current method is its escape partition (R105). -/
theorem exec_escapeItem {s : State} {i : Instr} (hi : (i = .partEsc4 ∧ s.method = 0) ∨ (i = .partEsc5 ∧ s.method = 1)) :
    exec i s = escapePartition s.method s := by
  rcases hi with ⟨rfl, hmethod⟩ | ⟨rfl, hmethod⟩ <;> rw [hmethod] <;> rfl

/-- Settles O31: after the width (`escapePartition_width`) the raw fields are read as every partition's codes are
(`readPartition_codes`), each to its value (`readRaw_field`). -/
theorem escapePartitionReadsResiduals : Obligations.EscapePartitionReadsResiduals := by
  intro s i w q j vs rest hi hphase hat hw hcount hcap hfit hbits
  have hfields : (s.consumed 5).unread = fieldsBits w vs ++ rest := by simp [hbits]
  have hcodes : ∀ v ∈ vs, ∀ tail, readRaw Config.escapeRawSigned w (natToBits w v ++ tail) =
      .value (wrap32 (escapeValue Config.escapeRawSigned w v)) tail :=
    fun v hv => readRaw_field _ (hfit v hv)
  rw [exec_escapeItem hi, escapePartition_width hw hphase hat hbits,
    readPartition_codes (s := s.consumed 5) hphase hcount hcap hcodes hfields]
  refine ⟨_, rfl, ?_, Memory.read_writeRun_map s.e j vs _ 0⟩
  rw [← fieldsBits_length, ← State.consumed_consumed]
  rfl

end Sys2Proof.Machine
end

section
/-! PROOFS. The host commands that only read the engine (R106, R108 to R111): READ by the four cases of the phase and the
length, the queries by whether the phase is DONE. -/

namespace Sys2Proof.Machine

/-! ## READ -/

/-- With the samples of the block written, they are what READ copies. -/
theorem Memory.Holds.readUp {m : Memory} {n : Nat} {f : Nat → Word} (h : Memory.Holds m n f) :
    Memory.readUp m 0 n = some ((List.range n).map f) := by
  simpa using Memory.readUp_of_holds m f 0 n fun k hk => by simpa using h k hk

/-- The host words after `n` samples have been copied to `dest`: the samples there, the others as before (R108). -/
theorem Memory.read_writeRun_range (m : Memory) (dest n : Nat) (f : Nat → Word) (a : Nat) :
    Memory.read (Memory.writeRun m dest ((List.range n).map f)) a =
      if dest ≤ a ∧ a < dest + n then some (f (a - dest)) else Memory.read m a := by
  rw [Memory.read_writeRun_map m dest (List.range n) f 0, List.length_range]
  split
  · have hlt : a - dest < n := by omega
    simp [hlt]
  · rfl

theorem execCmdRead_whole {dest len : Nat} {s : State} {f : Nat → Word} (hdone : s.phase = .done)
    (hlen : s.blockSize ≤ len) (hx : Memory.Holds s.x s.blockSize f) :
    execCmdRead dest len s =
      .next ({ s with hostMem := Memory.writeRun s.hostMem dest ((List.range s.blockSize).map f) }.respond
        (.count s.blockSize)) := by
  simp only [execCmdRead, hdone, if_neg (Nat.not_lt.mpr hlen), hx.readUp]

theorem execCmdRead_short {dest len : Nat} {s : State} (hdone : s.phase = .done) (hlen : len < s.blockSize) :
    execCmdRead dest len s = .next (s.respond .endOfStream) := by
  simp only [execCmdRead, hdone, if_pos hlen]

theorem execCmdRead_failed {dest len : Nat} {s : State} (hfailed : s.phase = .failed) :
    execCmdRead dest len s = .next (s.respond (.failed s.err.code s.cause.code)) := by
  simp only [execCmdRead, hfailed]

theorem execCmdRead_notReady {dest len : Nat} {s : State} (hdone : s.phase ≠ .done) (hfailed : s.phase ≠ .failed) :
    execCmdRead dest len s = .next (s.respond .notReady) := by
  unfold execCmdRead
  split
  · exact absurd ‹_› hdone
  · exact absurd ‹_› hfailed
  · rfl

/-- Settles O36, by the four cases of READ; the host words of the first are those of `Memory.read_writeRun_range`. -/
theorem readDeliversWholeBlock : Obligations.ReadDeliversWholeBlock := by
  intro s dest len f
  refine ⟨fun hdone hlen hx => ?_, execCmdRead_short, execCmdRead_failed, fun hphase => ?_⟩
  · exact ⟨_, execCmdRead_whole hdone hlen hx, rfl, Memory.read_writeRun_range s.hostMem dest s.blockSize f⟩
  · refine execCmdRead_notReady (fun hdone => ?_) (fun hfailed => ?_)
    · simp [hdone, Phase.busy] at hphase
    · simp [hfailed, Phase.busy] at hphase

/-! ## The queries and the reserved codes -/

theorem execCmdQueryType_done {s : State} (hdone : s.phase = .done) :
    execCmdQueryType s = .next (s.respond (.subFrameType (s.typeCode.setWidth 8))) := by
  simp only [execCmdQueryType, hdone]

theorem execCmdQueryType_notReady {s : State} (hdone : s.phase ≠ .done) :
    execCmdQueryType s = .next (s.respond .notReady) := by
  unfold execCmdQueryType
  split
  · exact absurd ‹_› hdone
  · rfl

theorem execCmdQueryWasted_done {s : State} (hdone : s.phase = .done) :
    execCmdQueryWasted s = .next (s.respond (.wastedBits (s.wasted.setWidth 32))) := by
  simp only [execCmdQueryWasted, hdone]

theorem execCmdQueryWasted_notReady {s : State} (hdone : s.phase ≠ .done) :
    execCmdQueryWasted s = .next (s.respond .notReady) := by
  unfold execCmdQueryWasted
  split
  · exact absurd ‹_› hdone
  · rfl

/-- Settles O37, by the phase; zero extension is the same number in a wider word (`BitVec.ofNat_toNat`). -/
theorem queriesAnswerInDoneOnly : Obligations.QueriesAnswerInDoneOnly := by
  intro s
  simp only [BitVec.ofNat_toNat]
  exact ⟨fun hdone => ⟨execCmdQueryType_done hdone, execCmdQueryWasted_done hdone⟩,
    fun hdone => ⟨execCmdQueryType_notReady hdone, execCmdQueryWasted_notReady hdone⟩⟩

/-- Settles O38: both meanings are one answer, with no case of the phase (R106, R111). -/
theorem statusAndReservedCommandsOnlyAnswer : Obligations.StatusAndReservedCommandsOnlyAnswer :=
  fun _ _ => ⟨rfl, rfl⟩

end Sys2Proof.Machine
end

section
/-! PROOFS. Read failures (R116): the error and the cause that each class of read raises. -/

namespace Sys2Proof.Machine

theorem readFail_payload (s : State) : readFail .payload s = raise .invalidStream .readFailPayload s := rfl

theorem readFail_field (s : State) :
    readFail .field s = raise (if s.truncEn then .truncated else .invalidStream) .readFailField s := rfl

/-- Settles O11, by the class of the read: only a failing field read looks at `TRUNC_EN` (`readFail_field`). -/
theorem readFailureIsClassified : Obligations.ReadFailureIsClassified := by
  intro s
  refine ⟨readFail_payload s, fun hoff => ?_, fun hon => ?_⟩
  · simp [readFail_field, hoff]
  · simp [readFail_field, hon]

end Sys2Proof.Machine
end

section
/-! PROOFS. After reset (R127), and the end of every decode (R134). The second goes backwards through the phases of R67: what a
phase needs for its next step to answer a next state, and in how many steps the decode ends from there. -/

namespace Sys2Proof.Machine

/-- Settles O45: the registers by their reset values, the step because between decodes the engine does nothing
(`engineFetch_idle`). -/
theorem resetRegisters : Obligations.ResetRegisters :=
  ⟨rfl, rfl, rfl, rfl, rfl, rfl, rfl, rfl, rfl, rfl, rfl, rfl, rfl, rfl, rfl, rfl, rfl,
    step_without ((fetch_of_engineMoves (.inl ⟨rfl, rfl⟩)).trans (engineFetch_idle rfl))⟩

/-! ## Written words -/

/-- The first `n` words of a buffer are written; others may be too. -/
def Memory.Written (m : Memory) (n : Nat) : Prop := ∀ i, i < n → ∃ v, Memory.read m i = some v

theorem Memory.Exactly.written {m : Memory} {n : Nat} (h : Memory.Exactly m n) : Memory.Written m n :=
  fun i hi => Option.isSome_iff_exists.mp ((h i).mpr hi)

theorem Memory.Written.holds {m : Memory} {n : Nat} (h : Memory.Written m n) :
    Memory.Holds m n fun i => (Memory.read m i).getD 0 := by
  intro i hi
  obtain ⟨v, hv⟩ := h i hi
  simp [hv]

theorem Memory.Written.writeRun {m : Memory} {n : Nat} (h : Memory.Written m n) (vs : List Word) :
    Memory.Written (Memory.writeRun m n vs) (n + vs.length) := by
  intro i hi
  rw [Memory.read_writeRun]
  split
  · have hlt : i - n < vs.length := by omega
    exact ⟨_, List.getElem?_eq_getElem hlt⟩
  · exact h i (by omega)

theorem Memory.written_writeRun_zero {n : Nat} {vs : List Word} (hlen : vs.length = n) (m : Memory) :
    Memory.Written (Memory.writeRun m 0 vs) n := by
  have hnone : Memory.Written m 0 := fun _ hi => absurd hi (Nat.not_lt_zero _)
  simpa [hlen] using hnone.writeRun vs

theorem Memory.Written.readDown {m : Memory} {i n : Nat} (h : Memory.Written m i) (hn : n ≤ i) :
    ∃ vs, Memory.readDown m i n = some vs :=
  ⟨_, Memory.readDown_of_holds m (fun j => (Memory.read m j).getD 0) i n hn fun k _ => h.holds (i - 1 - k) (by omega)⟩

/-! ## How many steps the engine still needs -/

/-- Within `n` steps the machine is in DONE or FAILED. -/
def EndsWithin (n : Nat) (s : State) : Prop :=
  ∃ k t, k ≤ n ∧ Host.Core.run core k s = .next t ∧ (t.phase = .done ∨ t.phase = .failed)

/-- The answer `r` is a next state from which the decode ends within `n` steps. -/
def AnswerEndsWithin (n : Nat) (r : Result) : Prop := ∃ t, r = .next t ∧ EndsWithin n t

theorem EndsWithin.mono {m n : Nat} {s : State} (h : EndsWithin m s) (hle : m ≤ n) : EndsWithin n s := by
  obtain ⟨k, t, hk, hrun, hend⟩ := h
  exact ⟨k, t, hk.trans hle, hrun, hend⟩

theorem run_succ_of_step {s t : State} (h : step s = .next t) (k : Nat) :
    Host.Core.run core (k + 1) s = Host.Core.run core k t := by
  have hcore : core.step s = .next t := h
  simp only [Host.Core.run, hcore]

theorem EndsWithin.of_step {n : Nat} {s : State} (h : AnswerEndsWithin n (step s)) : EndsWithin (n + 1) s := by
  obtain ⟨t, ht, k, u, hk, hrun, hend⟩ := h
  exact ⟨k + 1, u, Nat.succ_le_succ hk, (run_succ_of_step ht k).trans hrun, hend⟩

theorem AnswerEndsWithin.of_done {n : Nat} {r : Result} (h : ∃ t, r = .next t ∧ t.phase = .done) : AnswerEndsWithin n r := by
  obtain ⟨t, ht, hdone⟩ := h
  exact ⟨t, ht, 0, t, Nat.zero_le n, rfl, .inl hdone⟩

theorem AnswerEndsWithin.raise (n : Nat) (err : Err) (cause : Cause) (s : State) :
    AnswerEndsWithin n (.next (raise err cause s)) :=
  ⟨_, rfl, 0, _, Nat.zero_le n, rfl, .inr rfl⟩

theorem AnswerEndsWithin.withField {n w : Nat} {cls : ReadClass} {s : State} {k : Nat → State → Result}
    (hk : ∀ v rest, AnswerEndsWithin n (k v (s.advanceTo rest))) : AnswerEndsWithin n (withField cls w s k) := by
  unfold Machine.withField
  split
  · exact .raise n _ _ s
  · exact hk _ _

/-- A run of reads inside its buffer fails or writes all of its words. -/
theorem AnswerEndsWithin.readInto {m base n : Nat} {cls : ReadClass} {b : Buffer} {code : List Bool → CodeRead} {s : State}
    {k : State → Result} (hcode : LeavesTail code) (hcap : base + n ≤ b.capacity)
    (hk : ∀ vs rest, vs.length = n →
      AnswerEndsWithin m (k ((s.setBuffer b (Memory.writeRun (s.buffer b) base vs)).advanceTo rest))) :
    AnswerEndsWithin m (readInto cls b base n code s k) := by
  rcases readInto_cases (cls := cls) (code := code) (s := s) (k := k) hcap with
    ⟨rest, hend, heq⟩ | ⟨_, heq⟩ | ⟨_, heq⟩
  · rw [heq]
    exact hk _ rest (readRun_complete hcode (Prod.ext rfl hend)).1
  · rw [heq]
    exact .raise m _ _ _
  · rw [heq]
    exact .raise m _ _ _

theorem AnswerEndsWithin.fetchItem {n : Nat} {f : Format} {short s : State}
    (hitem : ∀ i rest, decode f s.unread { } = .item i rest → AnswerEndsWithin n (exec i (s.advanceTo rest))) :
    AnswerEndsWithin n (fetchItem f short s).outcome := by
  cases h : decode f s.unread { } with
  | item i rest => rw [fetchItem_item h]; exact hitem i rest h
  | rejected why => rw [fetchItem_rejected h]; exact .raise n _ _ short

/-- With no host event pending the step is the engine's own next action. -/
theorem EndsWithin.of_fetch {n : Nat} {s : State} (hpending : s.inbox = [])
    (h : AnswerEndsWithin n (engineFetch s).outcome) : EndsWithin (n + 1) s := by
  refine .of_step ?_
  rwa [step_eq_outcome, fetch_of_engineMoves (.inl ⟨hpending, rfl⟩)]

/-- In the phases that read no item of their own the step is the sub-frame instruction in progress. -/
theorem EndsWithin.of_inFlight {n : Nat} {s : State} (hpending : s.inbox = [])
    (hphase : s.phase = .readRaw ∨ s.phase = .readWarmup ∨ s.phase = .readPredParams ∨ s.phase = .restore)
    (h : AnswerEndsWithin n (exec s.inFlight s)) : EndsWithin (n + 1) s := by
  refine .of_fetch hpending ?_
  rcases hphase with hphase | hphase | hphase | hphase <;> rwa [engineFetch, hphase]

/-! ## What the phases after the header rely on

Each predicate is a plain conjunction, so that it carries over to an update of any field it does not mention. -/

/-- No host event is pending, and the header of a legal type code has been read (R69 to R72). -/
def HeaderKnown (s : State) : Prop :=
  s.inbox = [] ∧ typeReserved s.typeCode.toNat = false ∧ s.order.toNat = orderOfType s.typeCode.toNat ∧
    s.order.toNat ≤ s.blockSize

/-- All that comes before the residual section of a Fixed or LPC sub-frame has been read: the warm-up samples, and for LPC the
coefficients (R73, R86). -/
def Primed (s : State) : Prop :=
  HeaderKnown s ∧ 2 ≤ s.typeCode.toNat ∧ Memory.Written s.x s.order.toNat ∧
    (32 ≤ s.typeCode.toNat → Memory.Written s.c s.order.toNat)

/-- Partition `q` is the next to read: the residuals of those before it are in `E` (R96 to R101). -/
def AtPartition (q : Nat) (s : State) : Prop :=
  s.phase = .decodeResidual ∧ s.residual = some ⟨q, q * s.partitionSamples - s.order.toNat⟩ ∧ q < s.partitionCount ∧
    s.order.toNat ≤ s.partitionSamples ∧ s.blockSize % s.partitionCount = 0 ∧
    Memory.Written s.e (q * s.partitionSamples - s.order.toNat)

theorem State.blockSize_le (s : State) : s.blockSize ≤ 65535 := Nat.le_of_lt_succ s.cfgBs.isLt

theorem State.samples_fit {n : Nat} (s : State) (h : n ≤ s.blockSize) : 0 + n ≤ Buffer.capacity .samples :=
  (Nat.zero_add n).trans_le (h.trans s.blockSize_le)

/-- The legal type codes with a predictor: Fixed and LPC (R51). -/
theorem fixed_or_lpc_of_two_le {t : Nat} (ht : t < 64) (hlegal : typeReserved t = false) (h : 2 ≤ t) :
    (8 ≤ t ∧ t ≤ 12) ∨ (32 ≤ t ∧ t ≤ 63) := by
  rcases typeReserved_false ht hlegal with h0 | h1 | hfixed | hlpc
  · omega
  · omega
  · exact .inl hfixed
  · exact .inr hlpc

/-- The order of either predictor is one that the coefficient file has room for. -/
theorem orderOfType_le (t : Nat) : orderOfType t ≤ 32 := by
  unfold orderOfType
  split
  · omega
  · split <;> omega

/-! ## READ_RAW and RESTORE: the last step -/

theorem complete_ends {n : Nat} {s : State} (h : Memory.Written s.x s.blockSize) : AnswerEndsWithin n (complete s) := by
  obtain ⟨t, ht, hframe, _⟩ := complete_next h.holds
  exact .of_done ⟨t, ht, by rw [hframe]⟩

theorem constantBody_ends (n : Nat) (s : State) : AnswerEndsWithin n (constantBody s) := by
  unfold constantBody
  split
  next v rest _ =>
    have hcap : 0 + (List.replicate s.blockSize v).length ≤ Buffer.capacity .samples := by
      rw [List.length_replicate]
      exact s.samples_fit le_rfl
    rw [writeWords_inside _ hcap, andThen_next]
    exact complete_ends (Memory.written_writeRun_zero List.length_replicate s.x)
  · exact .raise n _ _ s
  · exact .raise n _ _ s

theorem verbatimBody_ends (n : Nat) (s : State) : AnswerEndsWithin n (verbatimBody s) :=
  .readInto (readS_leavesTail _) (s.samples_fit le_rfl) fun _ _ hlen =>
    complete_ends (Memory.written_writeRun_zero hlen s.x)

/-- `u` is reached from `s` by restoring the samples before index `i`. -/
def RestoredTo (s : State) (i : Nat) (u : State) : Prop :=
  u.e = s.e ∧ u.order = s.order ∧ u.blockSize = s.blockSize ∧ Memory.Written u.x i

/-- A restoration loop whose passes each write the next sample writes the block, and the decode is DONE (R79, R90). -/
theorem restoreLoop_ends {n : Nat} {s : State} {body : Nat → State → Result} (horder : s.order.toNat ≤ s.blockSize)
    (hx : Memory.Written s.x s.order.toNat)
    (hbody : ∀ i u, s.order.toNat ≤ i → i < s.blockSize → RestoredTo s i u →
      ∃ v acc, body i u = .next { u with x := Memory.write u.x i v, acc := acc }) :
    AnswerEndsWithin n (andThen (forEach body (s.blockSize - s.order.toNat) s.order.toNat s) complete) := by
  obtain ⟨t, ht, _, _, hsize, hwritten⟩ := forEach_carries (body := body) (RestoredTo s)
    (s.blockSize - s.order.toNat) s.order.toNat s ⟨rfl, rfl, rfl, hx⟩ (by
      rintro i u hlo hhi hu
      obtain ⟨v, acc, hnext⟩ := hbody i u hlo (by omega) hu
      obtain ⟨he, ho, hsize, hwritten⟩ := hu
      exact ⟨_, hnext, he, ho, hsize, hwritten.writeRun [v]⟩)
  rw [ht, andThen_next]
  refine complete_ends ?_
  rwa [hsize, ← Nat.add_sub_cancel' horder]

theorem fixedRestore_ends {n : Nat} {s : State} {coeffs : List Int} (hlen : coeffs.length ≤ s.order.toNat)
    (horder : s.order.toNat ≤ s.blockSize) (hx : Memory.Written s.x s.order.toNat)
    (he : Memory.Written s.e (s.blockSize - s.order.toNat)) : AnswerEndsWithin n (fixedRestore coeffs s) := by
  refine restoreLoop_ends horder hx fun i u hlo hhi ⟨hue, huo, _, hux⟩ => ?_
  obtain ⟨e, hread⟩ := he (i - s.order.toNat) (by omega)
  obtain ⟨past, hpast⟩ := hux.readDown (hlen.trans hlo)
  have hi : i < 65535 := hhi.trans_le s.blockSize_le
  exact ⟨_, _, fixedSample_next hi (by rwa [hue, huo]) hpast⟩

theorem lpcRestore_ends {n : Nat} {s : State} (hc : Memory.Written s.c s.order.toNat)
    (horder : s.order.toNat ≤ s.blockSize) (hx : Memory.Written s.x s.order.toNat)
    (he : Memory.Written s.e (s.blockSize - s.order.toNat)) : AnswerEndsWithin n (lpcRestore s) := by
  rw [lpcRestore, hc.holds.readUp]
  refine restoreLoop_ends horder hx fun i u hlo hhi ⟨hue, huo, _, hux⟩ => ?_
  obtain ⟨e, hread⟩ := he (i - s.order.toNat) (by omega)
  obtain ⟨past, hpast⟩ := hux.readDown hlo
  have hi : i < 65535 := hhi.trans_le s.blockSize_le
  exact ⟨_, _, lpcSample_next hi (by rwa [hue, huo]) (by simpa using hpast)⟩

/-- A Constant or Verbatim body is the decode's last step (R74, R75). -/
theorem readRaw_ends {s : State} (hphase : s.phase = .readRaw) (hpending : s.inbox = []) (hcode : s.typeCode.toNat < 2) :
    EndsWithin 1 s := by
  refine .of_inFlight hpending (.inl hphase) ?_
  rw [State.inFlight]
  obtain h | h : s.typeCode.toNat = 0 ∨ s.typeCode.toNat = 1 := by omega
  · rw [h]
    simp only [instrOfType, exec, execConstant, hphase]
    exact constantBody_ends 0 s
  · rw [h]
    simp only [instrOfType, exec, execVerbatim, hphase]
    exact verbatimBody_ends 0 s

/-- With every residual in `E` the restoration is the decode's last step (R66). -/
theorem restore_ends {s : State} (hphase : s.phase = .restore) (h : Primed s)
    (he : Memory.Written s.e (s.blockSize - s.order.toNat)) : EndsWithin 1 s := by
  obtain ⟨⟨hpending, hlegal, horder, hfits⟩, hcode, hx, hc⟩ := h
  refine .of_inFlight hpending (.inr (.inr (.inr hphase))) ?_
  rw [State.inFlight]
  rcases fixed_or_lpc_of_two_le s.typeCode.isLt hlegal hcode with hfixed | hlpc
  · obtain ⟨coeffs, hlen, hexec, _⟩ := exec_fixedInstr (n := s.typeCode.toNat - 8) (by omega) (decide (s.wasted ≠ 0))
    rw [instrOfType_fixed hfixed, hexec, fixedPhases, hphase]
    exact fixedRestore_ends (by rw [hlen, horder, orderOfType_fixed hfixed]) hfits hx he
  · rw [instrOfType_lpc hlpc.1, exec, execLpc, hphase]
    exact lpcRestore_ends (hc hlpc.1) hfits hx he

/-! ## DECODE_RESIDUAL: one step for the header and one for each partition -/

/-- Where a partition's residuals end, the next partition's begin (R57). -/
theorem State.residualCount_end {s : State} (h : s.order.toNat ≤ s.partitionSamples) (q : Nat) :
    q * s.partitionSamples - s.order.toNat + s.residualCount q = (q + 1) * s.partitionSamples - s.order.toNat := by
  cases q with
  | zero => simp
  | succ q =>
    have hle : s.partitionSamples ≤ (q + 1) * s.partitionSamples := Nat.le_mul_of_pos_left _ q.succ_pos
    rw [State.residualCount_succ, Nat.succ_mul (q + 1)]
    omega

/-- A partition fails, or the next one is to be read, or after the last one the block is restored. -/
theorem readPartition_ends {n q : Nat} {s : State} {code : List Bool → CodeRead} (hcode : LeavesTail code)
    (hat : AtPartition q s) (h : Primed s)
    (hnext : ∀ t, AtPartition (q + 1) t → Primed t → t.partitionCount = s.partitionCount → EndsWithin (n + 1) t) :
    AnswerEndsWithin (n + 1) (readPartition code ⟨q, q * s.partitionSamples - s.order.toNat⟩ s) := by
  obtain ⟨hphase, _, hinside, hlarge, haligned, he⟩ := hat
  have hend := State.residualCount_end hlarge q
  have hblock := State.partitionCount_mul_partitionSamples haligned
  have hcap : q * s.partitionSamples - s.order.toNat + s.residualCount q ≤ Buffer.capacity .residuals := by
    have hle : (q + 1) * s.partitionSamples ≤ s.blockSize := hblock ▸ Nat.mul_le_mul_right _ hinside
    have hbs := s.blockSize_le
    show _ ≤ 65535
    omega
  refine .readInto hcode hcap fun vs rest hlen => ⟨_, rfl, ?_⟩
  have hwritten : Memory.Written (Memory.writeRun s.e (q * s.partitionSamples - s.order.toNat) vs)
      ((q + 1) * s.partitionSamples - s.order.toNat) := by
    have hrun := he.writeRun vs
    rwa [hlen, hend] at hrun
  dsimp only
  rw [hend, nextPartition]
  split
  next hmore => exact hnext _ ⟨hphase, rfl, hmore, hlarge, haligned, hwritten⟩ h rfl
  next hlast =>
    have hcount : q + 1 = s.partitionCount := Nat.le_antisymm hinside (Nat.not_lt.mp hlast)
    rw [hcount, hblock] at hwritten
    exact .mono (restore_ends rfl h hwritten) (Nat.le_add_left 1 n)

/-- Whichever parameter the format of the current method reads, its item reads the partition's residuals (R101, R105). -/
theorem partitionItem_ends {n q : Nat} {s : State} {bits rest : List Bool} {i : Instr}
    (hitem : decode s.partitionFormat bits { } = .item i rest) (hat : AtPartition q s) (h : Primed s)
    (hnext : ∀ t, AtPartition (q + 1) t → Primed t → t.partitionCount = s.partitionCount → EndsWithin (n + 1) t) :
    AnswerEndsWithin (n + 1) (exec i s) := by
  have ⟨hphase, hresidual, _⟩ := hat
  have hrice : ∀ m k, s.method = m → AnswerEndsWithin (n + 1) (ricePartition m k s) := by
    intro m k hmethod
    rw [ricePartition, atPartition_here hphase hresidual hmethod]
    exact readPartition_ends (readRice_leavesTail k) hat h hnext
  have hescape : ∀ m, s.method = m → AnswerEndsWithin (n + 1) (escapePartition m s) := by
    intro m hmethod
    rw [escapePartition, atPartition_here hphase hresidual hmethod]
    exact .withField fun w rest =>
      readPartition_ends (s := s.advanceTo rest) (readRaw_leavesTail Config.escapeRawSigned w) hat h hnext
  unfold State.partitionFormat at hitem
  split at hitem
  next hmethod =>
    rcases decodePartition4_item hitem with rfl | ⟨k, rfl⟩
    · exact hescape 0 hmethod
    · exact hrice 0 k.toNat hmethod
  next hmethod =>
    have hmethod : s.method = 1 := (BitVec.eq_zero_or_eq_one s.method).resolve_left hmethod
    rcases decodePartition5_item hitem with rfl | ⟨k, rfl⟩
    · exact hescape 1 hmethod
    · exact hrice 1 k.toNat hmethod

/-- The residual section takes one step for each partition still to read (R96). -/
theorem partitions_end {n q : Nat} {s : State} (hat : AtPartition q s) (h : Primed s) (hn : s.partitionCount ≤ q + n) :
    EndsWithin (n + 1) s := by
  induction n generalizing q s with
  | zero =>
    obtain ⟨_, _, hinside, _⟩ := hat
    omega
  | succ n ih =>
    have ⟨hphase, hresidual, _⟩ := hat
    have ⟨⟨hpending, _⟩, _⟩ := h
    refine .of_fetch hpending ?_
    rw [engineFetch, hphase, hresidual]
    refine .fetchItem fun i rest hitem => ?_
    exact partitionItem_ends (s := s.advanceTo rest) hitem hat h fun t hat' h' hcount =>
      ih hat' h' (by rw [hcount]; exact hn.trans_eq (by omega))

theorem State.partitionCount_le (s : State) : s.partitionCount ≤ 2 ^ 15 :=
  Nat.pow_le_pow_right Nat.two_pos (Nat.le_of_lt_succ s.partOrder.isLt)

/-- An accepted residual header leaves the first partition to read, of at most `2^15` (R96 to R100). -/
theorem residualHeader_ends {s : State} (m : BitVec 1) (p : BitVec 4) (hphase : s.phase = .decodeResidual)
    (hresidual : s.residual = none) (h : Primed s) : AnswerEndsWithin (2 ^ 15 + 1) (residualHeader m p s) := by
  rw [residualHeader, atResidualHeader_here hphase hresidual]
  dsimp only
  split
  · exact .raise _ _ _ _
  next hlarge =>
    split
    · exact .raise _ _ _ _
    next haligned =>
      refine ⟨_, rfl, partitions_end (q := 0) ⟨hphase, ?_, State.partitionCount_pos _, Nat.not_lt.mp hlarge,
        not_not.mp haligned, ?_⟩ h ?_⟩
      · simp
      · exact fun i hi => absurd hi (by simp)
      · simpa using State.partitionCount_le _

theorem residualSection_ends {s : State} (hphase : s.phase = .decodeResidual) (hresidual : s.residual = none)
    (h : Primed s) : EndsWithin (2 ^ 15 + 2) s := by
  have ⟨⟨hpending, _⟩, _⟩ := h
  refine .of_fetch hpending ?_
  rw [engineFetch, hphase, hresidual]
  refine .fetchItem fun i rest hitem => ?_
  rcases decodeResidualHeader_item hitem with ⟨x, rfl⟩ | ⟨p, rfl⟩ | ⟨p, rfl⟩
  · rw [exec, execResReserved, atResidualHeader_here (s := s.advanceTo rest) hphase hresidual]
    exact .raise _ _ _ _
  · exact residualHeader_ends (s := s.advanceTo rest) 0 p hphase hresidual h
  · exact residualHeader_ends (s := s.advanceTo rest) 1 p hphase hresidual h

/-! ## The phases before the residual section -/

/-- The last field of the LPC parameters, read into a coefficient file with room for every order (R86). -/
theorem lpcCoefficients_end {n w : Nat} {s : State} (hn : n = s.order.toNat) (hresidual : s.residual = none)
    (h : HeaderKnown s) (hcode : 2 ≤ s.typeCode.toNat) (hx : Memory.Written s.x s.order.toNat) :
    AnswerEndsWithin (2 ^ 15 + 2)
      (readInto .field .coefficients 0 n (readS w) s fun t => .next (t.enter .decodeResidual)) := by
  have ⟨_, _, horder, _⟩ := h
  have hcap : 0 + n ≤ Buffer.capacity .coefficients := by
    rw [Nat.zero_add, hn, horder]
    exact orderOfType_le _
  refine .readInto (readS_leavesTail _) hcap fun vs rest hlen => ⟨_, rfl, residualSection_ends rfl hresidual ?_⟩
  exact ⟨h, hcode, hx, fun _ => Memory.written_writeRun_zero (hlen.trans hn) s.c⟩

theorem lpcParams_ends {s : State} (hresidual : s.residual = none) (h : HeaderKnown s) (hcode : 2 ≤ s.typeCode.toNat)
    (hx : Memory.Written s.x s.order.toNat) : AnswerEndsWithin (2 ^ 15 + 2) (lpcParams s) := by
  refine .withField fun f rest => ?_
  split
  · exact .raise _ _ _ _
  · refine .withField fun v rest' => ?_
    split
    · exact .raise _ _ _ _
    · exact lpcCoefficients_end rfl hresidual h hcode hx

theorem readPredParams_ends {s : State} (hphase : s.phase = .readPredParams) (hresidual : s.residual = none)
    (h : HeaderKnown s) (hcode : 32 ≤ s.typeCode.toNat) (hx : Memory.Written s.x s.order.toNat) :
    EndsWithin (2 ^ 15 + 3) s := by
  have ⟨hpending, _⟩ := h
  refine .of_inFlight hpending (.inr (.inr (.inl hphase))) ?_
  rw [State.inFlight, instrOfType_lpc hcode, exec, execLpc, hphase]
  exact lpcParams_ends hresidual h (by omega) hx

theorem warmup_ends {n : Nat} {s : State} {following : Phase} (h : HeaderKnown s)
    (hfollowing : ∀ t, t.phase = following → t.residual = s.residual → t.typeCode = s.typeCode → HeaderKnown t →
      Memory.Written t.x t.order.toNat → EndsWithin n t) : AnswerEndsWithin n (warmup following s) := by
  have ⟨_, _, _, hfits⟩ := h
  exact .readInto (readS_leavesTail _) (s.samples_fit hfits) fun vs rest hlen =>
    ⟨_, rfl, hfollowing _ rfl rfl rfl h (Memory.written_writeRun_zero hlen s.x)⟩

theorem readWarmup_ends {s : State} (hphase : s.phase = .readWarmup) (hresidual : s.residual = none) (h : HeaderKnown s)
    (hcode : 2 ≤ s.typeCode.toNat) : EndsWithin (2 ^ 15 + 4) s := by
  have ⟨hpending, hlegal, _⟩ := h
  refine .of_inFlight hpending (.inr (.inl hphase)) ?_
  rw [State.inFlight]
  rcases fixed_or_lpc_of_two_le s.typeCode.isLt hlegal hcode with hfixed | hlpc
  · obtain ⟨coeffs, _, hexec, _⟩ := exec_fixedInstr (n := s.typeCode.toNat - 8) (by omega) (decide (s.wasted ≠ 0))
    rw [instrOfType_fixed hfixed, hexec, fixedPhases, hphase]
    refine warmup_ends h fun t htphase htres htcode ht hx => ?_
    rw [← htcode] at hfixed hcode
    exact (residualSection_ends htphase (htres.trans hresidual)
      ⟨ht, hcode, hx, fun hlpc => absurd hlpc (by omega)⟩).mono (by omega)
  · rw [instrOfType_lpc hlpc.1, exec, execLpc, hphase]
    refine warmup_ends h fun t htphase htres htcode ht hx => ?_
    rw [← htcode] at hlpc
    exact readPredParams_ends htphase (htres.trans hresidual) ht hlpc.1 hx

/-- The header fails, or goes on to the body of its type code (R67, R71). -/
theorem header_ends {t : Nat} {s : State} (wf : Bool) (ht : t < 64) (hlegal : typeReserved t = false)
    (hpending : s.inbox = []) (hresidual : s.residual = none) :
    AnswerEndsWithin (2 ^ 15 + 4) (header t wf (if t < 2 then .readRaw else .readWarmup) s) := by
  rcases header_cases t wf (if t < 2 then .readRaw else .readWarmup) s with ⟨err, cause, u, heq⟩ | ⟨n, w, heq⟩
  · rw [heq]
    exact .raise _ err cause u
  · rw [heq, State.checkOrder]
    split
    · exact .raise _ _ _ _
    next hfits =>
      have hcode : (BitVec.ofNat 6 t).toNat = t := Nat.mod_eq_of_lt ht
      refine ⟨_, rfl, ?_⟩
      split
      next hraw =>
        exact .mono (readRaw_ends rfl hpending (hcode.trans_lt hraw)) (Nat.le_add_left 1 _)
      next hpredictor =>
        have hknown : HeaderKnown ((s.headerRead t n w).enter .readWarmup) :=
          ⟨hpending, (congrArg typeReserved hcode).trans hlegal,
            (s.headerRead_order_toNat t n w).trans (congrArg orderOfType hcode.symm), Nat.not_lt.mp hfits⟩
        exact readWarmup_ends rfl hresidual hknown ((Nat.not_lt.mp hpredictor).trans_eq hcode.symm)

theorem readHeader_ends {s : State} (hphase : s.phase = .readHeader) (hpending : s.inbox = [])
    (hresidual : s.residual = none) : EndsWithin longestDecode s := by
  refine .of_fetch (n := 2 ^ 15 + 4) hpending ?_
  rw [engineFetch, hphase]
  refine .fetchItem fun i rest hitem => ?_
  have hphase : (s.advanceTo rest).phase = .readHeader := hphase
  rcases decodeHeader_item hitem with rfl | ⟨t, wf, ht, rfl⟩
  · rw [exec, execReservedRsv, hphase]
    exact .raise _ _ _ _
  · cases hlegal : typeReserved t with
    | true =>
      obtain ⟨code, hexec⟩ := exec_instrOfType_reserved hlegal wf (s.advanceTo rest)
      rw [hexec, rejectType, hphase]
      exact .raise _ _ _ _
    | false =>
      rw [exec_instrOfType_readHeader ht hlegal wf hphase]
      exact header_ends wf ht hlegal hpending hresidual

/-! ## From the invariant -/

theorem lt_two_of_variantOfType {t : Nat} (h : variantOfType t = .constant ∨ variantOfType t = .verbatim) : t < 2 := by
  by_contra hge
  unfold variantOfType at h
  rw [if_neg (by omega), if_neg (by omega)] at h
  split at h <;> simp at h

theorem two_le_of_variantOfType {t : Nat} (h : variantOfType t = .fixed ∨ variantOfType t = .lpc) : 2 ≤ t := by
  by_contra hlt
  obtain rfl | rfl : t = 0 ∨ t = 1 := by omega
  · simp [variantOfType] at h
  · simp [variantOfType] at h

theorem variantOfType_eq_lpc_iff {t : Nat} : variantOfType t = .lpc ↔ 32 ≤ t := by
  refine ⟨fun h => ?_, variantOfType_lpc⟩
  unfold variantOfType at h
  split_ifs at h
  omega

section
variable {s : State} (hinv : EngineInv s) (hpending : s.inbox = [])
include hinv

theorem EngineInv.residual_eq_none (hphase : s.phase ≠ .decodeResidual) : s.residual = none :=
  Option.eq_none_iff_forall_ne_some.mpr fun at_ hat => hphase (hinv.residual at_ hat).1

theorem EngineInv.predictor (hphase : s.phase = .readWarmup ∨ s.phase = .decodeResidual ∨ s.phase = .restore) :
    2 ≤ s.typeCode.toNat := by
  have hpast : s.phase.pastHeader = true := by rcases hphase with h | h | h <;> rw [h] <;> rfl
  have hfits := hinv.fits
  rw [(hinv.header hpast).variant] at hfits
  refine two_le_of_variantOfType ?_
  rcases hphase with h | h | h <;> simpa [h, phaseFits] using hfits

include hpending

theorem EngineInv.headerKnown (hpast : s.phase.pastHeader = true) : HeaderKnown s := by
  have h := hinv.header hpast
  exact ⟨hpending, h.legal, h.order, h.fits⟩

theorem EngineInv.primed (hphase : s.phase = .decodeResidual ∨ s.phase = .restore) : Primed s := by
  have hpast : s.phase.pastHeader = true := by rcases hphase with h | h <;> rw [h] <;> rfl
  refine ⟨hinv.headerKnown hpending hpast, hinv.predictor (.inr hphase), (hinv.warmupX (.inr hphase)).written, fun hlpc => ?_⟩
  have hvariant := (hinv.header hpast).variant.trans (variantOfType_lpc hlpc)
  exact (hinv.params hvariant hphase).coefficients.written

end

theorem ResidualAt.atPartition {s : State} {at_ : ResidualProgress} (h : ResidualAt s at_)
    (hphase : s.phase = .decodeResidual) (hat : s.residual = some at_) : AtPartition at_.q s := by
  have hindex : at_.j = at_.q * s.partitionSamples - s.order.toNat := by
    rw [h.index]
    split
    next hzero => simp [hzero]
    · rfl
  refine ⟨hphase, ?_, h.inside, h.large, h.aligned, ?_⟩
  · rw [hat, ← hindex]
  · rw [← hindex]
    exact h.written.written

/-- Settles O50, by the phase that the decode is in; the longest way is that from the header (`readHeader_ends`). -/
theorem everyDecodeEnds : Obligations.EveryDecodeEnds := by
  intro s hinv hbusy hpending
  show EndsWithin longestDecode s
  cases hphase : s.phase with
  | idle => rw [hphase] at hbusy; cases hbusy
  | readHeader => exact readHeader_ends hphase hpending (hinv.residual_eq_none (by simp [hphase]))
  | readRaw =>
    have hfits := hinv.fits
    rw [hphase, (hinv.header (by rw [hphase]; rfl)).variant] at hfits
    exact (readRaw_ends hphase hpending (lt_two_of_variantOfType (of_decide_eq_true hfits))).mono (by decide)
  | readWarmup =>
    exact (readWarmup_ends hphase (hinv.residual_eq_none (by simp [hphase]))
      (hinv.headerKnown hpending (by rw [hphase]; rfl)) (hinv.predictor (.inl hphase))).mono (by decide)
  | readPredParams =>
    have hpast : s.phase.pastHeader = true := by rw [hphase]; rfl
    have hfits := hinv.fits
    rw [hphase, (hinv.header hpast).variant] at hfits
    exact (readPredParams_ends hphase (hinv.residual_eq_none (by simp [hphase])) (hinv.headerKnown hpending hpast)
      (variantOfType_eq_lpc_iff.mp (of_decide_eq_true hfits)) (hinv.warmupX (.inl hphase)).written).mono (by decide)
  | decodeResidual =>
    have hprimed := hinv.primed hpending (.inl hphase)
    cases hresidual : s.residual with
    | none => exact (residualSection_ends hphase hresidual hprimed).mono (by decide)
    | some at_ =>
      have hat := (hinv.residual at_ hresidual).2.atPartition hphase hresidual
      exact (partitions_end hat hprimed (s.partitionCount_le.trans (Nat.le_add_left _ _))).mono (by decide)
  | restore =>
    exact (restore_ends hphase (hinv.primed hpending (.inr hphase)) (hinv.restoreE hphase).written).mono (by decide)
  | done => rw [hphase] at hbusy; cases hbusy
  | failed => rw [hphase] at hbusy; cases hbusy

end Sys2Proof.Machine
end

section
/-! PROOFS. The decoder and the encoder are inverse (R49 to R63): the header rows are those that a type code and a wasted flag
select, each other format has one field. -/

namespace Sys2Proof.Machine

/-! ## The header rows by type code -/

/-- The encoder writes the whole header word for a legal type code, and the word up to the type code for a reserved one (R118). -/
theorem encode_instrOfType {t : Nat} (ht : t < 64) (wf : Bool) :
    encode (instrOfType t wf) =
      ⟨.hdr, if typeReserved t then false :: natToBits 6 t else headerBits t wf, { }⟩ := by
  interval_cases t <;> cases wf <;> decide

theorem instrOfType_reserved_flag {t : Nat} (ht : t < 64) (h : typeReserved t = true) (wf : Bool) :
    instrOfType t wf = instrOfType t false := by
  cases wf with
  | false => rfl
  | true =>
    revert h
    interval_cases t <;> decide

theorem wellFormed_instrOfType {t : Nat} (ht : t < 64) (wf : Bool) : (instrOfType t wf).wellFormed = true := by
  interval_cases t <;> rfl

/-- Every instruction of the header format is the set reserved bit or the row of a type code (R50, R51). -/
theorem hdr_instr_cases {i : Instr} (h : (encode i).format = .hdr) :
    i = .reservedRsv ∨ ∃ t wf, t < 64 ∧ i = instrOfType t wf := by
  cases i with
  | constant wf => exact .inr ⟨0, wf, by decide, rfl⟩
  | verbatim wf => exact .inr ⟨1, wf, by decide, rfl⟩
  | fixed0 wf => exact .inr ⟨8, wf, by decide, rfl⟩
  | fixed1 wf => exact .inr ⟨9, wf, by decide, rfl⟩
  | fixed2 wf => exact .inr ⟨10, wf, by decide, rfl⟩
  | fixed3 wf => exact .inr ⟨11, wf, by decide, rfl⟩
  | fixed4 wf => exact .inr ⟨12, wf, by decide, rfl⟩
  | lpc o wf =>
    refine .inr ⟨32 + o.toNat, wf, by omega, ?_⟩
    rw [instrOfType_lpc (by omega), BitVec.ofNat_add]
    simp
  | reservedRsv => exact .inl rfl
  | reservedType2_3 o => exact .inr ⟨2 + o.toNat, false, by omega, by revert o; decide⟩
  | reservedType4_7 o => exact .inr ⟨4 + o.toNat, false, by omega, by revert o; decide⟩
  | reservedType13 => exact .inr ⟨13, false, by decide, rfl⟩
  | reservedType14_15 o => exact .inr ⟨14 + o.toNat, false, by omega, by revert o; decide⟩
  | reservedType16_31 o => exact .inr ⟨16 + o.toNat, false, by omega, by revert o; decide⟩
  | _ => cases h

/-- The decoder reads the row of a type code from what the encoder writes for it (R69). -/
theorem decodeHeader_instrOfType {t : Nat} (ht : t < 64) (wf : Bool) (rest : List Bool) :
    decodeHeader ((encode (instrOfType t wf)).bits ++ rest) = .item (instrOfType t wf) rest := by
  rw [encode_instrOfType ht]
  cases hlegal : typeReserved t with
  | true =>
    rw [instrOfType_reserved_flag ht hlegal wf]
    simp [decodeHeader, takeBits_of_lt (n := 6) ht, hlegal]
  | false => simp [decodeHeader, headerBits, takeBits_of_lt (n := 6) ht, hlegal]

/-- The header decoder consumes what the encoder writes for the row it reads (R63). -/
theorem decodeHeader_bits {bits rest : List Bool} {i : Instr} (h : decodeHeader bits = .item i rest) :
    i.wellFormed = true ∧ (encode i).format = .hdr ∧ bits = (encode i).bits ++ rest := by
  have hrow : ∀ {t : Nat} {wf : Bool}, t < 64 →
      bits = (if typeReserved t then false :: natToBits 6 t else headerBits t wf) ++ rest →
      (instrOfType t wf).wellFormed = true ∧ (encode (instrOfType t wf)).format = .hdr ∧
        bits = (encode (instrOfType t wf)).bits ++ rest := by
    intro t wf ht hbits
    rw [encode_instrOfType ht]
    exact ⟨wellFormed_instrOfType ht wf, rfl, hbits⟩
  unfold decodeHeader at h
  split at h
  · cases h
  · cases h; exact ⟨rfl, rfl, rfl⟩
  · split at h
    · cases h
    · rename_i t r htake
      obtain ⟨ht, hfield⟩ := takeBits_some htake
      split at h
      next hreserved =>
        cases h
        exact hrow ht (by simp [hreserved, hfield])
      next hlegal =>
        split at h
        · cases h
        · cases h
          exact hrow ht (by simp [hlegal, hfield, headerBits])

/-! ## Residual headers, partitions and commands -/

theorem decodeResidualHeader_bits {bits rest : List Bool} {i : Instr} (h : decodeResidualHeader bits = .item i rest) :
    i.wellFormed = true ∧ (encode i).format = .res ∧ bits = (encode i).bits ++ rest := by
  unfold decodeResidualHeader at h
  split at h
  · cases h; exact ⟨rfl, rfl, rfl⟩
  · rename_i m _
    split at h
    · cases h
    · rename_i p r htake
      obtain ⟨hp, hfield⟩ := takeBits_some htake
      have hcode : (BitVec.ofNat 4 p).toNat = p := Nat.mod_eq_of_lt hp
      cases h
      cases m with
      | true => exact ⟨rfl, rfl, by simp [encode, hcode, hfield]⟩
      | false => exact ⟨rfl, rfl, by simp [encode, hcode, hfield]⟩
  · cases h

theorem decodePartition4_bits {bits rest : List Bool} {i : Instr} (h : decodePartition4 bits = .item i rest) :
    i.wellFormed = true ∧ (encode i).format = .part4 ∧ bits = (encode i).bits ++ rest := by
  unfold decodePartition4 at h
  split at h
  · cases h
  · rename_i k r htake
    obtain ⟨hk, hfield⟩ := takeBits_some htake
    have hcode : (BitVec.ofNat 4 k).toNat = k := Nat.mod_eq_of_lt hk
    cases h
    split
    next hescape => exact ⟨rfl, rfl, by rw [hfield, hescape]; rfl⟩
    next hrice => exact ⟨by simp only [Instr.wellFormed, hcode, decide_eq_true_eq]; omega, rfl, by simp [encode, hcode, hfield]⟩

theorem decodePartition5_bits {bits rest : List Bool} {i : Instr} (h : decodePartition5 bits = .item i rest) :
    i.wellFormed = true ∧ (encode i).format = .part5 ∧ bits = (encode i).bits ++ rest := by
  unfold decodePartition5 at h
  split at h
  · cases h
  · rename_i k r htake
    obtain ⟨hk, hfield⟩ := takeBits_some htake
    have hcode : (BitVec.ofNat 5 k).toNat = k := Nat.mod_eq_of_lt hk
    cases h
    split
    next hescape => exact ⟨rfl, rfl, by rw [hfield, hescape]; rfl⟩
    next hrice => exact ⟨by simp only [Instr.wellFormed, hcode, decide_eq_true_eq]; omega, rfl, by simp [encode, hcode, hfield]⟩

/-- The encoder writes a command's code (R106). -/
theorem encode_commandOfCode {code : Nat} (hcode : code < 8) (args : CommandArgs) :
    (commandOfCode code args).wellFormed = true ∧ (encode (commandOfCode code args)).format = .cmd ∧
      (encode (commandOfCode code args)).bits = natToBits 3 code := by
  interval_cases code <;> exact ⟨rfl, rfl, rfl⟩

theorem decodeCommand_bits {bits rest : List Bool} {args : CommandArgs} {i : Instr}
    (h : decodeCommand args bits = .item i rest) :
    i.wellFormed = true ∧ (encode i).format = .cmd ∧ bits = (encode i).bits ++ rest := by
  unfold decodeCommand at h
  split at h
  · cases h
  · rename_i code r htake
    obtain ⟨hcode, hfield⟩ := takeBits_some htake
    cases h
    obtain ⟨hwf, hformat, hbits⟩ := encode_commandOfCode hcode args
    exact ⟨hwf, hformat, by rw [hbits, hfield]⟩

/-- A command's code and arguments decode to the command (R106). -/
theorem decodeCommand_code {code : Nat} (hcode : code < 8) (args : CommandArgs) (rest : List Bool) :
    decodeCommand args (natToBits 3 code ++ rest) = .item (commandOfCode code args) rest := by
  simp [decodeCommand, takeBits_of_lt (n := 3) hcode]

/-- Settles O2, format by format. -/
theorem encodeOfDecodeIsIdentity : Obligations.EncodeOfDecodeIsIdentity := by
  intro f bits rest args i h
  cases f with
  | hdr => exact decodeHeader_bits h
  | res => exact decodeResidualHeader_bits h
  | part4 => exact decodePartition4_bits h
  | part5 => exact decodePartition5_bits h
  | cmd => exact decodeCommand_bits h

/-- Settles O1: the header rows by their type code (`decodeHeader_instrOfType`), every other row by its one field. -/
theorem decodeOfEncodeIsIdentity : Obligations.DecodeOfEncodeIsIdentity := by
  intro i rest hwf
  by_cases hhdr : (encode i).format = .hdr
  · rw [hhdr]
    rcases hdr_instr_cases hhdr with rfl | ⟨t, wf, ht, rfl⟩
    · rfl
    · exact decodeHeader_instrOfType ht wf rest
  · cases i with
    | resRice p => simp [encode, decode, decodeResidualHeader, takeBits_of_lt p.isLt]
    | resRice2 p => simp [encode, decode, decodeResidualHeader, takeBits_of_lt p.isLt]
    | resReserved x => rfl
    | partRice4 k =>
      have hk : k.toNat < 15 := of_decide_eq_true hwf
      simp [encode, decode, decodePartition4, takeBits_of_lt k.isLt, hk.ne]
    | partEsc4 => rfl
    | partRice5 k =>
      have hk : k.toNat < 31 := of_decide_eq_true hwf
      simp [encode, decode, decodePartition5, takeBits_of_lt k.isLt, hk.ne]
    | partEsc5 => rfl
    | cmdReset => exact decodeCommand_code (code := 0) (by decide) _ rest
    | cmdStart bs bps tr => exact decodeCommand_code (code := 1) (by decide) _ rest
    | cmdRead dest len => exact decodeCommand_code (code := 2) (by decide) _ rest
    | cmdQueryType => exact decodeCommand_code (code := 3) (by decide) _ rest
    | cmdQueryWasted => exact decodeCommand_code (code := 4) (by decide) _ rest
    | cmdQueryStatus => exact decodeCommand_code (code := 5) (by decide) _ rest
    | cmdReserved x =>
      cases x with
      | false => exact decodeCommand_code (code := 6) (by decide) _ rest
      | true => exact decodeCommand_code (code := 7) (by decide) _ rest
    | _ => exact absurd rfl hhdr

/-- Settles O3: each word is one concrete run of the decoder. -/
theorem wordsFromTheSpecDecode : Obligations.WordsFromTheSpecDecode := by
  unfold Obligations.WordsFromTheSpecDecode
  decide

/-! ## Streams of bytes -/

@[simp] theorem bitsOfBytes_length (bytes : List (BitVec 8)) : (bitsOfBytes bytes).length = 8 * bytes.length := by
  induction bytes with
  | nil => rfl
  | cons b bytes ih => simp [bitsOfBytes, ih]; omega

theorem bitsOfBytes_append (before after : List (BitVec 8)) :
    bitsOfBytes (before ++ after) = bitsOfBytes before ++ bitsOfBytes after := by
  induction before with
  | nil => rfl
  | cons b before ih => simp [bitsOfBytes, ih]

/-- Settles O8: the bytes before fill whole bytes of bits (`bitsOfBytes_length`), and a byte's field is its value. -/
theorem bytesAreReadFromBitSeven : Obligations.BytesAreReadFromBitSeven := by
  intro before after b
  rw [bitsOfBytes_append, ← bitsOfBytes_length before, List.drop_left]
  exact takeBits_of_lt b.isLt (bitsOfBytes after)

end Sys2Proof.Machine
end

section
/-! PROOFS. The buffers as data (log entry 2), entering FAILED (R117), and the codes of the status fields (R19, R115). -/

namespace Sys2Proof.Machine

/-! ## Canonical buffers -/

/-- In the canonical form an index below all those listed has no word. -/
theorem Memory.read_eq_none {m : Memory} {i : Nat} (h : ∀ p ∈ m, i < p.1) : Memory.read m i = none := by
  induction m with
  | nil => rfl
  | cons p m ih =>
    obtain ⟨hp, hm⟩ := List.forall_mem_cons.mp h
    simp only [Memory.read, if_neg hp.ne', ih hm]

theorem Memory.read_cons_same (i : Nat) (v : Word) (m : Memory) : Memory.read ((i, v) :: m) i = some v := by
  simp [Memory.read]

theorem Memory.read_cons_of_ne {i j : Nat} (v : Word) (m : Memory) (h : j ≠ i) :
    Memory.read ((j, v) :: m) i = Memory.read m i := by
  simp [Memory.read, h]

theorem Memory.wf_cons_iff {i : Nat} {v : Word} {m : Memory} :
    Memory.wf ((i, v) :: m) = true ↔ (∀ p ∈ m, i < p.1) ∧ Memory.wf m = true := by
  rw [Memory.wf_iff, Memory.wf_iff, List.pairwise_cons]

/-- Below the first listed index nothing is read, so two buffers that read alike begin at the same index. -/
theorem Memory.head_le_of_read_eq {i j : Nat} {v w : Word} {m m' : Memory} (hm' : Memory.wf ((j, w) :: m') = true)
    (h : ∀ k, Memory.read ((i, v) :: m) k = Memory.read ((j, w) :: m') k) : j ≤ i := by
  by_contra hlt
  obtain ⟨hfirst, _⟩ := Memory.wf_cons_iff.mp hm'
  have hnone : Memory.read ((j, w) :: m') i = none :=
    Memory.read_eq_none (List.forall_mem_cons.mpr ⟨by simpa using hlt, fun p hp => by have := hfirst p hp; omega⟩)
  rw [← h i, Memory.read_cons_same] at hnone
  cases hnone

theorem Memory.eq_of_read_eq {m m' : Memory} (hm : Memory.wf m = true) (hm' : Memory.wf m' = true)
    (h : ∀ i, Memory.read m i = Memory.read m' i) : m = m' := by
  induction m generalizing m' with
  | nil =>
    cases m' with
    | nil => rfl
    | cons q m' => have := h q.1; simp [Memory.read] at this
  | cons p m ih =>
    cases m' with
    | nil => have := h p.1; simp [Memory.read] at this
    | cons q m' =>
      obtain ⟨i, v⟩ := p
      obtain ⟨j, w⟩ := q
      obtain rfl : i = j :=
        Nat.le_antisymm (Memory.head_le_of_read_eq hm fun k => (h k).symm) (Memory.head_le_of_read_eq hm' h)
      obtain ⟨hi, hm⟩ := Memory.wf_cons_iff.mp hm
      obtain ⟨hi', hm'⟩ := Memory.wf_cons_iff.mp hm'
      have hv : some v = some w := by simpa only [Memory.read_cons_same] using h i
      have htail : ∀ k, Memory.read m k = Memory.read m' k := by
        intro k
        rcases Nat.lt_or_ge i k with hk | hk
        · simpa only [Memory.read_cons_of_ne _ _ hk.ne] using h k
        · rw [Memory.read_eq_none fun p hp => hk.trans_lt (hi p hp), Memory.read_eq_none fun p hp => hk.trans_lt (hi' p hp)]
      rw [Option.some.inj hv, ih hm hm' htail]

/-- Settles O9: both orders of two writes read alike and are canonical, so they are the same data (`Memory.eq_of_read_eq`). -/
theorem buffersAreCanonical : Obligations.BuffersAreCanonical := by
  refine fun m m' hm hm' => ⟨Memory.eq_of_read_eq hm hm', fun i j v w hij => ?_⟩
  refine Memory.eq_of_read_eq (Memory.wf_write _ _ _ (Memory.wf_write _ _ _ hm))
    (Memory.wf_write _ _ _ (Memory.wf_write _ _ _ hm)) fun k => ?_
  simp only [Memory.read_write]
  by_cases hi : i = k
  · rw [if_pos hi, if_pos hi, if_neg (by omega)]
  · rw [if_neg hi, if_neg hi]

/-! ## Entering FAILED -/

/-- The position after a failure is the decode's first bit and what the free value adds, at most the end of the stream. -/
theorem raise_srcPos_le (err : Err) (cause : Cause) {s : State} (h : s.srcPos ≤ s.source.length) :
    (raise err cause s).srcPos ≤ (raise err cause s).source.length := by
  have := s.unspecified_le (s.source.length - (s.srcPos - s.cursor))
  rw [raise_srcPos, raise_source]
  omega

/-- Settles O10: the frame by definition, the position by `raise_srcPos_le`. -/
theorem raiseEntersFailed : Obligations.RaiseEntersFailed :=
  fun err cause _ => ⟨rfl, fun _ hpos => ⟨raise_srcPos_le err cause hpos, rfl⟩⟩

/-- Settles O12, code by code. -/
theorem statusCodesAreTheTables : Obligations.StatusCodesAreTheTables := by
  unfold Obligations.StatusCodesAreTheTables
  decide

/-! ## Raw samples -/

/-- The range of a signed field that has a bit (R9). -/
theorem sext_bounds {n v : Nat} (hn : 1 ≤ n) (hv : v < 2 ^ n) :
    -(2 : Int) ^ (n - 1) ≤ sext n v ∧ sext n v < (2 : Int) ^ (n - 1) := by
  obtain ⟨m, rfl⟩ := Nat.exists_eq_add_of_le' hn
  exact sext_succ_bounds hv

/-- Settles O21: a value of `bps - w` bits times `2^w` stays within `bps` bits. -/
theorem rawShiftNeverWraps : Obligations.RawShiftNeverWraps := by
  intro bps w v hbps hw hv
  obtain ⟨hlo, hhi⟩ := sext_bounds (by omega) hv
  have hpow : (2 : Int) ^ (bps - w - 1) * 2 ^ w ≤ 2 ^ 31 := by
    rw [← pow_add]
    exact pow_le_pow_right₀ (by norm_num) (by omega)
  have hpos : (0 : Int) < 2 ^ w := by positivity
  exact wrap32_of_fits (by nlinarith) (by nlinarith)

end Sys2Proof.Machine
end

section
/-! PROOFS. The header rows (R69 to R72): the fields a legal type code writes, the wasted count, and the rejected rows. -/

namespace Sys2Proof.Machine

/-- A header word without wasted flag, its order within the block, enters the body with `WASTED` 0 and no bit read (R69 to R72). -/
theorem exec_header_absent {t : Nat} {s : State} (ht : t < 64) (hlegal : typeReserved t = false)
    (hphase : s.phase = .readHeader) (hfits : orderOfType t ≤ s.blockSize) :
    exec (instrOfType t false) s = .next { s with
      typeCode := BitVec.ofNat 6 t
      variant := variantOfType t
      order := BitVec.ofNat 6 (orderOfType t)
      wasted := 0
      phase := if t < 2 then .readRaw else .readWarmup } := by
  rw [exec_instrOfType_readHeader ht hlegal false hphase, header_absent, State.checkOrder_within _ (by simpa using hfits)]
  rfl

/-- Settles O13, from `exec_header_absent` by the table of R71. -/
theorem headerSelectsVariantAndOrder : Obligations.HeaderSelectsVariantAndOrder := by
  intro s t hphase
  refine ⟨fun _ => exec_header_absent (t := 0) (by decide) rfl hphase (Nat.zero_le _),
    fun _ => exec_header_absent (t := 1) (by decide) rfl hphase (Nat.zero_le _), fun hlo hhi hfits => ?_,
    fun hlo hhi hfits => ?_⟩
  · have h := exec_header_absent (t := t) (by omega) (by simp [typeReserved]; omega) hphase
      (by rwa [orderOfType_fixed ⟨hlo, hhi⟩])
    rwa [instrOfType_fixed ⟨hlo, hhi⟩, variantOfType_fixed ⟨hlo, hhi⟩, orderOfType_fixed ⟨hlo, hhi⟩, if_neg (by omega)] at h
  · have h := exec_header_absent (t := t) (by omega) (by simp [typeReserved]; omega) hphase
      (by rwa [orderOfType_lpc ⟨hlo, hhi⟩])
    have ho : BitVec.ofNat 5 t = BitVec.ofNat 5 (t - 32) := BitVec.eq_of_toNat_eq (by simp only [BitVec.toNat_ofNat]; omega)
    rwa [instrOfType_lpc hlo, ho, variantOfType_lpc hlo, orderOfType_lpc ⟨hlo, hhi⟩, if_neg (by omega)] at h

/-- A count at or above `bps` is rejected when its code has been read, before the order is checked (R70). -/
theorem header_wastedTooLarge {n : Nat} {rest : List Bool} {s : State} (t : Nat) (body : Phase)
    (hcode : s.unread = List.replicate n false ++ true :: rest) (hlarge : s.cfgBps.toNat ≤ n + 1) :
    header t true body s = .next (raiseStream .wastedTooLarge (s.headerRead t (n + 1) (latch 5 (n + 1)))) :=
  (readWasted_code (s := s.dispatch t) _ hcode).trans (if_pos hlarge)

theorem header_short {s : State} (t : Nat) (body : Phase) (hshort : readUnary s.unread = none) :
    header t true body s = .next (readFail .field (s.dispatch t)) :=
  readWasted_short (s := s.dispatch t) _ hshort

/-- Settles O14, by the three ends of the wasted count (`header_code`, `header_wastedTooLarge`, `header_short`). -/
theorem wastedCountIsZerosPlusOne : Obligations.WastedCountIsZerosPlusOne := by
  intro s t k rest hphase hbps ht hlegal
  have hexec := exec_instrOfType_readHeader ht hlegal true hphase
  refine ⟨fun hfits => ⟨_, exec_header_absent ht hlegal hphase hfits, rfl, rfl⟩, fun hcode hcount hfits => ?_,
    fun hcode hlarge => ?_, fun hzeros => ?_⟩
  · rw [hexec, header_code t _ hcode hcount, State.checkOrder_within _ (by simpa using hfits), latch_of_lt (by omega)]
    rfl
  · rw [hexec, header_wastedTooLarge t _ hcode hlarge]
    exact ⟨failsWith_raise _ _ rfl rfl rfl rfl rfl rfl rfl rfl, fun hcount => ⟨_, rfl, latch_of_lt hcount⟩⟩
  · rw [hexec, header_short t _ (by rw [hzeros, readUnary_zeros])]
    exact failsWith_readFail rfl rfl rfl rfl rfl rfl rfl rfl

theorem rejectType_readHeader {s : State} (t : Nat) (hphase : s.phase = .readHeader) :
    rejectType t s = .next (raise .invalidStream .reservedType { s with typeCode := BitVec.ofNat 6 t }) := by
  rw [rejectType, hphase]
  rfl

theorem exec_reservedRsv {s : State} (hphase : s.phase = .readHeader) :
    exec .reservedRsv s = .next (raise .invalidStream .reservedBit s) := by
  rw [exec, execReservedRsv, hphase]
  rfl

/-- Settles O16: a set reserved bit is one row, and all the reserved type codes are one rejection (`rejectType_readHeader`). -/
theorem reservedHeadersFail : Obligations.ReservedHeadersFail := fun _ hphase =>
  ⟨exec_reservedRsv hphase, fun _ => rejectType_readHeader _ hphase, fun _ => rejectType_readHeader _ hphase,
    rejectType_readHeader 13 hphase, fun _ => rejectType_readHeader _ hphase, fun _ => rejectType_readHeader _ hphase⟩

end Sys2Proof.Machine
end

section
/-! PROOFS. The warm-up (R73) and the bodies without a predictor (R74, R75): signed fields read into the samples, and streams that
end inside one. -/

namespace Sys2Proof.Machine

/-! ## Runs of signed fields -/

theorem readRun_fields {w : Nat} {vs : List Nat} (hvs : ∀ v ∈ vs, v < 2 ^ w) (rest : List Bool) :
    readRun (readS w) vs.length (fieldsBits w vs ++ rest) = (vs.map fun v => wrap32 (sext w v), .complete rest) :=
  readRun_codes (readS w) (natToBits w) (fun v => wrap32 (sext w v)) vs (fun v hv tail => readS_field (hvs v hv) tail) rest

/-- Signed fields that are all there are read into a buffer, and the cursor moves over them (R33, R43). -/
theorem readInto_fields {cls : ReadClass} {b : Buffer} {base w : Nat} {vs : List Nat} {s : State} {rest : List Bool}
    (k : State → Result) (hcap : base + vs.length ≤ b.capacity) (hvs : ∀ v ∈ vs, v < 2 ^ w)
    (hbits : s.unread = fieldsBits w vs ++ rest) :
    readInto cls b base vs.length (readS w) s k =
      k ((s.setBuffer b (Memory.writeRun (s.buffer b) base (vs.map fun v => wrap32 (sext w v)))).consumed
        (vs.length * w)) := by
  rw [readInto_complete hcap hbits (by rw [hbits, readRun_fields hvs]), fieldsBits_length]

/-- A run of reads that the stream ends inside (R116). -/
theorem readInto_short {cls : ReadClass} {b : Buffer} {base n : Nat} {code : List Bool → CodeRead} {s : State}
    (k : State → Result) (hcap : base + n ≤ b.capacity) (h : (readRun code n s.unread).2 = .short) :
    readInto cls b base n code s k =
      .next (readFail cls (s.setBuffer b (Memory.writeRun (s.buffer b) base (readRun code n s.unread).1))) := by
  rcases readInto_cases (cls := cls) (k := k) hcap with ⟨_, hend, _⟩ | ⟨_, heq⟩ | ⟨hend, _⟩
  · cases h.symm.trans hend
  · exact heq
  · cases h.symm.trans hend

/-- A run of reads that a Rice code too large ends (R103). -/
theorem readInto_overflow {cls : ReadClass} {b : Buffer} {base n : Nat} {code : List Bool → CodeRead} {s : State}
    (k : State → Result) (hcap : base + n ≤ b.capacity) (h : (readRun code n s.unread).2 = .overflow) :
    readInto cls b base n code s k =
      .next (raiseStream .riceOverflow (s.setBuffer b (Memory.writeRun (s.buffer b) base (readRun code n s.unread).1))) := by
  rcases readInto_cases (cls := cls) (k := k) hcap with ⟨_, hend, _⟩ | ⟨hend, _⟩ | ⟨_, heq⟩
  · cases h.symm.trans hend
  · cases h.symm.trans hend
  · exact heq

/-- Fewer bits than the fields need are a field-read failure, whichever buffer the fields go to. -/
theorem failsWith_shortFields {b : Buffer} {base n w : Nat} {s : State} (k : State → Result)
    (hcap : base + n ≤ b.capacity) (hshort : s.unread.length < n * w) :
    FailsWith (readInto .field b base n (readS w) s k) s (if s.truncEn then .truncated else .invalidStream)
      .readFailField := by
  rw [readInto_short k hcap (readRun_readS_short hshort)]
  cases b <;> exact failsWith_readFail rfl rfl rfl rfl rfl rfl rfl rfl

/-! ## The warm-up -/

theorem exec_fixedInstr_readWarmup {n : Nat} {s : State} (hn : n ≤ 4) (wf : Bool) (hphase : s.phase = .readWarmup) :
    exec (fixedInstr n wf) s = warmup .decodeResidual s := by
  obtain ⟨coeffs, _, hexec, _⟩ := exec_fixedInstr hn wf
  simp only [hexec, fixedPhases, hphase]

theorem exec_lpc_readWarmup {s : State} (o : BitVec 5) (wf : Bool) (hphase : s.phase = .readWarmup) :
    exec (.lpc o wf) s = warmup .readPredParams s := by
  simp only [exec, execLpc, hphase]

theorem State.order_fits (s : State) : 0 + s.order.toNat ≤ Buffer.capacity .samples := by
  show 0 + s.order.toNat ≤ 65535
  omega

theorem warmup_fields {vs : List Nat} {s : State} {rest : List Bool} (following : Phase)
    (hcount : vs.length = s.order.toNat) (hvs : ∀ v ∈ vs, v < 2 ^ s.sampleWidth)
    (hbits : s.unread = fieldsBits s.sampleWidth vs ++ rest) :
    warmup following s = .next { s.consumed (s.order.toNat * s.sampleWidth) with
      x := Memory.writeRun s.x 0 (vs.map fun v => wrap32 (sext s.sampleWidth v)), phase := following } := by
  have hcap : 0 + vs.length ≤ Buffer.capacity .samples := hcount ▸ s.order_fits
  rw [warmup, ← hcount, readInto_fields _ hcap hvs hbits]
  rfl

/-- Words written from index 0 on read back from there. -/
theorem Memory.read_writeRun_zero {α : Type} (m : Memory) (us : List α) (val : α → Word) (d : α) (n : Nat) :
    Memory.read (Memory.writeRun m 0 (us.map val)) n = if n < us.length then some (val (us.getD n d)) else Memory.read m n := by
  simpa using Memory.read_writeRun_map m 0 us val d n

/-- Settles O17: both predictors read the same warm-up (`warmup_fields`), and a short one fails alike (`failsWith_shortFields`). -/
theorem warmupReadsSamples : Obligations.WarmupReadsSamples := by
  rintro s wf _ hphase rfl
  refine ⟨fun vs rest hcount hvs hbits => ?_, fun hshort => ?_⟩
  · have hread := Memory.read_writeRun_zero s.x vs (fun v => wrap32 (sext s.sampleWidth v)) 0
    rw [hcount] at hread
    exact ⟨fun n hn => ⟨_, (exec_fixedInstr_readWarmup hn wf hphase).trans (warmup_fields _ hcount hvs hbits), rfl, hread⟩,
      fun o => ⟨_, (exec_lpc_readWarmup o wf hphase).trans (warmup_fields _ hcount hvs hbits), rfl, hread⟩⟩
  · have hfails := fun following : Phase =>
      failsWith_shortFields (fun t => .next (t.enter following)) s.order_fits hshort
    exact ⟨fun n hn => exec_fixedInstr_readWarmup hn wf hphase ▸ hfails .decodeResidual,
      fun o => exec_lpc_readWarmup o wf hphase ▸ hfails .readPredParams⟩

/-! ## Constant and Verbatim -/

theorem exec_constant_readRaw {s : State} (wf : Bool) (hphase : s.phase = .readRaw) : exec (.constant wf) s = constantBody s := by
  simp only [exec, execConstant, hphase]

theorem exec_verbatim_readRaw {s : State} (wf : Bool) (hphase : s.phase = .readRaw) : exec (.verbatim wf) s = verbatimBody s := by
  simp only [exec, execVerbatim, hphase]

theorem constantBody_short {s : State} (h : s.unread.length < s.sampleWidth) :
    constantBody s = .next (readFail .field s) := by
  simp only [constantBody, readS, takeBits_none.mpr h]

/-- Settles O18: one field that is short (`constantBody_short`), and a run of fields that is (`failsWith_shortFields`). -/
theorem shortRawFieldsFail : Obligations.ShortRawFieldsFail := by
  rintro s wf _ hphase rfl
  rw [exec_constant_readRaw wf hphase, exec_verbatim_readRaw wf hphase]
  refine ⟨fun hshort => ?_, failsWith_shortFields _ (s.samples_fit le_rfl)⟩
  rw [constantBody_short hshort]
  exact failsWith_readFail rfl rfl rfl rfl rfl rfl rfl rfl

/-- A shift makes no difference between a value and the register that holds it (R9, R76). -/
theorem wrap32_toInt_mul (a b : Int) : wrap32 ((wrap32 a).toInt * b) = wrap32 (a * b) := by
  simp only [wrap32, BitVec.ofInt_mul, BitVec.ofInt_toInt]

/-- With the values of a block in the samples, the decode ends with each of them shifted (R76). -/
theorem complete_block {α : Type} {vs : List α} (val : α → Int) (d : α) {m : Memory} {u : State}
    (hcount : vs.length = u.blockSize) (hx : u.x = Memory.writeRun m 0 (vs.map fun v => wrap32 (val v))) :
    ∃ t, complete u = .next t ∧ t = { u with x := t.x, phase := .done, responses := u.responses ++ [.done] } ∧
      ∀ i, Memory.read t.x i =
        if i < u.blockSize then some (wrap32 (val (vs.getD i d) * 2 ^ u.wasted.toNat)) else Memory.read m i := by
  have hread := Memory.read_writeRun_zero m vs (fun v => wrap32 (val v)) d
  rw [hcount, ← hx] at hread
  obtain ⟨t, ht, hframe, _, hshift⟩ := complete_next (s := u) (f := fun i => wrap32 (val (vs.getD i d)))
    fun i hi => (hread i).trans (if_pos hi)
  refine ⟨t, ht, hframe, fun i => ?_⟩
  rw [hshift i]
  split
  · rw [wrap32_toInt_mul]
  next hout => rw [hread i, if_neg hout]

/-- `s` after `n` bits, with the words `vs` written into the samples from 0 on. -/
def State.blockRead (n : Nat) (vs : List Word) (s : State) : State :=
  { s.consumed n with x := Memory.writeRun s.x 0 vs }

theorem constantBody_field {v : Nat} {s : State} {rest : List Bool} (hv : v < 2 ^ s.sampleWidth)
    (hbits : s.unread = natToBits s.sampleWidth v ++ rest) :
    constantBody s = complete (s.blockRead s.sampleWidth
      ((List.replicate s.blockSize v).map fun v => wrap32 (sext s.sampleWidth v))) := by
  have hadvance := State.advanceTo_append hbits
  rw [natToBits_length] at hadvance
  have hcap : 0 + (List.replicate s.blockSize (wrap32 (sext s.sampleWidth v))).length ≤ Buffer.capacity .samples := by
    rw [List.length_replicate]
    exact s.samples_fit le_rfl
  simp only [constantBody, hbits, readS_field hv, hadvance, writeWords_inside _ hcap, andThen_next, List.map_replicate]
  rfl

/-- Settles O19: the field fills the block (`constantBody_field`), which is then shifted (`complete_block`). -/
theorem constantFillsBlock : Obligations.ConstantFillsBlock := by
  rintro s wf _ v rest hphase rfl hv hbits
  rw [exec_constant_readRaw wf hphase, constantBody_field hv hbits]
  obtain ⟨t, ht, hframe, hread⟩ := complete_block (sext s.sampleWidth) v (m := s.x)
    (u := s.blockRead s.sampleWidth ((List.replicate s.blockSize v).map fun v => wrap32 (sext s.sampleWidth v)))
    List.length_replicate rfl
  simp only [List.getD_eq_getElem?_getD, List.getElem?_getD_replicate_default_eq] at hread
  exact ⟨t, ht, hframe, hread⟩

theorem verbatimBody_fields {vs : List Nat} {s : State} {rest : List Bool} (hcount : vs.length = s.blockSize)
    (hvs : ∀ v ∈ vs, v < 2 ^ s.sampleWidth) (hbits : s.unread = fieldsBits s.sampleWidth vs ++ rest) :
    verbatimBody s = complete (s.blockRead (s.blockSize * s.sampleWidth)
      (vs.map fun v => wrap32 (sext s.sampleWidth v))) := by
  have hcap : 0 + vs.length ≤ Buffer.capacity .samples := s.samples_fit hcount.le
  rw [verbatimBody, ← hcount, readInto_fields _ hcap hvs hbits]
  rfl

/-- Settles O20: the fields are the block (`verbatimBody_fields`), which is then shifted (`complete_block`). -/
theorem verbatimReadsBlock : Obligations.VerbatimReadsBlock := by
  rintro s wf _ vs rest hphase rfl hcount hvs hbits
  rw [exec_verbatim_readRaw wf hphase, verbatimBody_fields hcount hvs hbits]
  exact complete_block (sext s.sampleWidth) 0 (m := s.x)
    (u := s.blockRead (s.blockSize * s.sampleWidth) (vs.map fun v => wrap32 (sext s.sampleWidth v))) hcount rfl

end Sys2Proof.Machine
end

section
/-! PROOFS. The restoration (R79 to R85, R90, R91) and the LPC parameters (R86 to R89). -/

namespace Sys2Proof.Machine

/-! ## The loop over the predicted samples -/

/-- `s` with other samples and another accumulator: what a restoration writes (R79, R90). -/
def State.withSamples (m : Memory) (a : Acc) (s : State) : State := { s with x := m, acc := a }

@[simp] theorem State.withSamples_order (m : Memory) (a : Acc) (s : State) : (s.withSamples m a).order = s.order := rfl

@[simp] theorem State.withSamples_shift (m : Memory) (a : Acc) (s : State) : (s.withSamples m a).shift = s.shift := rfl

/-- The samples before index `i` are those of `x`, the others as in `m0`. -/
def Memory.FilledTo (m0 : Memory) (x : Nat → Word) (i : Nat) (m : Memory) : Prop :=
  ∀ j, Memory.read m j = if j < i then some (x j) else Memory.read m0 j

theorem Memory.Holds.filledTo {m : Memory} {n : Nat} {x : Nat → Word} (h : Memory.Holds m n x) : Memory.FilledTo m x n m := by
  intro j
  split
  next hj => exact h j hj
  · rfl

theorem Memory.FilledTo.write {m0 m : Memory} {x : Nat → Word} {i : Nat} (h : Memory.FilledTo m0 x i m) :
    Memory.FilledTo m0 x (i + 1) (Memory.write m i (x i)) := by
  intro j
  rw [Memory.read_write, h j]
  by_cases hij : i = j
  · simp [hij]
  · simp only [if_neg hij, show j < i + 1 ↔ j < i by omega]

/-- The `n` samples before index `i`, nearest first. -/
theorem Memory.FilledTo.readDown {m0 m : Memory} {x : Nat → Word} {i n : Nat} (h : Memory.FilledTo m0 x i m) (hn : n ≤ i) :
    Memory.readDown m i n = some ((List.range n).map fun k => x (i - 1 - k)) :=
  Memory.readDown_of_holds m x i n hn fun k hk => by rw [h, if_pos (by omega)]

/-- A restoration whose passes write the samples `x` and leave `a i` in the accumulator before sample `i`: the block is `x`
shifted by the wasted count, and the decode is DONE (R66, R76). -/
theorem restoreLoop_block {s : State} {body : Nat → State → Result} {x : Nat → Word} {a : Nat → Acc}
    (horder : s.order.toNat ≤ s.blockSize) (hx : Memory.Holds s.x s.order.toNat x) (hacc : a s.order.toNat = s.acc)
    (hbody : ∀ i m, s.order.toNat ≤ i → i < s.blockSize → Memory.FilledTo s.x x i m →
      body i (s.withSamples m (a i)) = .next (s.withSamples (Memory.write m i (x i)) (a (i + 1)))) :
    ∃ t, andThen (forEach body (s.blockSize - s.order.toNat) s.order.toNat s) complete = .next t ∧
      t = { s with x := t.x, acc := a s.blockSize, phase := .done, responses := s.responses ++ [.done] } ∧
      ∀ i, Memory.read t.x i =
        if i < s.blockSize then some (wrap32 ((x i).toInt * 2 ^ s.wasted.toNat)) else Memory.read s.x i := by
  obtain ⟨u, hu, m, rfl, hm⟩ := forEach_carries (body := body)
    (fun i u => ∃ m, u = s.withSamples m (a i) ∧ Memory.FilledTo s.x x i m)
    (s.blockSize - s.order.toNat) s.order.toNat s ⟨s.x, by rw [hacc]; rfl, hx.filledTo⟩ (by
      rintro i _ hlo hhi ⟨m, rfl, hm⟩
      exact ⟨_, hbody i m hlo (by omega) hm, _, rfl, hm.write⟩)
  rw [Nat.add_sub_cancel' horder] at hu hm
  obtain ⟨t, ht, hframe, _, hread⟩ := complete_next (s := s.withSamples m (a s.blockSize)) (f := x)
    fun i hi => (hm i).trans (if_pos hi)
  rw [hu, andThen_next]
  refine ⟨t, ht, hframe, fun i => ?_⟩
  rw [hread i]
  exact if_ctx_congr Iff.rfl (fun _ => rfl) fun hout => (hm i).trans (if_neg hout)

/-! ## Fixed prediction -/

theorem exec_fixedInstr_restore {n : Nat} (hn : n ≤ 4) (wf : Bool) :
    ∃ coeffs : List Int, coeffs.length = n ∧
      (∀ s : State, s.phase = .restore → exec (fixedInstr n wf) s = fixedRestore coeffs s) ∧
      ∀ (x : Nat → Int) (i : Nat), n ≤ i →
        dot coeffs ((List.range n).map fun k => x (i - 1 - k)) = fixedPrediction n x i := by
  obtain ⟨coeffs, hlen, hexec, hdot⟩ := exec_fixedInstr hn wf
  exact ⟨coeffs, hlen, fun s hphase => by simp only [hexec, fixedPhases, hphase], hdot⟩

/-- Settles O22: each pass is the recurrence (`fixedSample_next`), the loop and the shift are `restoreLoop_block`. -/
theorem fixedRestoresBlock : Obligations.FixedRestoresBlock := by
  rintro s n wf x e hn hphase rfl hfits hx he hrec
  obtain ⟨coeffs, hlen, hexec, hdot⟩ := exec_fixedInstr_restore hn wf
  rw [hexec s hphase]
  refine restoreLoop_block (a := fun _ => s.acc) hfits hx rfl fun i m hlo hhi hm => ?_
  have hpast := hm.readDown hlo
  rw [← hlen] at hpast
  rw [fixedSample_next (s := s.withSamples m s.acc) (hhi.trans_le s.blockSize_le) (he (i - s.order.toNat) (by omega)) hpast,
    hlen, List.map_map, hrec i hlo hhi, ← hdot _ i hlo]
  rfl

/-! ## LPC -/

theorem exec_lpc_restore {s : State} (o : BitVec 5) (wf : Bool) (hphase : s.phase = .restore) :
    exec (.lpc o wf) s = lpcRestore s := by
  simp only [exec, execLpc, hphase]

theorem dot_map_map {α : Type} (l : List α) (f g : α → Int) : dot (l.map f) (l.map g) = (l.map fun k => f k * g k).sum := by
  induction l with
  | nil => rfl
  | cons k l ih => simp [ih]

/-- The shift of R90 rounds towards minus infinity. -/
theorem toInt_sshiftRight_eq_div (a : Acc) (n : Nat) : (a.sshiftRight n).toInt = a.toInt / (2 : Int) ^ n := by
  rw [BitVec.toInt_sshiftRight, Int.shiftRight_eq_div_pow]
  simp

/-- The accumulator holds the exact dot product of at most 32 coefficients of at most 15 bits (R92). -/
theorem wrap64_dotProduct {n : Nat} {c x : Nat → Word} (hn : n ≤ 32)
    (hc : ∀ k, k < n → -(2 : Int) ^ 14 ≤ (c k).toInt ∧ (c k).toInt < (2 : Int) ^ 14) (i : Nat) :
    (wrap64 (dotProduct n (fun k => (c k).toInt) (fun k => (x k).toInt) i)).toInt =
      dotProduct n (fun k => (c k).toInt) (fun k => (x k).toInt) i := by
  obtain ⟨_, _, hexact⟩ := accumulatorIsExact ((List.range n).map fun k => (c k).toInt)
    ((List.range n).map fun k => (x (i - 1 - k)).toInt) (by simpa using hn)
    (by simpa using fun k hk => hc k hk) (by
      intro v hv
      obtain ⟨k, _, rfl⟩ := List.mem_map.mp hv
      exact ⟨BitVec.le_toInt _, BitVec.toInt_lt⟩)
  rwa [dot_map_map] at hexact

/-- The accumulator before sample `i`: the dot product of the last predicted sample, if there is one (log entry 19). -/
def State.accBefore (c x : Nat → Word) (i : Nat) (s : State) : Acc :=
  if s.order.toNat < i then
    wrap64 (dotProduct s.order.toNat (fun k => (c k).toInt) (fun k => (x k).toInt) (i - 1))
  else s.acc

/-- One pass over a sample that the recurrence of R90 gives. -/
theorem lpcSample_pass {s : State} {c x e : Nat → Word} {i : Nat} {m : Memory} (a : Acc) (hle : s.order.toNat ≤ 32)
    (hrange : ∀ k, k < s.order.toNat → -(2 : Int) ^ 14 ≤ (c k).toInt ∧ (c k).toInt < (2 : Int) ^ 14)
    (he : Memory.Holds s.e (s.blockSize - s.order.toNat) e) (hlo : s.order.toNat ≤ i) (hhi : i < s.blockSize)
    (hm : Memory.FilledTo s.x x i m)
    (hrec : x i = wrap32 ((e (i - s.order.toNat)).toInt +
      dotProduct s.order.toNat (fun k => (c k).toInt) (fun k => (x k).toInt) i / (2 : Int) ^ s.shift.toNat)) :
    lpcSample (((List.range s.order.toNat).map c).map BitVec.toInt) i (s.withSamples m a) =
      .next (s.withSamples (Memory.write m i (x i)) (s.accBefore c x (i + 1))) := by
  have hdot : dot (((List.range s.order.toNat).map c).map BitVec.toInt)
      (((List.range s.order.toNat).map fun k => x (i - 1 - k)).map BitVec.toInt) =
      dotProduct s.order.toNat (fun k => (c k).toInt) (fun k => (x k).toInt) i := by
    rw [List.map_map, List.map_map, dot_map_map]
    rfl
  have hpast : Memory.readDown m i (((List.range s.order.toNat).map c).map BitVec.toInt).length =
      some ((List.range s.order.toNat).map fun k => x (i - 1 - k)) := by
    simpa using hm.readDown hlo
  rw [lpcSample_next (s := s.withSamples m a) (hhi.trans_le s.blockSize_le) (he (i - s.order.toNat) (by omega)) hpast, hdot, State.withSamples_shift, toInt_sshiftRight_eq_div,
    wrap64_dotProduct hle hrange, ← hrec, State.accBefore, if_pos (by omega), Nat.add_sub_cancel]
  rfl

/-- Settles O25: each pass is the recurrence (`lpcSample_pass`), the loop and the wasted shift are `restoreLoop_block`. -/
theorem lpcRestoresBlock : Obligations.LpcRestoresBlock := by
  rintro s o wf n c x e hphase rfl _ hle hfits hc hrange hx he hrec
  rw [exec_lpc_restore o wf hphase, lpcRestore, hc.readUp]
  obtain ⟨t, ht, hframe, hread⟩ := restoreLoop_block (a := fun i => s.accBefore c x i) hfits hx (if_neg (lt_irrefl _))
    fun i m hlo hhi hm => lpcSample_pass _ hle hrange he hlo hhi hm (hrec i hlo hhi)
  refine ⟨t, ht, ?_, ?_, hread⟩
  · rw [hframe]
  · rw [hframe]
    rfl

/-! ## The parameters -/

@[simp] theorem State.consumed_order_toNat (n : Nat) (s : State) : (s.consumed n).order.toNat = s.order.toNat := rfl

/-- A shift field with its top bit clear is not negative (R9, R88). -/
theorem sext_five_nonneg {v : Nat} (hv : v < 16) : ¬ sext 5 v < 0 := by
  rcases sext_succ_cases 4 v with ⟨_, hs⟩ | ⟨hset, _⟩
  · rw [hs]; omega
  · omega

/-- `s` with the legal precision field `f` and shift field `v` read (R87, R88). -/
def State.paramsRead (f v : Nat) (s : State) : State :=
  { s.consumed 9 with precision := BitVec.ofNat 4 (f + 1), shift := BitVec.ofNat 4 v }

@[simp] theorem State.paramsRead_unread (f v : Nat) (s : State) : (s.paramsRead f v).unread = (s.consumed 9).unread := rfl

theorem lpcParams_coefficients {s : State} {f v : Nat} {rest : List Bool} (hf : f < 15) (hv : v < 16)
    (h : s.unread = natToBits 4 f ++ (natToBits 5 v ++ rest)) :
    lpcParams s = readInto .field .coefficients 0 s.order.toNat (readS (f + 1)) (s.paramsRead f v)
      fun t => .next (t.enter .decodeResidual) := by
  have hprecision : (BitVec.ofNat 4 (f + 1)).toNat = f + 1 := Nat.mod_eq_of_lt (by omega)
  rw [lpcParams_legalPrecision_shift hf (by omega) h, State.shiftRead, if_neg (sext_five_nonneg hv), ← hprecision]
  rfl

theorem paramsRead_unread_append {s : State} {f v : Nat} {rest : List Bool}
    (h : s.unread = natToBits 4 f ++ (natToBits 5 v ++ rest)) : (s.paramsRead f v).unread = rest := by
  rw [State.paramsRead_unread, State.consumed_unread, h, ← List.append_assoc]
  exact List.drop_left' (by simp)

/-- Settles O23: after precision and shift (`lpcParams_coefficients`) the coefficients are signed fields (`readInto_fields`). -/
theorem lpcParametersAreRead : Obligations.LpcParametersAreRead := by
  intro s o wf f v cs rest hphase hf hv hcount hle hcs hbits
  have hcap : 0 + cs.length ≤ Buffer.capacity .coefficients := by
    rw [Nat.zero_add, hcount]
    exact hle
  have hread := Memory.read_writeRun_zero s.c cs (fun c => wrap32 (sext (f + 1) c)) 0
  rw [hcount] at hread
  rw [exec_lpc_readPredParams o wf hphase, lpcParams_coefficients hf hv hbits, ← hcount,
    readInto_fields _ hcap hcs (paramsRead_unread_append hbits), ← State.consumed_consumed, hcount]
  exact ⟨_, rfl, rfl, hread⟩

/-- Settles O59: each of the two fields is read by itself (`withField_short`), the coefficients as a run
(`failsWith_shortFields`). -/
theorem shortLpcParametersFail : Obligations.ShortLpcParametersFail := by
  intro s o wf rest hphase hle
  rw [exec_lpc_readPredParams o wf hphase]
  refine ⟨fun hshort => ?_, fun f hf hbits hshort => ?_, fun f v hf hv hbits hshort => ?_⟩
  · rw [lpcParams, withField_short _ hshort]
    exact failsWith_readFail rfl rfl rfl rfl rfl rfl rfl rfl
  · rw [lpcParams_legalPrecision hf hbits, withField_short _ (by simpa [hbits] using hshort)]
    exact failsWith_readFail rfl rfl rfl rfl rfl rfl rfl rfl
  · rw [lpcParams_coefficients hf hv hbits]
    have hcap : 0 + s.order.toNat ≤ Buffer.capacity .coefficients := (Nat.zero_add _).trans_le hle
    exact failsWith_shortFields (s := s.paramsRead f v) _ hcap (by rwa [paramsRead_unread_append hbits])

end Sys2Proof.Machine
end

section
/-! PROOFS. The residual section (R96 to R104): an accepted header, the Rice partitions, and the partitions that end too soon. -/

namespace Sys2Proof.Machine

/-! ## The residual header -/

theorem residualHeader_accepted {s : State} (method : BitVec 1) {p : BitVec 4} (hphase : s.phase = .decodeResidual)
    (hnone : s.residual = none) (hfits : s.order.toNat ≤ s.blockSize / 2 ^ p.toNat)
    (haligned : s.blockSize % 2 ^ p.toNat = 0) :
    residualHeader method p s = .next { s with method := method, partOrder := p, residual := some ⟨0, 0⟩ } :=
  (atResidualHeader_here hphase hnone _).trans
    ((if_neg (Nat.not_lt.mpr hfits)).trans (if_neg (not_not.mpr haligned)))

/-- Settles O27: both methods are one header (`residualHeader_accepted`). -/
theorem residualHeaderIsAccepted : Obligations.ResidualHeaderIsAccepted := fun _ _ hphase hnone hfits haligned =>
  ⟨residualHeader_accepted 0 hphase hnone hfits haligned, residualHeader_accepted 1 hphase hnone hfits haligned⟩

/-! ## Rice partitions -/

/-- `i` is a Rice row of parameter `k`, of the current method (R58, R105). -/
def IsRiceItem (s : State) (i : Instr) (k : Nat) : Prop :=
  (∃ k4 : BitVec 4, i = .partRice4 k4 ∧ k = k4.toNat ∧ k < 15 ∧ s.method = 0) ∨
    (∃ k5 : BitVec 5, i = .partRice5 k5 ∧ k = k5.toNat ∧ k < 31 ∧ s.method = 1)

theorem IsRiceItem.param_le {s : State} {i : Instr} {k : Nat} (h : IsRiceItem s i k) : k ≤ 32 := by
  rcases h with ⟨_, _, _, hk, _⟩ | ⟨_, _, _, hk, _⟩ <;> omega

/-- A Rice row of the current method reads the partition that is next, code by code (R101, R102). -/
theorem IsRiceItem.exec_eq {s : State} {i : Instr} {k : Nat} {at_ : ResidualProgress} (h : IsRiceItem s i k)
    (hphase : s.phase = .decodeResidual) (hat : s.residual = some at_) :
    exec i s = readPartition (readRice k) at_ s := by
  rcases h with ⟨_, rfl, rfl, _, hmethod⟩ | ⟨_, rfl, rfl, _, hmethod⟩
  · exact atPartition_here hphase hat hmethod _
  · exact atPartition_here hphase hat hmethod _

/-- Settles O30: a Rice partition's codes are read as every partition's are (`readPartition_codes`), each to its folded value
(`readRice_riceBits`). -/
theorem ricePartitionReadsResiduals : Obligations.RicePartitionReadsResiduals := by
  intro s i k q j us rest hi hphase hat hcount hcap hfit hbits
  have hcodes : ∀ u ∈ us, ∀ tail, readRice k (riceBits k u ++ tail) = .value (wrap32 (foldRice u)) tail :=
    fun u hu => readRice_riceBits (IsRiceItem.param_le hi) (hfit u hu)
  rw [IsRiceItem.exec_eq hi hphase hat, readPartition_codes hphase hcount hcap hcodes hbits]
  exact ⟨_, rfl, rfl, Memory.read_writeRun_map s.e j us (fun u => wrap32 (foldRice u)) 0⟩

/-! ## Partitions that end too soon -/

theorem readPartition_short {code : List Bool → CodeRead} {at_ : ResidualProgress} {s : State}
    (hcap : at_.j + s.residualCount at_.q ≤ Config.blockSizeMax)
    (h : (readRun code (s.residualCount at_.q) s.unread).2 = .short) :
    readPartition code at_ s = .next (raise .invalidStream .readFailPayload
      { s with e := Memory.writeRun s.e at_.j (readRun code (s.residualCount at_.q) s.unread).1 }) :=
  readInto_short (b := .residuals) _ hcap h

theorem readPartition_overflow {code : List Bool → CodeRead} {at_ : ResidualProgress} {s : State}
    (hcap : at_.j + s.residualCount at_.q ≤ Config.blockSizeMax)
    (h : (readRun code (s.residualCount at_.q) s.unread).2 = .overflow) :
    readPartition code at_ s = .next (raise .invalidStream .riceOverflow
      { s with e := Memory.writeRun s.e at_.j (readRun code (s.residualCount at_.q) s.unread).1 }) :=
  readInto_overflow (b := .residuals) _ hcap h

/-- The answer `r` is a failure that leaves in `E` the folded values `us` from index `j` on, and every other word as before. -/
def FailsAfterCodes (r : Result) (s : State) (cause : Cause) (j : Nat) (us : List Nat) : Prop :=
  FailsWith r s .invalidStream cause ∧
    ∃ t, r = .next t ∧ ∀ n, Memory.read t.e n =
      if j ≤ n ∧ n < j + us.length then some (wrap32 (foldRice (us.getD (n - j) 0))) else Memory.read s.e n

theorem failsAfterCodes_raise (s : State) (cause : Cause) (j : Nat) (us : List Nat) :
    FailsAfterCodes (.next (raise .invalidStream cause
      { s with e := Memory.writeRun s.e j (us.map fun u => wrap32 (foldRice u)) })) s cause j us :=
  ⟨failsWith_raise _ _ rfl rfl rfl rfl rfl rfl rfl rfl, _, rfl,
    Memory.read_writeRun_map s.e j us (fun u => wrap32 (foldRice u)) 0⟩

/-- A Rice code that the stream ends inside, in its quotient or in its remainder (R102). -/
def ShortRiceTail (k z : Nat) (rest tail : List Bool) : Prop :=
  tail = List.replicate z false ∨
    (z < 2 ^ (32 - k) ∧ rest.length < k ∧ tail = List.replicate z false ++ true :: rest)

theorem ShortRiceTail.readRice_short {k z : Nat} {rest tail : List Bool} (h : ShortRiceTail k z rest tail) :
    readRice k tail = .short := by
  rcases h with rfl | ⟨hz, hrest, rfl⟩
  · exact readRice_zeros k z
  · exact readRice_shortRemainder hz hrest

/-- Settles O32: the codes before the bad one are read (`readRun_stops`), and how that one is bad decides the failure. -/
theorem badPartitionPayloadFails : Obligations.BadPartitionPayloadFails := by
  intro s k q j us z rest i hi hphase hat hfew hcap hfit
  have hcodes : ∀ u ∈ us, ∀ tail, readRice k (riceBits k u ++ tail) = .value (wrap32 (foldRice u)) tail :=
    fun u hu => readRice_riceBits (IsRiceItem.param_le hi) (hfit u hu)
  have hstops := readRun_stops (readRice k) (riceBits k) (fun u => wrap32 (foldRice u)) us hcodes hfew
  rw [IsRiceItem.exec_eq hi hphase hat]
  refine ⟨fun htail => ?_, fun hbits hlarge => ?_⟩
  · obtain ⟨tail, hbits, hshort⟩ : ∃ tail, s.unread = ricesBits k us ++ tail ∧ ShortRiceTail k z rest tail := by
      rcases htail with hbits | ⟨hz, hrest, hbits⟩
      · exact ⟨_, hbits, .inl rfl⟩
      · exact ⟨_, hbits, .inr ⟨hz, hrest, rfl⟩⟩
    have hrun := (hstops tail).1 hshort.readRice_short
    change readRun _ _ (ricesBits k us ++ tail) = _ at hrun
    rw [← hbits] at hrun
    rw [readPartition_short hcap (by rw [hrun]), hrun]
    exact failsAfterCodes_raise s _ j us
  · have hrun := (hstops (List.replicate z false ++ true :: rest)).2 (readRice_overflow hlarge rest)
    change readRun _ _ (ricesBits k us ++ _) = _ at hrun
    rw [← hbits] at hrun
    rw [readPartition_overflow hcap (by rw [hrun]), hrun]
    exact failsAfterCodes_raise s _ j us

/-- A run of raw fields that the stream ends inside. -/
theorem readRun_readRaw_short (signed : Bool) {w n : Nat} {bits : List Bool} (h : bits.length < n * w) :
    (readRun (readRaw signed w) n bits).2 = .short := by
  induction n generalizing bits with
  | zero => simp at h
  | succ n ih =>
    simp only [readRun, readRaw]
    cases hfield : takeBits w bits with
    | none => rfl
    | some field =>
      have hlen := congrArg List.length (takeBits_some (v := field.1) (rest := field.2) hfield).2
      rw [List.length_append, natToBits_length] at hlen
      exact ih (by rw [Nat.succ_mul] at h; omega)

theorem escapePartition_shortWidth {s : State} {at_ : ResidualProgress} (hphase : s.phase = .decodeResidual)
    (hat : s.residual = some at_) (hshort : s.unread.length < 5) :
    escapePartition s.method s = .next (readFail .payload s) :=
  (atPartition_here hphase hat rfl _).trans (withField_short _ hshort)

/-- Settles O33: the width is a field by itself (`escapePartition_shortWidth`), the raw values are a run of fields
(`readRun_readRaw_short`). -/
theorem shortEscapePartitionFails : Obligations.ShortEscapePartitionFails := by
  intro s i w q j rest hi hphase hat hw hcap
  rw [exec_escapeItem hi]
  refine ⟨fun hshort => ?_, fun hbits hshort => ?_⟩
  · rw [escapePartition_shortWidth hphase hat hshort]
    exact failsWith_raise _ _ rfl rfl rfl rfl rfl rfl rfl rfl
  · have hraw : (s.consumed 5).unread = rest := by simp [hbits]
    rw [escapePartition_width hw hphase hat hbits, readPartition_short (s := s.consumed 5) hcap
      (readRun_readRaw_short _ (by rw [hraw]; exact hshort))]
    exact failsWith_raise _ _ rfl rfl rfl rfl rfl rfl rfl rfl

end Sys2Proof.Machine
end

section
/-! PROOFS. START and RESET (R107, R112): what each leaves of the state before it. -/

namespace Sys2Proof.Machine

/-! ## START -/

/-- `s` with the configuration of a START latched and a decode begun (R66, R107). -/
def State.started (bs bps : Nat) (tr : Bool) (s : State) : State :=
  beginDecode { s with truncEn := tr, cfgBs := latch 16 bs, cfgBps := latch 6 bps }

theorem execCmdStart_busy {s : State} (bs bps : Nat) (tr : Bool) (h : s.phase.busy = true) :
    execCmdStart bs bps tr s = .next (s.respond .busy) := if_pos h

theorem execCmdStart_legal {s : State} {bs bps : Nat} (tr : Bool) (h : s.phase.busy = false)
    (hlegal : configLegal bs bps = true) : execCmdStart bs bps tr s = .next (s.started bs bps tr) :=
  (if_neg (by simp [h])).trans (if_pos hlegal)

theorem execCmdStart_illegal {s : State} {bs bps : Nat} (tr : Bool) (h : s.phase.busy = false)
    (hillegal : configLegal bs bps ≠ true) :
    execCmdStart bs bps tr s = .next (raise .invalidConfig .badConfig (s.started bs bps tr)) :=
  (if_neg (by simp [h])).trans (if_neg hillegal)

/-- Settles O34: the configuration is legal (`configLegal_iff`), so it fits its registers. -/
theorem startBeginsDecode : Obligations.StartBeginsDecode := by
  intro s bs bps tr hphase hbs hbs' hbps hbps'
  have hidle : s.phase.busy = false := by rcases hphase with h | h | h <;> rw [h] <;> rfl
  refine (execCmdStart_legal tr hidle ((configLegal_iff _ _).mpr ⟨⟨hbs, hbs'⟩, hbps, hbps'⟩)).trans ?_
  rw [State.started, latch_of_lt (by omega), latch_of_lt (by omega)]
  rfl

/-- Settles O35, by the configuration check (`configLegal_iff`). -/
theorem startRejectsBadConfigOrBusy : Obligations.StartRejectsBadConfigOrBusy := by
  refine fun s bs bps tr => ⟨execCmdStart_busy bs bps tr, fun hidle hrange => ?_⟩
  have hillegal : configLegal bs bps ≠ true := by
    rw [ne_eq, configLegal_iff]
    omega
  exact ⟨_, execCmdStart_illegal tr hidle hillegal, rfl, rfl, rfl, rfl, rfl, latch_of_lt, latch_of_lt, rfl, rfl, rfl, rfl⟩

/-- `s` with the registers that START does not write as they are in `u`. -/
def State.withUnstarted (s u : State) : State :=
  { s with
    typeCode := u.typeCode
    wasted := u.wasted
    variant := u.variant
    order := u.order
    precision := u.precision
    shift := u.shift
    method := u.method
    partOrder := u.partOrder
    acc := u.acc }

/-- The failure of a START looks at the stream, the position and the free-value counter only (log entry 4). -/
theorem raise_withUnstarted (err : Err) (cause : Cause) (u s : State) :
    raise err cause (s.withUnstarted u) = (raise err cause s).withUnstarted u := rfl

theorem State.started_withUnstarted {s u : State} (bs bps : Nat) (tr : Bool) (hsource : u.source = s.source)
    (hpos : u.srcPos = s.srcPos) (hinbox : u.inbox = s.inbox) (hresponses : u.responses = s.responses)
    (hhost : u.hostMem = s.hostMem) (hfree : u.freeCount = s.freeCount) :
    u.started bs bps tr = (s.started bs bps tr).withUnstarted u := by
  simp only [State.started, beginDecode, State.withUnstarted, hsource, hpos, hinbox, hresponses, hhost, hfree]

/-- Settles O56: the two started machines differ in the registers START does not write (`State.started_withUnstarted`), and so do
the two failures (`raise_withUnstarted`). -/
theorem startForgetsEarlierDecode : Obligations.StartForgetsEarlierDecode := by
  intro s u bs bps tr hs hu hsource hpos hinbox hresponses hhost hfree
  have hstarted := State.started_withUnstarted bs bps tr hsource hpos hinbox hresponses hhost hfree
  by_cases hlegal : configLegal bs bps = true
  · exact ⟨_, _, execCmdStart_legal tr hs hlegal, execCmdStart_legal tr hu hlegal, rfl, rfl, rfl, hstarted⟩
  · refine ⟨_, _, execCmdStart_illegal tr hs hlegal, execCmdStart_illegal tr hu hlegal, rfl, rfl, rfl, ?_⟩
    rw [hstarted, raise_withUnstarted]
    rfl

/-! ## RESET -/

/-- Settles O39: every register by `State.reset`, the position because the free value is bounded by the stream
(`State.unspecified_le`). -/
theorem resetCommandRestoresRegisters : Obligations.ResetCommandRestoresRegisters := fun s =>
  ⟨_, rfl, rfl, rfl, rfl, rfl, rfl, rfl, rfl, rfl, rfl, rfl, rfl, rfl, rfl, rfl, rfl, rfl, rfl, rfl, rfl, rfl,
    s.unspecified_le s.source.length, rfl, rfl⟩

end Sys2Proof.Machine
end

section
/-! PROOFS. One step (R66, R67, R106): the item the phase reads, the instruction in progress, the host's events, and the wire items
that no step runs in the current phase. -/

namespace Sys2Proof.Machine

/-! ## Wire items -/

/-- The engine reads an item of format `f` next (R66, R69, R96, R101). -/
def ReadsFormat (s : State) (f : Format) : Prop :=
  s.phase = .readHeader ∧ f = .hdr ∨
    s.phase = .decodeResidual ∧ s.residual = none ∧ f = .res ∨
    s.phase = .decodeResidual ∧ s.residual ≠ none ∧ s.method = 0 ∧ f = .part4 ∨
    s.phase = .decodeResidual ∧ s.residual ≠ none ∧ s.method = 1 ∧ f = .part5

/-- The field-read failure in the state `short` is one of an item begun in `s` (R116, R117). -/
def FieldFailure (short s : State) : Prop :=
  FailsWith (.next (readFail .field short)) s (if s.truncEn then .truncated else .invalidStream) .readFailField

theorem fieldFailure_self (s : State) : FieldFailure s s := failsWith_readFail rfl rfl rfl rfl rfl rfl rfl rfl

theorem fieldFailure_shortHeader (s : State) : FieldFailure s.shortHeader s := by
  unfold State.shortHeader
  split
  · split
    · exact failsWith_readFail rfl rfl rfl rfl rfl rfl rfl rfl
    · exact fieldFailure_self s
  · exact fieldFailure_self s

theorem fieldFailure_shortResidualHeader (s : State) : FieldFailure s.shortResidualHeader s := by
  unfold State.shortResidualHeader
  split
  · exact failsWith_readFail rfl rfl rfl rfl rfl rfl rfl rfl
  · exact fieldFailure_self s

theorem State.partitionFormat_zero {s : State} (h : s.method = 0) : s.partitionFormat = .part4 := if_pos h

theorem State.partitionFormat_one {s : State} (h : s.method = 1) : s.partitionFormat = .part5 :=
  if_neg (by rw [h]; decide)

theorem engineFetch_partition {s : State} (hphase : s.phase = .decodeResidual) (hat : s.residual ≠ none) :
    engineFetch s = fetchItem s.partitionFormat s s := by
  obtain ⟨at_, hat⟩ := Option.ne_none_iff_exists'.mp hat
  simp only [engineFetch, hphase, hat]

/-- The engine's next action is to fetch an item of the phase's format; where the stream ends inside it, a field read fails. -/
theorem ReadsFormat.engineFetch_eq {s : State} {f : Format} (h : ReadsFormat s f) :
    ∃ short, engineFetch s = fetchItem f short s ∧ FieldFailure short s := by
  rcases h with ⟨hphase, rfl⟩ | ⟨hphase, hnone, rfl⟩ | ⟨hphase, hat, hmethod, rfl⟩ | ⟨hphase, hat, hmethod, rfl⟩
  · exact ⟨_, by simp only [engineFetch, hphase], fieldFailure_shortHeader s⟩
  · exact ⟨_, by simp only [engineFetch, hphase, hnone], fieldFailure_shortResidualHeader s⟩
  · exact ⟨_, by rw [engineFetch_partition hphase hat, State.partitionFormat_zero hmethod], fieldFailure_self s⟩
  · exact ⟨_, by rw [engineFetch_partition hphase hat, State.partitionFormat_one hmethod], fieldFailure_self s⟩

/-- An event that waits changes nothing the engine reads. -/
theorem EngineMoves.readsFormat {s s' : State} {f : Format} (hmoves : EngineMoves s s') (h : ReadsFormat s f) :
    ReadsFormat s' f := by
  rw [hmoves.same]
  exact h

theorem EngineMoves.unread {s s' : State} (hmoves : EngineMoves s s') : s'.unread = s.unread := by
  rw [hmoves.same]
  rfl

/-- Settles O40: the step fetches the item (`ReadsFormat.engineFetch_eq`) and runs it past its bits. -/
theorem stepRunsDecodedItem : Obligations.StepRunsDecodedItem := by
  intro s s' f i rest hmoves hreads hitem
  obtain ⟨short, hfetch, _⟩ := (hmoves.readsFormat hreads).engineFetch_eq
  rw [← hmoves.unread] at hitem ⊢
  rw [← State.advanceTo_eq_consumed]
  exact step_run ((fetch_of_engineMoves hmoves).trans (hfetch.trans (fetchItem_item hitem)))

/-- Settles O41: the step fetches the item (`ReadsFormat.engineFetch_eq`) and its read fails. -/
theorem stepFailsOnShortItem : Obligations.StepFailsOnShortItem := by
  intro s s' f why hmoves hreads hrejected
  obtain ⟨short, hfetch, hfails⟩ := (hmoves.readsFormat hreads).engineFetch_eq
  rw [← hmoves.unread] at hrejected
  rw [step_without ((fetch_of_engineMoves hmoves).trans (hfetch.trans (fetchItem_rejected hrejected)))]
  have htrunc : s.truncEn = s'.truncEn := by rw [hmoves.same]
  rw [htrunc]
  exact hfails

theorem engineFetch_inFlight {s : State}
    (hphase : s.phase = .readRaw ∨ s.phase = .readWarmup ∨ s.phase = .readPredParams ∨ s.phase = .restore) :
    engineFetch s = .run s.inFlight s := by
  rcases hphase with h | h | h | h <;> simp only [engineFetch, h]

/-- Settles O42: the step runs the instruction in progress (`engineFetch_inFlight`), which no event changes. -/
theorem stepResumesSubFrameInstruction : Obligations.StepResumesSubFrameInstruction := by
  intro s s' hmoves hphase
  have hrun := step_run ((fetch_of_engineMoves hmoves).trans (engineFetch_inFlight (by rw [hmoves.same]; exact hphase)))
  rw [hrun, hmoves.same]
  rfl

/-! ## Host events -/

/-- An event is taken at once between decodes, and during one when its wait is over (R106). -/
theorem fetch_event {s : State} {w : Nat} {e : HostEvent} {rest : List Arrival} (hin : s.inbox = ⟨w, e⟩ :: rest)
    (hwait : s.phase.busy = true → w = 0) : fetch s = takeEvent e { s with inbox := rest } := by
  cases hbusy : s.phase.busy with
  | false => exact fetch_idle_cons hbusy hin
  | true => simp [fetch, hin, hwait hbusy]

/-- Settles O43, by what the oldest event is (`fetch_event`, `step_supplyStream_idle`). -/
theorem stepTakesHostEvents : Obligations.StepTakesHostEvents := by
  intro s w rest
  refine ⟨fun c hin hwait => ?_, fun bits pos hin hidle => ?_, fun bytes pos hin hidle => ?_, fun hin hidle => ?_⟩
  · exact step_run ((fetch_event hin hwait).trans (takeEvent_command c _))
  · exact step_supplyStream_idle hidle (fetch_idle_cons hidle hin)
  · rw [← bitsOfBytes_length]
    exact step_supplyStream_idle hidle (fetch_idle_cons hidle hin)
  · exact step_without ((fetch_of_engineMoves (.inl ⟨hin, rfl⟩)).trans (engineFetch_idle hidle))

/-! ## Items outside their phase -/

theorem execConstant_outOfPhase {s : State} (wf : Bool) (h : ¬ (s.phase = .readHeader ∨ s.phase = .readRaw)) :
    execConstant wf s = .fault .outOfPhase := by
  unfold execConstant
  split <;> simp_all

theorem execVerbatim_outOfPhase {s : State} (wf : Bool) (h : ¬ (s.phase = .readHeader ∨ s.phase = .readRaw)) :
    execVerbatim wf s = .fault .outOfPhase := by
  unfold execVerbatim
  split <;> simp_all

theorem fixedPhases_outOfPhase {s : State} (t : Nat) (coeffs : List Int) (wf : Bool)
    (h : ¬ (s.phase = .readHeader ∨ s.phase = .readWarmup ∨ s.phase = .restore)) :
    fixedPhases t coeffs wf s = .fault .outOfPhase := by
  unfold fixedPhases
  split <;> simp_all

theorem execLpc_outOfPhase {s : State} (o : BitVec 5) (wf : Bool)
    (h : ¬ (s.phase = .readHeader ∨ s.phase = .readWarmup ∨ s.phase = .readPredParams ∨ s.phase = .restore)) :
    execLpc o wf s = .fault .outOfPhase := by
  unfold execLpc
  split <;> simp_all

theorem execReservedRsv_outOfPhase {s : State} (h : s.phase ≠ .readHeader) : execReservedRsv s = .fault .outOfPhase := by
  unfold execReservedRsv
  split
  · exact absurd ‹_› h
  · rfl

theorem rejectType_outOfPhase {s : State} (t : Nat) (h : s.phase ≠ .readHeader) : rejectType t s = .fault .outOfPhase := by
  unfold rejectType
  split
  · exact absurd ‹_› h
  · rfl

theorem atResidualHeader_outOfPhase {s : State} (r : Result) (h : ¬ (s.phase = .decodeResidual ∧ s.residual = none)) :
    atResidualHeader s r = .fault .outOfPhase := by
  unfold atResidualHeader
  split
  next hphase hnone => exact absurd ⟨hphase, hnone⟩ h
  · rfl

theorem atPartition_outOfPhase {method : BitVec 1} {s : State} (k : ResidualProgress → Result)
    (h : ¬ (s.phase = .decodeResidual ∧ s.residual ≠ none ∧ s.method = method)) :
    atPartition method s k = .fault .outOfPhase := by
  unfold atPartition
  split
  next hphase hat =>
    split
    next hmethod => exact absurd ⟨hphase, by simp [hat], hmethod⟩ h
    · rfl
  · rfl

/-- Settles O44, row by row: each meaning answers outside its phases with the same stop. -/
theorem itemsOutsideTheirPhaseStop : Obligations.ItemsOutsideTheirPhaseStop := by
  intro s i h
  cases i with
  | constant wf => exact execConstant_outOfPhase wf (by simpa [itemFits, encode] using h)
  | verbatim wf => exact execVerbatim_outOfPhase wf (by simpa [itemFits, encode] using h)
  | fixed0 wf => exact fixedPhases_outOfPhase _ _ wf (by simpa [itemFits, encode] using h)
  | fixed1 wf => exact fixedPhases_outOfPhase _ _ wf (by simpa [itemFits, encode] using h)
  | fixed2 wf => exact fixedPhases_outOfPhase _ _ wf (by simpa [itemFits, encode] using h)
  | fixed3 wf => exact fixedPhases_outOfPhase _ _ wf (by simpa [itemFits, encode] using h)
  | fixed4 wf => exact fixedPhases_outOfPhase _ _ wf (by simpa [itemFits, encode] using h)
  | lpc o wf => exact execLpc_outOfPhase o wf (by simpa [itemFits, encode] using h)
  | reservedRsv => exact execReservedRsv_outOfPhase (by simpa [itemFits, encode] using h)
  | reservedType2_3 o => exact rejectType_outOfPhase _ (by simpa [itemFits, encode] using h)
  | reservedType4_7 o => exact rejectType_outOfPhase _ (by simpa [itemFits, encode] using h)
  | reservedType13 => exact rejectType_outOfPhase _ (by simpa [itemFits, encode] using h)
  | reservedType14_15 o => exact rejectType_outOfPhase _ (by simpa [itemFits, encode] using h)
  | reservedType16_31 o => exact rejectType_outOfPhase _ (by simpa [itemFits, encode] using h)
  | resRice p => exact atResidualHeader_outOfPhase _ (by simpa [itemFits, encode] using h)
  | resRice2 p => exact atResidualHeader_outOfPhase _ (by simpa [itemFits, encode] using h)
  | resReserved x => exact atResidualHeader_outOfPhase _ (by simpa [itemFits, encode] using h)
  | partRice4 k => exact atPartition_outOfPhase _ (by simpa [itemFits, encode] using h)
  | partEsc4 => exact atPartition_outOfPhase _ (by simpa [itemFits, encode] using h)
  | partRice5 k => exact atPartition_outOfPhase _ (by simpa [itemFits, encode] using h)
  | partEsc5 => exact atPartition_outOfPhase _ (by simpa [itemFits, encode] using h)
  | _ => cases h

end Sys2Proof.Machine
end

section
/-! PROOFS. Whole sub-frames (R3, R66, R78): one step after another, each from the state that the one before leaves, down to the
block that was encoded. -/

namespace Sys2Proof.Machine

/-! ## The states between the steps -/

/-- `s` after a header of type code `t` without wasted flag (R69 to R72). -/
def State.afterHeader (t : Nat) (s : State) : State :=
  { s.consumed 8 with
    typeCode := BitVec.ofNat 6 t
    variant := variantOfType t
    order := BitVec.ofNat 6 (orderOfType t)
    wasted := 0
    phase := if t < 2 then .readRaw else .readWarmup }

/-- `s` after a warm-up of the fields `ws` (R73). -/
def State.afterWarmup (following : Phase) (ws : List Nat) (s : State) : State :=
  { s.consumed (s.order.toNat * s.sampleWidth) with
    x := Memory.writeRun s.x 0 (ws.map fun v => wrap32 (sext s.sampleWidth v)), phase := following }

/-- `s` after the LPC parameters: precision field `f`, shift field `v` and the coefficient fields `cs` (R86). -/
def State.afterParams (f v : Nat) (cs : List Nat) (s : State) : State :=
  { (s.paramsRead f v).consumed (cs.length * (f + 1)) with
    c := Memory.writeRun s.c 0 (cs.map fun c => wrap32 (sext (f + 1) c)), phase := .decodeResidual }

/-- `s` after a residual section of `n` bits, by `method` and in one partition, of the Rice codes `us` (R96, R101). -/
def State.afterResiduals (method : BitVec 1) (n : Nat) (us : List Nat) (s : State) : State :=
  { s.consumed n with
    method := method
    partOrder := 0
    e := Memory.writeRun s.e 0 (us.map fun u => wrap32 (foldRice u))
    residual := none
    phase := .restore }

/-! ## The steps -/

/-- The step that finds an item's bits ahead, as the encoder writes them, runs the item past them (R66). -/
theorem step_of_encoded {s : State} {i : Instr} {rest : List Bool} (hin : s.inbox = [])
    (hreads : ReadsFormat s (encode i).format) (hwf : i.wellFormed = true) (hargs : (encode i).args = { })
    (hbits : s.unread = (encode i).bits ++ rest) : step s = exec i (s.consumed (encode i).bits.length) := by
  have hitem := decodeOfEncodeIsIdentity i rest hwf
  rw [hargs, ← hbits] at hitem
  rw [stepRunsDecodedItem s s _ i rest (.inl ⟨hin, rfl⟩) hreads hitem, hbits, List.length_append, Nat.add_sub_cancel]

theorem step_header {t : Nat} {s : State} {rest : List Bool} (ht : t < 64) (hlegal : typeReserved t = false)
    (hin : s.inbox = []) (hphase : s.phase = .readHeader) (hfits : orderOfType t ≤ s.blockSize)
    (hbits : s.unread = headerBits t false ++ rest) : step s = .next (s.afterHeader t) := by
  have hencode : encode (instrOfType t false) = ⟨.hdr, headerBits t false, { }⟩ := by
    rw [encode_instrOfType ht, hlegal]
    rfl
  have hstep := step_of_encoded (i := instrOfType t false) (rest := rest) hin (by rw [hencode]; exact .inl ⟨hphase, rfl⟩)
    (wellFormed_instrOfType ht false) (by rw [hencode]) (by rw [hencode]; exact hbits)
  rw [hencode] at hstep
  exact hstep.trans (exec_header_absent (s := s.consumed 8) ht hlegal hphase hfits)

/-- Without pending events a later phase goes on with the instruction of `TYPE`. -/
theorem step_inFlight {s : State} (hin : s.inbox = [])
    (hphase : s.phase = .readRaw ∨ s.phase = .readWarmup ∨ s.phase = .readPredParams ∨ s.phase = .restore) :
    step s = exec (instrOfType s.typeCode.toNat (decide (s.wasted ≠ 0))) s :=
  stepResumesSubFrameInstruction s s (.inl ⟨hin, rfl⟩) hphase

theorem step_warmup_fixed {s : State} {ws : List Nat} {rest : List Bool} (hcode : 8 ≤ s.typeCode.toNat ∧ s.typeCode.toNat ≤ 12)
    (hin : s.inbox = []) (hphase : s.phase = .readWarmup) (hcount : ws.length = s.order.toNat)
    (hws : ∀ v ∈ ws, v < 2 ^ s.sampleWidth) (hbits : s.unread = fieldsBits s.sampleWidth ws ++ rest) :
    step s = .next (s.afterWarmup .decodeResidual ws) := by
  rw [step_inFlight hin (.inr (.inl hphase)), instrOfType_fixed hcode, exec_fixedInstr_readWarmup (by omega) _ hphase,
    warmup_fields _ hcount hws hbits]
  rfl

theorem step_warmup_lpc {s : State} {ws : List Nat} {rest : List Bool} (hcode : 32 ≤ s.typeCode.toNat)
    (hin : s.inbox = []) (hphase : s.phase = .readWarmup) (hcount : ws.length = s.order.toNat)
    (hws : ∀ v ∈ ws, v < 2 ^ s.sampleWidth) (hbits : s.unread = fieldsBits s.sampleWidth ws ++ rest) :
    step s = .next (s.afterWarmup .readPredParams ws) := by
  rw [step_inFlight hin (.inr (.inl hphase)), instrOfType_lpc hcode, exec_lpc_readWarmup _ _ hphase,
    warmup_fields _ hcount hws hbits]
  rfl

theorem lpcParams_fields {s : State} {f v : Nat} {cs : List Nat} {rest : List Bool} (hf : f < 15) (hv : v < 16)
    (hcount : cs.length = s.order.toNat) (hle : s.order.toNat ≤ 32) (hcs : ∀ c ∈ cs, c < 2 ^ (f + 1))
    (hbits : s.unread = natToBits 4 f ++ (natToBits 5 v ++ (fieldsBits (f + 1) cs ++ rest))) :
    lpcParams s = .next (s.afterParams f v cs) := by
  have hcap : 0 + cs.length ≤ Buffer.capacity .coefficients := by
    rw [Nat.zero_add, hcount]
    exact hle
  rw [lpcParams_coefficients hf hv hbits, ← hcount, readInto_fields _ hcap hcs (paramsRead_unread_append hbits)]
  rfl

/-- The header and the one Rice partition of a residual section, by method (R56, R58). -/
def OneRicePartition (header partition : Instr) (method : BitVec 1) (k : Nat) : Prop :=
  (header = .resRice 0 ∧ method = 0 ∧ k < 15 ∧ partition = .partRice4 (BitVec.ofNat 4 k)) ∨
    (header = .resRice2 0 ∧ method = 1 ∧ k < 31 ∧ partition = .partRice5 (BitVec.ofNat 5 k))

/-- `s` after the header of a residual section of one partition (R96). -/
def State.afterResidualHeader (method : BitVec 1) (s : State) : State :=
  { s.consumed 6 with method := method, partOrder := 0, residual := some ⟨0, 0⟩ }

theorem State.blockSize_div_one (s : State) : s.blockSize / 2 ^ (0 : BitVec 4).toNat = s.blockSize := by simp

theorem OneRicePartition.step_header {s : State} {header partition : Instr} {method : BitVec 1} {k : Nat} {rest : List Bool}
    (h : OneRicePartition header partition method k) (hin : s.inbox = []) (hphase : s.phase = .decodeResidual)
    (hnone : s.residual = none) (hfits : s.order.toNat ≤ s.blockSize) (hbits : s.unread = (encode header).bits ++ rest) :
    step s = .next (s.afterResidualHeader method) := by
  have hreads : ReadsFormat s .res := .inr (.inl ⟨hphase, hnone, rfl⟩)
  have haccepted := residualHeaderIsAccepted (s.consumed 6) 0 hphase hnone
    (hfits.trans_eq s.blockSize_div_one.symm) (by simp [Nat.mod_one])
  rcases h with ⟨rfl, rfl, _⟩ | ⟨rfl, rfl, _⟩
  · exact (step_of_encoded (i := .resRice 0) hin hreads rfl rfl hbits).trans haccepted.1
  · exact (step_of_encoded (i := .resRice2 0) hin hreads rfl rfl hbits).trans haccepted.2

/-- The partition's row is a Rice row of the current method, of the format that method reads. -/
theorem OneRicePartition.step_partition {s : State} {header partition : Instr} {method : BitVec 1} {k : Nat} {rest : List Bool}
    (h : OneRicePartition header partition method k) (hin : s.inbox = []) (hphase : s.phase = .decodeResidual)
    (hat : s.residual = some ⟨0, 0⟩) (hmethod : s.method = method) (hbits : s.unread = (encode partition).bits ++ rest) :
    step s = readPartition (readRice k) ⟨0, 0⟩ (s.consumed (encode partition).bits.length) := by
  have hsome : s.residual ≠ none := by simp [hat]
  rcases h with ⟨_, rfl, hk, rfl⟩ | ⟨_, rfl, hk, rfl⟩
  · have hparam : (BitVec.ofNat 4 k).toNat = k := Nat.mod_eq_of_lt (by omega)
    rw [step_of_encoded hin (.inr (.inr (.inl ⟨hphase, hsome, hmethod, rfl⟩))) (by simp [Instr.wellFormed, hparam, hk]) rfl
      hbits]
    exact IsRiceItem.exec_eq (.inl ⟨_, rfl, hparam.symm, hk, hmethod⟩) hphase hat
  · have hparam : (BitVec.ofNat 5 k).toNat = k := Nat.mod_eq_of_lt (by omega)
    rw [step_of_encoded hin (.inr (.inr (.inr ⟨hphase, hsome, hmethod, rfl⟩))) (by simp [Instr.wellFormed, hparam, hk]) rfl
      hbits]
    exact IsRiceItem.exec_eq (.inr ⟨_, rfl, hparam.symm, hk, hmethod⟩) hphase hat

theorem OneRicePartition.param_le {header partition : Instr} {method : BitVec 1} {k : Nat}
    (h : OneRicePartition header partition method k) : k ≤ 32 := by
  rcases h with ⟨_, _, hk, _⟩ | ⟨_, _, hk, _⟩ <;> omega

/-- The header of every residual section has six bits (R56). -/
theorem OneRicePartition.header_length {header partition : Instr} {method : BitVec 1} {k : Nat}
    (h : OneRicePartition header partition method k) : (encode header).bits.length = 6 := by
  rcases h with ⟨rfl, _⟩ | ⟨rfl, _⟩ <;> rfl

/-- Two steps read a residual section of one Rice partition (R96, R101, R102). -/
theorem OneRicePartition.run_eq {s : State} {header partition : Instr} {method : BitVec 1} {k : Nat} {us : List Nat}
    {rest : List Bool} (h : OneRicePartition header partition method k) (hin : s.inbox = [])
    (hphase : s.phase = .decodeResidual) (hnone : s.residual = none) (hfits : s.order.toNat ≤ s.blockSize)
    (hcount : us.length = s.blockSize - s.order.toNat) (hus : ∀ u ∈ us, u < 2 ^ 32)
    (hbits : s.unread = (encode header).bits ++ ((encode partition).bits ++ (ricesBits k us ++ rest))) (n : Nat) :
    Host.Core.run core (n + 2) s = Host.Core.run core n
      (s.afterResiduals method (6 + (encode partition).bits.length + (ricesBits k us).length) us) := by
  have hparam : (s.afterResidualHeader method).unread = (encode partition).bits ++ (ricesBits k us ++ rest) := by
    have := State.unread_consumed hbits
    rwa [h.header_length] at this
  have hcodes := State.unread_consumed hparam
  have hread : ∀ u ∈ us, ∀ tail, readRice k (riceBits k u ++ tail) = .value (wrap32 (foldRice u)) tail :=
    fun u hu => readRice_riceBits h.param_le (hus u hu)
  have hsize := s.blockSize_le
  rw [run_succ_of_step (h.step_header hin hphase hnone hfits hbits), run_succ_of_step
    ((h.step_partition (s := s.afterResidualHeader method) hin hphase rfl rfl hparam).trans
      (readPartition_codes (s := (s.afterResidualHeader method).consumed _) hphase
        (by rw [hcount, State.residualCount_zero]; exact congrArg (· - _) s.blockSize_div_one.symm)
        (show 0 + us.length ≤ 65535 by omega) hread hcodes))]
  rw [State.afterResiduals, ← State.consumed_consumed, ← State.consumed_consumed]
  rfl

/-! ## What the states between the steps hold -/

/-- `u` is within a sub-frame of type code `t` and order `n`, of a block of `b` samples without wasted bits; no event is pending and
no partition is in progress. -/
structure InSubFrame (t n b : Nat) (u : State) : Prop where
  pending : u.inbox = []
  typeCode : u.typeCode.toNat = t
  order : u.order.toNat = n
  wasted : u.wasted = 0
  size : u.blockSize = b
  residual : u.residual = none

theorem InSubFrame.afterWarmup {t n b : Nat} {u : State} (h : InSubFrame t n b u) (following : Phase) (ws : List Nat) :
    InSubFrame t n b (u.afterWarmup following ws) := ⟨h.pending, h.typeCode, h.order, h.wasted, h.size, h.residual⟩

theorem InSubFrame.afterParams {t n b : Nat} {u : State} (h : InSubFrame t n b u) (f v : Nat) (cs : List Nat) :
    InSubFrame t n b (u.afterParams f v cs) := ⟨h.pending, h.typeCode, h.order, h.wasted, h.size, h.residual⟩

theorem InSubFrame.afterResiduals {t n b : Nat} {u : State} (h : InSubFrame t n b u) (method : BitVec 1) (m : Nat)
    (us : List Nat) : InSubFrame t n b (u.afterResiduals method m us) :=
  ⟨h.pending, h.typeCode, h.order, h.wasted, h.size, rfl⟩

theorem State.afterHeader_typeCode_toNat {t : Nat} (ht : t < 64) (s : State) : (s.afterHeader t).typeCode.toNat = t :=
  Nat.mod_eq_of_lt ht

theorem State.afterHeader_order_toNat (t : Nat) (s : State) : (s.afterHeader t).order.toNat = orderOfType t :=
  Nat.mod_eq_of_lt orderOfType_lt

theorem State.afterHeader_unread {t : Nat} {s : State} {rest : List Bool} (h : s.unread = headerBits t false ++ rest) :
    (s.afterHeader t).unread = rest := by
  have hlen : (headerBits t false).length = 8 := by simp [headerBits]
  have hrest := State.unread_consumed h
  rwa [hlen] at hrest

theorem State.afterWarmup_unread {following : Phase} {ws : List Nat} {s : State} {rest : List Bool}
    (hcount : ws.length = s.order.toNat) (h : s.unread = fieldsBits s.sampleWidth ws ++ rest) :
    (s.afterWarmup following ws).unread = rest := by
  have hrest := State.unread_consumed h
  rwa [fieldsBits_length, hcount] at hrest

theorem State.afterParams_unread {f v : Nat} {cs : List Nat} {s : State} {rest : List Bool}
    (h : s.unread = natToBits 4 f ++ (natToBits 5 v ++ (fieldsBits (f + 1) cs ++ rest))) :
    (s.afterParams f v cs).unread = rest := by
  have hrest := State.unread_consumed (paramsRead_unread_append h)
  rwa [fieldsBits_length] at hrest

theorem State.afterResiduals_unread {method : BitVec 1} {k : Nat} {us : List Nat} {s : State} {b1 b2 rest : List Bool}
    (hlen : b1.length = 6) (h : s.unread = b1 ++ (b2 ++ (ricesBits k us ++ rest))) :
    (s.afterResiduals method (6 + b2.length + (ricesBits k us).length) us).unread = rest := by
  rw [← List.append_assoc, ← List.append_assoc] at h
  have hrest := State.unread_consumed h
  rwa [List.length_append, List.length_append, hlen] at hrest

/-- Words written from index 0 on are what the buffer then holds. -/
theorem Memory.holds_writeRun_zero {α : Type} (m : Memory) {us : List α} {n : Nat} (hlen : us.length = n) (val : α → Word)
    (d : α) : Memory.Holds (Memory.writeRun m 0 (us.map val)) n fun i => val (us.getD i d) := by
  intro i hi
  rw [Memory.read_writeRun_zero m us val d, if_pos (hlen ▸ hi)]

theorem forall_mem_of_getD {α : Type} {l : List α} {d : α} {P : α → Prop} {n : Nat} (hlen : l.length = n)
    (h : ∀ i, i < n → P (l.getD i d)) : ∀ a ∈ l, P a := by
  intro a ha
  obtain ⟨i, hi, rfl⟩ := List.getElem_of_mem ha
  have hget := h i (hlen ▸ hi)
  rwa [List.getD_eq_getElem _ _ hi] at hget

/-! ## The recurrences look at earlier samples only -/

theorem fixedPrediction_congr {n i : Nat} {f g : Nat → Int} (hn : n ≤ 4) (hi : n ≤ i) (h : ∀ k, k < i → f k = g k) :
    fixedPrediction n f i = fixedPrediction n g i := by
  interval_cases n
  · rfl
  all_goals simp only [fixedPrediction, h _ (show i - 1 < i by omega), h _ (show i - 2 < i by omega),
    h _ (show i - 3 < i by omega), h _ (show i - 4 < i by omega)]

theorem dotProduct_congr {n i : Nat} {c d f g : Nat → Int} (hi : n ≤ i) (hc : ∀ k, k < n → c k = d k)
    (h : ∀ k, k < i → f k = g k) : dotProduct n c f i = dotProduct n d g i := by
  refine congrArg List.sum (List.map_congr_left fun k hk => ?_)
  have hk : k < n := List.mem_range.mp hk
  rw [hc k hk, h (i - 1 - k) (by omega)]

/-- A sample that is its prediction plus the residual of a Rice code is what the recurrence gives (R59, R79). -/
theorem wrap32_residual_add {u : Nat} {v p : Int} (hu : u < 2 ^ 32) (h : foldRice u = v - p) :
    wrap32 v = wrap32 ((wrap32 (foldRice u)).toInt + p) := by
  rw [wrap32_foldRice hu, h, sub_add_cancel]

/-- The end of a decode without wasted bits: the block as it was encoded. -/
theorem read_unshifted {t : State} {m : Memory} {n : Nat} {w : BitVec 5} {x : Nat → Int} (hw : w = 0)
    (h : ∀ i, Memory.read t.x i =
      if i < n then some (wrap32 ((wrap32 (x i)).toInt * 2 ^ w.toNat)) else Memory.read m i) :
    ∀ i, i < n → Memory.read t.x i = some (wrap32 (x i)) := by
  intro i hi
  rw [h, if_pos hi, wrap32_toInt_mul, hw]
  simp

/-! ## The sub-frames -/

/-- `s` after the header of type code `t` and the warm-up fields `ws`; the phase that follows is the predictor's (R67). -/
def State.warmedUp (t : Nat) (ws : List Nat) (s : State) : State :=
  (s.afterHeader t).afterWarmup (if t < 32 then .decodeResidual else .readPredParams) ws

theorem State.inSubFrame_warmedUp {t : Nat} {s : State} (ht : t < 64) (hin : s.inbox = []) (hnone : s.residual = none)
    (ws : List Nat) : InSubFrame t (orderOfType t) s.blockSize (s.warmedUp t ws) :=
  have h : InSubFrame t (orderOfType t) s.blockSize (s.afterHeader t) :=
    ⟨hin, s.afterHeader_typeCode_toNat ht, s.afterHeader_order_toNat t, rfl, rfl, hnone⟩
  h.afterWarmup _ ws

theorem State.warmedUp_unread {t : Nat} {ws : List Nat} {s : State} {rest : List Bool} (hcount : ws.length = orderOfType t)
    (h : s.unread = headerBits t false ++ (fieldsBits s.cfgBps.toNat ws ++ rest)) : (s.warmedUp t ws).unread = rest :=
  State.afterWarmup_unread (s := s.afterHeader t) (hcount.trans (s.afterHeader_order_toNat t).symm)
    (State.afterHeader_unread h)

/-- Two steps read the header and the warm-up of a sub-frame with a predictor (R69, R73). -/
theorem run_warmedUp {t : Nat} {ws : List Nat} {s : State} {rest : List Bool}
    (ht : 8 ≤ t ∧ t ≤ 12 ∨ 32 ≤ t ∧ t ≤ 63) (hin : s.inbox = []) (hphase : s.phase = .readHeader)
    (hfits : orderOfType t ≤ s.blockSize) (hcount : ws.length = orderOfType t)
    (hws : ∀ v ∈ ws, v < 2 ^ s.cfgBps.toNat)
    (hbits : s.unread = headerBits t false ++ (fieldsBits s.cfgBps.toNat ws ++ rest)) (n : Nat) :
    Host.Core.run core (n + 2) s = Host.Core.run core n (s.warmedUp t ws) := by
  have hlegal : typeReserved t = false := by simp [typeReserved]; omega
  have hbits' := State.afterHeader_unread hbits
  have hphase' : (s.afterHeader t).phase = .readWarmup := if_neg (by omega)
  have hcount' := hcount.trans (s.afterHeader_order_toNat t).symm
  have htype := s.afterHeader_typeCode_toNat (show t < 64 by omega)
  rw [run_succ_of_step (step_header (by omega) hlegal hin hphase hfits hbits)]
  rcases ht with hfixed | hlpc
  · rw [State.warmedUp, if_pos (by omega)]
    exact run_succ_of_step (step_warmup_fixed (s := s.afterHeader t) (by rwa [htype]) hin hphase' hcount' hws hbits') n
  · rw [State.warmedUp, if_neg (by omega)]
    exact run_succ_of_step (step_warmup_lpc (s := s.afterHeader t) (by rw [htype]; exact hlpc.1) hin hphase' hcount' hws hbits') n

/-- The warm-up fields are the first samples of the block. -/
theorem State.warmedUp_holds {t n : Nat} {ws : List Nat} {s : State} {x : Nat → Int} (hlen : ws.length = n)
    (hws : ∀ i, i < n → ws.getD i 0 < 2 ^ s.cfgBps.toNat ∧ sext s.cfgBps.toNat (ws.getD i 0) = x i) :
    Memory.Holds (s.warmedUp t ws).x n fun i => wrap32 (x i) := by
  intro i hi
  obtain ⟨_, hx⟩ := hws i hi
  show _ = some (wrap32 (x i))
  rw [← hx]
  exact Memory.holds_writeRun_zero s.x hlen (fun v => wrap32 (sext s.cfgBps.toNat v)) 0 i hi

theorem State.afterResiduals_holds {method : BitVec 1} {m n : Nat} {us : List Nat} (s : State) (hlen : us.length = n) :
    Memory.Holds (s.afterResiduals method m us).e n fun j => wrap32 (foldRice (us.getD j 0)) :=
  Memory.holds_writeRun_zero s.e hlen (fun u => wrap32 (foldRice u)) 0

theorem State.warmedUp_cursor (t : Nat) (ws : List Nat) (s : State) :
    (s.warmedUp t ws).cursor = s.cursor + 8 + orderOfType t * s.cfgBps.toNat :=
  congrArg (fun n => s.cursor + 8 + n * s.cfgBps.toNat) (s.afterHeader_order_toNat t)

theorem step_restore_fixed {n : Nat} {s : State} (hn : n ≤ 4) (hin : s.inbox = []) (hphase : s.phase = .restore)
    (htype : s.typeCode.toNat = 8 + n) : ∃ wf, step s = exec (fixedInstr n wf) s := by
  refine ⟨decide (s.wasted ≠ 0), ?_⟩
  rw [step_inFlight hin (.inr (.inr (.inr hphase))), htype, instrOfType_fixed (by omega), Nat.add_sub_cancel_left]

theorem step_lpc {s : State} (hin : s.inbox = []) (hphase : s.phase = .readPredParams ∨ s.phase = .restore)
    (htype : 32 ≤ s.typeCode.toNat) : ∃ o wf, step s = exec (.lpc o wf) s := by
  refine ⟨BitVec.ofNat 5 s.typeCode.toNat, decide (s.wasted ≠ 0), ?_⟩
  rw [step_inFlight hin (.inr (.inr hphase)), instrOfType_lpc htype]

/-- With a block in range the recurrence over its registers is the recurrence over its samples (R79). -/
theorem fixedPrediction_wrap32 {n i b : Nat} {x : Nat → Int} (hn : n ≤ 4) (hlo : n ≤ i) (hhi : i < b)
    (hx : ∀ i, i < b → -(2 : Int) ^ 31 ≤ x i ∧ x i < (2 : Int) ^ 31) :
    fixedPrediction n (fun k => (wrap32 (x k)).toInt) i = fixedPrediction n x i :=
  fixedPrediction_congr hn hlo fun k hk => by
    obtain ⟨hmin, hmax⟩ := hx k (hk.trans hhi)
    exact wrap32_of_fits hmin hmax

theorem State.afterResiduals_cursor (method : BitVec 1) (m : Nat) (us : List Nat) (s : State) :
    (s.afterResiduals method m us).cursor = s.cursor + m := rfl

/-- The step from `u` ends the decode with the `b` samples `x`, and reads no bit. -/
def EndsWithBlock (b : Nat) (x : Nat → Int) (u : State) : Prop :=
  ∃ t, step u = .next t ∧ t.phase = .done ∧ t.unread = u.unread ∧ t.cursor = u.cursor ∧
    ∀ i, i < b → Memory.read t.x i = some (wrap32 (x i))

/-- From the warm-up and the prediction errors of a block in range, the fixed predictor restores the block (R79). -/
theorem restore_fixed_block {u : State} {n b : Nat} {x : Nat → Int} {us : List Nat} (hu : InSubFrame (8 + n) n b u)
    (hphase : u.phase = .restore) (hn : n ≤ 4) (hfits : n ≤ b)
    (hx : ∀ i, i < b → -(2 : Int) ^ 31 ≤ x i ∧ x i < (2 : Int) ^ 31) (hwarm : Memory.Holds u.x n fun i => wrap32 (x i))
    (hres : Memory.Holds u.e (b - n) fun j => wrap32 (foldRice (us.getD j 0)))
    (hus : ∀ j, j < b - n →
      us.getD j 0 < 2 ^ 32 ∧ foldRice (us.getD j 0) = x (n + j) - fixedPrediction n x (n + j)) : EndsWithBlock b x u := by
  obtain rfl := hu.size
  obtain ⟨wf, hstep⟩ := step_restore_fixed hn hu.pending hphase hu.typeCode
  obtain ⟨t, ht, hframe, hread⟩ := fixedRestoresBlock u n wf _ _ hn hphase hu.order hfits hwarm hres fun i hlo hhi => by
    obtain ⟨hcode, hfold⟩ := hus (i - n) (Nat.sub_lt_sub_right hlo hhi)
    rw [Nat.add_sub_cancel' hlo] at hfold
    rw [fixedPrediction_wrap32 hn hlo hhi hx]
    exact wrap32_residual_add hcode hfold
  exact ⟨t, hstep.trans ht, by rw [hframe], by rw [hframe]; rfl, by rw [hframe], read_unshifted hu.wasted hread⟩

/-- Settles O57: the header and the warm-up (`run_warmedUp`), the residual section (`OneRicePartition.run_eq`) and the restoration
(`restore_fixed_block`). -/
theorem fixedSubFrameIsLossless : Obligations.FixedSubFrameIsLossless := by
  intro s n k x ws us rest hn hk hphase hin hnone hfits hx hwlen hws hulen hus hbits
  have hcode : 8 ≤ 8 + n ∧ 8 + n ≤ 12 := by omega
  have hn' : orderOfType (8 + n) = n := (orderOfType_fixed hcode).trans (by omega)
  have hresidual : OneRicePartition (.resRice 0) (.partRice4 (BitVec.ofNat 4 k)) 0 k := .inl ⟨rfl, rfl, hk, rfl⟩
  have hparam : natToBits 4 k = (encode (.partRice4 (BitVec.ofNat 4 k))).bits :=
    congrArg (natToBits 4) (Nat.mod_eq_of_lt (by omega)).symm
  have hheader : natToBits 6 0 = (encode (.resRice 0)).bits := rfl
  rw [hparam, hheader] at hbits
  have hu := State.inSubFrame_warmedUp (t := 8 + n) (by omega) hin hnone ws
  rw [hn'] at hu
  have hphase' : (s.warmedUp (8 + n) ws).phase = .decodeResidual := if_pos (by omega)
  have hbits' := State.warmedUp_unread (hwlen.trans hn'.symm) hbits
  obtain ⟨t, ht, hdone, hunread, hcursor, hread⟩ := restore_fixed_block (hu.afterResiduals 0 _ us) rfl hn hfits hx
    (State.warmedUp_holds hwlen hws) (State.afterResiduals_holds _ hulen) hus
  refine ⟨t, ?_, hdone, hunread.trans (State.afterResiduals_unread hresidual.header_length hbits'), ?_, hread⟩
  · rw [run_warmedUp (.inl hcode) hin hphase (hn'.trans_le hfits) (hwlen.trans hn'.symm)
      (forall_mem_of_getD hwlen fun i hi => (hws i hi).1) hbits,
      hresidual.run_eq hu.pending hphase' hu.residual (by rwa [hu.order, hu.size]) (by rw [hulen, hu.order, hu.size])
        (forall_mem_of_getD hulen fun j hj => (hus j hj).1) hbits']
    exact run_succ_of_step ht 0
  · rw [hcursor, State.afterResiduals_cursor, State.warmedUp_cursor, hn', ← hparam, natToBits_length]
    omega

end Sys2Proof.Machine
end

section
/-! PROOFS. Whole LPC sub-frames (R3, R66, R78, R90): the same steps with the parameters between the warm-up and the residuals. -/

namespace Sys2Proof.Machine

theorem forall_getD_of_mem {α : Type} {l : List α} {d : α} {P : α → Prop} {n : Nat} (hlen : l.length = n)
    (h : ∀ a ∈ l, P a) : ∀ i, i < n → P (l.getD i d) := by
  intro i hi
  rw [List.getD_eq_getElem _ _ (hlen ▸ hi)]
  exact h _ (List.getElem_mem _)

/-- A coefficient of `f + 1 ≤ 15` bits keeps its value and lies in the range of R89. -/
theorem coefficient_range {f c : Nat} (hf : f < 15) (hc : c < 2 ^ (f + 1)) :
    (wrap32 (sext (f + 1) c)).toInt = sext (f + 1) c ∧ -(2 : Int) ^ 14 ≤ sext (f + 1) c ∧ sext (f + 1) c < (2 : Int) ^ 14 := by
  obtain ⟨hlo, hhi⟩ := sext_succ_bounds hc
  have hpow : (2 : Int) ^ f ≤ 2 ^ 14 := pow_le_pow_right₀ (by norm_num) (by omega)
  exact ⟨wrap32_sext (by omega) hc, by omega, by omega⟩

/-- With coefficients and a block in range the recurrence over the registers is the recurrence over their values (R90). -/
theorem dotProduct_wrap32 {n i b : Nat} {c x : Nat → Int} (hlo : n ≤ i) (hhi : i < b)
    (hc : ∀ k, k < n → (wrap32 (c k)).toInt = c k) (hx : ∀ i, i < b → -(2 : Int) ^ 31 ≤ x i ∧ x i < (2 : Int) ^ 31) :
    dotProduct n (fun k => (wrap32 (c k)).toInt) (fun k => (wrap32 (x k)).toInt) i = dotProduct n c x i :=
  dotProduct_congr hlo hc fun k hk => by
    obtain ⟨hmin, hmax⟩ := hx k (hk.trans hhi)
    exact wrap32_of_fits hmin hmax

/-- From the warm-up, the coefficients and the prediction errors of a block in range, LPC restores the block (R90). -/
theorem restore_lpc_block {u : State} {n b v : Nat} {c x : Nat → Int} {us : List Nat} (hu : InSubFrame (31 + n) n b u)
    (hphase : u.phase = .restore) (hshift : u.shift.toNat = v) (hpos : 1 ≤ n) (hn : n ≤ 32) (hfits : n ≤ b)
    (hx : ∀ i, i < b → -(2 : Int) ^ 31 ≤ x i ∧ x i < (2 : Int) ^ 31)
    (hc : ∀ k, k < n → (wrap32 (c k)).toInt = c k ∧ -(2 : Int) ^ 14 ≤ c k ∧ c k < (2 : Int) ^ 14)
    (hcoeff : Memory.Holds u.c n fun k => wrap32 (c k)) (hwarm : Memory.Holds u.x n fun i => wrap32 (x i))
    (hres : Memory.Holds u.e (b - n) fun j => wrap32 (foldRice (us.getD j 0)))
    (hus : ∀ j, j < b - n →
      us.getD j 0 < 2 ^ 32 ∧ foldRice (us.getD j 0) = x (n + j) - dotProduct n c x (n + j) / (2 : Int) ^ v) :
    EndsWithBlock b x u := by
  obtain rfl := hu.size
  obtain ⟨o, wf, hstep⟩ := step_lpc hu.pending (.inr hphase) (by rw [hu.typeCode]; omega)
  have hrange : ∀ k, k < n → -(2 : Int) ^ 14 ≤ (wrap32 (c k)).toInt ∧ (wrap32 (c k)).toInt < (2 : Int) ^ 14 := fun k hk => by
    obtain ⟨hexact, hbounds⟩ := hc k hk
    rwa [hexact]
  obtain ⟨t, ht, hframe, _, hread⟩ := lpcRestoresBlock u o wf n _ _ _ hphase hu.order hpos hn hfits hcoeff hrange hwarm hres
    fun i hlo hhi => by
      obtain ⟨hcode, hfold⟩ := hus (i - n) (Nat.sub_lt_sub_right hlo hhi)
      rw [Nat.add_sub_cancel' hlo] at hfold
      rw [dotProduct_wrap32 hlo hhi (fun k hk => (hc k hk).1) hx, hshift]
      exact wrap32_residual_add hcode hfold
  exact ⟨t, hstep.trans ht, by rw [hframe], by rw [hframe]; rfl, by rw [hframe], read_unshifted hu.wasted hread⟩

theorem step_lpcParams {s : State} {f v : Nat} {cs : List Nat} {rest : List Bool} (hin : s.inbox = [])
    (hphase : s.phase = .readPredParams) (htype : 32 ≤ s.typeCode.toNat) (hf : f < 15) (hv : v < 16)
    (hcount : cs.length = s.order.toNat) (hle : s.order.toNat ≤ 32) (hcs : ∀ c ∈ cs, c < 2 ^ (f + 1))
    (hbits : s.unread = natToBits 4 f ++ (natToBits 5 v ++ (fieldsBits (f + 1) cs ++ rest))) :
    step s = .next (s.afterParams f v cs) := by
  obtain ⟨o, wf, hstep⟩ := step_lpc hin (.inl hphase) htype
  rw [hstep, exec_lpc_readPredParams o wf hphase, lpcParams_fields hf hv hcount hle hcs hbits]

theorem State.afterParams_cursor (f v : Nat) (cs : List Nat) (s : State) :
    (s.afterParams f v cs).cursor = s.cursor + 9 + cs.length * (f + 1) := rfl

theorem State.afterResiduals_shift (method : BitVec 1) (m : Nat) (us : List Nat) (s : State) :
    (s.afterResiduals method m us).shift = s.shift := rfl

theorem State.afterParams_shift_toNat {v : Nat} (hv : v < 16) (f : Nat) (cs : List Nat) (s : State) :
    (s.afterParams f v cs).shift.toNat = v := Nat.mod_eq_of_lt hv

theorem State.afterParams_x (f v : Nat) (cs : List Nat) (s : State) : (s.afterParams f v cs).x = s.x := rfl

theorem State.afterResiduals_x (method : BitVec 1) (m : Nat) (us : List Nat) (s : State) :
    (s.afterResiduals method m us).x = s.x := rfl

theorem State.afterResiduals_c (method : BitVec 1) (m : Nat) (us : List Nat) (s : State) :
    (s.afterResiduals method m us).c = s.c := rfl

theorem State.afterParams_holds {n : Nat} {cs : List Nat} (hlen : cs.length = n) (f v : Nat) (s : State) :
    Memory.Holds (s.afterParams f v cs).c n fun k => wrap32 (sext (f + 1) (cs.getD k 0)) :=
  Memory.holds_writeRun_zero s.c hlen (fun c => wrap32 (sext (f + 1) c)) 0

/-- Settles O58: the header and the warm-up (`run_warmedUp`), the parameters (`step_lpcParams`), the residual section
(`OneRicePartition.run_eq`) and the restoration (`restore_lpc_block`). -/
theorem lpcSubFrameIsLossless : Obligations.LpcSubFrameIsLossless := by
  intro s n k f v x ws cs us rest hpos hn hk hf hv hphase hin hnone hfits hx hwlen hws hclen hcs hulen hus hbits
  have hcode : 32 ≤ 31 + n ∧ 31 + n ≤ 63 := by omega
  have hn' : orderOfType (31 + n) = n := (orderOfType_lpc hcode).trans (by omega)
  have hresidual : OneRicePartition (.resRice2 0) (.partRice5 (BitVec.ofNat 5 k)) 1 k := .inr ⟨rfl, rfl, hk, rfl⟩
  have hparam : natToBits 5 k = (encode (.partRice5 (BitVec.ofNat 5 k))).bits :=
    congrArg (natToBits 5) (Nat.mod_eq_of_lt (by omega)).symm
  have hheader : natToBits 6 16 = (encode (.resRice2 0)).bits := rfl
  rw [hparam, hheader] at hbits
  have hu := State.inSubFrame_warmedUp (t := 31 + n) (by omega) hin hnone ws
  rw [hn'] at hu
  have hphase' : (s.warmedUp (31 + n) ws).phase = .readPredParams := if_neg (by omega)
  have hbits' := State.warmedUp_unread (hwlen.trans hn'.symm) hbits
  have hparams := step_lpcParams hu.pending hphase' (hcode.1.trans_eq hu.typeCode.symm) hf hv (hclen.trans hu.order.symm)
    (hu.order.trans_le hn) hcs hbits'
  have hv' := hu.afterParams f v cs
  have hbits'' := State.afterParams_unread hbits'
  obtain ⟨t, ht, hdone, hunread, hcursor, hread⟩ := restore_lpc_block
    (hv'.afterResiduals 1 (6 + (encode (.partRice5 (BitVec.ofNat 5 k))).bits.length + (ricesBits k us).length) us) rfl
    (by rw [State.afterResiduals_shift, State.afterParams_shift_toNat hv]) hpos hn hfits hx
    (fun k hk => coefficient_range hf (forall_getD_of_mem hclen hcs k hk))
    (by rw [State.afterResiduals_c]; exact State.afterParams_holds hclen f v _)
    (by rw [State.afterResiduals_x, State.afterParams_x]; exact State.warmedUp_holds hwlen hws)
    (State.afterResiduals_holds _ hulen) hus
  refine ⟨t, ?_, hdone, hunread.trans (State.afterResiduals_unread hresidual.header_length hbits''), ?_, hread⟩
  · rw [run_warmedUp (.inr hcode) hin hphase (hn'.trans_le hfits) (hwlen.trans hn'.symm)
      (forall_mem_of_getD hwlen fun i hi => (hws i hi).1) hbits, run_succ_of_step hparams,
      hresidual.run_eq hv'.pending rfl hv'.residual (by rwa [hv'.order, hv'.size]) (by rw [hulen, hv'.order, hv'.size])
        (forall_mem_of_getD hulen fun j hj => (hus j hj).1) hbits'']
    exact run_succ_of_step ht 0
  · rw [hcursor, State.afterResiduals_cursor, State.afterParams_cursor, State.warmedUp_cursor, hn', hclen, ← hparam,
      natToBits_length]
    omega

end Sys2Proof.Machine
end

section
/-! PROOFS. Frames (R15 to R17, R30): what a wire item writes before it ends, in which phase, and the three ways it ends. From this
one inversion of the wire items follow the frame of each phase, the cursor's course and what no instruction touches. -/

namespace Sys2Proof.Machine

/-! ## Between the begin and the end of an item -/

/-- `u` differs from `s` at most in the registers and the buffer that phase `p` writes, and in the read position (R67). -/
def Wrote (p : Phase) (s u : State) : Prop :=
  u = { s with
    cursor := u.cursor
    srcPos := u.srcPos
    residual := if p = .decodeResidual then u.residual else s.residual
    typeCode := if p = .readHeader then u.typeCode else s.typeCode
    variant := if p = .readHeader then u.variant else s.variant
    order := if p = .readHeader then u.order else s.order
    wasted := if p = .readHeader then u.wasted else s.wasted
    precision := if p = .readPredParams then u.precision else s.precision
    shift := if p = .readPredParams then u.shift else s.shift
    c := if p = .readPredParams then u.c else s.c
    method := if p = .decodeResidual then u.method else s.method
    partOrder := if p = .decodeResidual then u.partOrder else s.partOrder
    e := if p = .decodeResidual then u.e else s.e
    x := if p = .readRaw ∨ p = .readWarmup ∨ p = .restore then u.x else s.x
    acc := if p = .restore then u.acc else s.acc }

theorem Wrote.refl (p : Phase) (s : State) : Wrote p s s := by
  cases p <;> rfl

theorem Wrote.trans {p : Phase} {s u v : State} (hsu : Wrote p s u) (huv : Wrote p u v) : Wrote p s v := by
  unfold Wrote at hsu huv ⊢
  cases p <;> rw [huv, hsu] <;> rfl

theorem Wrote.source_eq {p : Phase} {s u : State} (h : Wrote p s u) : u.source = s.source := by
  unfold Wrote at h
  rw [h]

theorem Wrote.consumed (p : Phase) (n : Nat) (s : State) : Wrote p s (s.consumed n) := by
  cases p <;> rfl

/-- `u` is reached from `s` within phase `p`: the phase's own writes, and `n` bits read, none of them in RESTORE. -/
structure Midway (p : Phase) (s u : State) : Prop where
  wrote : Wrote p s u
  moved : ∃ n, n ≤ s.unread.length ∧ u.cursor = s.cursor + n ∧ u.srcPos = s.srcPos + n ∧ (p = .restore → n = 0)

theorem Midway.of_wrote {p : Phase} {s u : State} (h : Wrote p s u) (hcursor : u.cursor = s.cursor)
    (hpos : u.srcPos = s.srcPos) : Midway p s u := ⟨h, 0, Nat.zero_le _, hcursor, hpos, fun _ => rfl⟩

theorem Midway.refl (p : Phase) (s : State) : Midway p s s := .of_wrote (.refl p s) rfl rfl

theorem State.unread_length (s : State) : s.unread.length = s.source.length - s.srcPos := List.length_drop

theorem Midway.trans {p : Phase} {s u v : State} (hsu : Midway p s u) (huv : Midway p u v) : Midway p s v := by
  obtain ⟨m, hm, hcursor, hpos, hrestore⟩ := hsu.moved
  obtain ⟨n, hn, hcursor', hpos', hrestore'⟩ := huv.moved
  rw [State.unread_length] at hm hn
  rw [hsu.wrote.source_eq] at hn
  refine ⟨hsu.wrote.trans huv.wrote, m + n, ?_, by omega, by omega, fun hp => by rw [hrestore hp, hrestore' hp]⟩
  rw [State.unread_length]
  omega

theorem Midway.consumed {p : Phase} {n : Nat} {s : State} (hp : p ≠ .restore) (hn : n ≤ s.unread.length) :
    Midway p s (s.consumed n) := ⟨.consumed p n s, n, hn, rfl, rfl, fun h => absurd h hp⟩

theorem Midway.advanceTo {p : Phase} (hp : p ≠ .restore) (rest : List Bool) (s : State) : Midway p s (s.advanceTo rest) :=
  .consumed hp (Nat.sub_le _ _)

/-- The buffer that a phase writes (R73 to R75, R79, R86, R90, R101). -/
inductive Phase.Writes : Phase → Buffer → Prop
  | raw : Writes .readRaw .samples
  | warmup : Writes .readWarmup .samples
  | params : Writes .readPredParams .coefficients
  | residual : Writes .decodeResidual .residuals
  | restore : Writes .restore .samples

theorem Midway.setBuffer {p : Phase} {b : Buffer} (hb : p.Writes b) (s : State) (m : Memory) :
    Midway p s (s.setBuffer b m) := by
  cases hb <;> exact .of_wrote rfl rfl rfl

/-! ## The three ends of an item -/

/-- A wire item that began in `s` has ended in `t`: in another phase, in DONE, or in FAILED. -/
def Ended (p : Phase) (s t : State) : Prop :=
  ∃ u, Midway p s u ∧ ((∃ q, t = u.enter q) ∨ t = u.finish ∨ ∃ err cause, t = raise err cause u)

/-- Every next state of `r` is an end of an item that began in `s`. -/
def Ends (p : Phase) (s : State) (r : Result) : Prop := ∀ t, r = .next t → Ended p s t

theorem Ends.fault (p : Phase) (s : State) (f : Fault) : Ends p s (.fault f) := by rintro _ ⟨⟩

theorem Ends.enter {p : Phase} {s u : State} (h : Midway p s u) (q : Phase) : Ends p s (.next (u.enter q)) := by
  rintro _ ⟨⟩
  exact ⟨u, h, .inl ⟨q, rfl⟩⟩

theorem Ends.stay {p : Phase} {s u : State} (h : Midway p s u) : Ends p s (.next u) := .enter h u.phase

theorem Ends.finish {p : Phase} {s u : State} (h : Midway p s u) : Ends p s (.next u.finish) := by
  rintro _ ⟨⟩
  exact ⟨u, h, .inr (.inl rfl)⟩

theorem Ends.raise {p : Phase} {s u : State} (h : Midway p s u) (err : Err) (cause : Cause) :
    Ends p s (.next (raise err cause u)) := by
  rintro _ ⟨⟩
  exact ⟨u, h, .inr (.inr ⟨err, cause, rfl⟩)⟩

theorem Ends.raiseStream {p : Phase} {s u : State} (h : Midway p s u) (cause : Cause) :
    Ends p s (.next (raiseStream cause u)) := .raise h _ cause

theorem Ends.readFail {p : Phase} {s u : State} (h : Midway p s u) (cls : ReadClass) :
    Ends p s (.next (readFail cls u)) := .raise h _ _

theorem Ends.andThen {p : Phase} {s : State} {r : Result} {k : State → Result}
    (hk : ∀ u, r = .next u → Ends p s (k u)) : Ends p s (andThen r k) := by
  intro t ht
  obtain ⟨u, hu, ht⟩ := andThen_eq_next.mp ht
  exact hk u hu t ht

theorem Ends.readInto {p : Phase} {cls : ReadClass} {b : Buffer} {base n : Nat} {code : List Bool → CodeRead} {s u : State}
    {k : State → Result} (h : Midway p s u) (hb : p.Writes b) (hp : p ≠ .restore)
    (hk : ∀ v, Midway p s v → Ends p s (k v)) : Ends p s (readInto cls b base n code u k) := by
  refine .andThen fun v hv => ?_
  obtain ⟨_, rfl⟩ := writeWords_eq_next.mp hv
  have hv := h.trans (.setBuffer hb u (Memory.writeRun (u.buffer b) base (readRun code n u.unread).1))
  split
  next rest _ => exact hk _ (hv.trans (.advanceTo hp rest _))
  · exact .raise hv _ _
  · exact .raise hv _ _

theorem Ends.withField {p : Phase} {cls : ReadClass} {n : Nat} {s u : State} {k : Nat → State → Result}
    (h : Midway p s u) (hp : p ≠ .restore) (hk : ∀ w v, Midway p s v → Ends p s (k w v)) :
    Ends p s (withField cls n u k) := by
  unfold Machine.withField
  split
  · exact .raise h _ _
  next w rest _ => exact hk w _ (h.trans (.advanceTo hp rest u))

/-- A loop whose passes stay within the phase stays within it. -/
theorem Midway.forEach {p : Phase} {body : Nat → State → Result} (hbody : ∀ i u v, body i u = .next v → Midway p u v)
    {n i : Nat} {s t : State} (h : forEach body n i s = .next t) : Midway p s t :=
  forEach_keeps (Midway p) (.refl p) (fun _ _ _ => .trans) hbody h

/-- The shift and DONE end every decode that writes samples (R76). -/
theorem Ends.complete {p : Phase} {s u : State} (h : Midway p s u) (hb : p.Writes .samples) : Ends p s (complete u) := by
  refine .andThen fun v hv => .finish (h.trans (.forEach (fun i a b hab => ?_) hv))
  obtain ⟨v, _, rfl⟩ := shiftSample_eq_next hab
  exact .setBuffer hb a (Memory.write a.x i (wrap32 (v.toInt * 2 ^ a.wasted.toNat)))

/-! ## The header -/

/-- The three ways a header ends (R69 to R72): the wasted count is short, or too large, or it is legal and the order is checked. -/
theorem header_ends_cases (t : Nat) (wf : Bool) (body : Phase) (s : State) :
    header t wf body s = .next (readFail .field (s.dispatch t)) ∨
      (∃ n w, n ≤ s.unread.length ∧ header t wf body s = .next (raiseStream .wastedTooLarge (s.headerRead t n w))) ∨
      ∃ n w, n ≤ s.unread.length ∧ (1 ≤ s.cfgBps.toNat → s.cfgBps.toNat ≤ 32 → w.toNat < s.cfgBps.toNat) ∧
        header t wf body s = (s.headerRead t n w).checkOrder body := by
  cases wf with
  | false => exact .inr (.inr ⟨0, 0, Nat.zero_le _, fun hpos _ => hpos, rfl⟩)
  | true =>
    cases hcode : readUnary s.unread with
    | none => exact .inl (header_short t body hcode)
    | some code =>
      have hbits := readUnary_some (n := code.1) (rest := code.2) hcode
      have hlen : code.1 + 1 ≤ s.unread.length := by
        rw [hbits, List.length_append, List.length_replicate, List.length_cons]
        omega
      rcases Nat.lt_or_ge (code.1 + 1) s.cfgBps.toNat with hlegal | hlarge
      · refine .inr (.inr ⟨_, _, hlen, fun _ hbps => ?_, header_code t body hbits hlegal⟩)
        rw [latch_of_lt (by omega), BitVec.toNat_ofNat]
        omega
      · exact .inr (.inl ⟨_, _, hlen, header_wastedTooLarge t body hbits hlarge⟩)

theorem Midway.headerRead {n : Nat} (t : Nat) (w : BitVec 5) {s : State} (hn : n ≤ s.unread.length) :
    Midway .readHeader s (s.headerRead t n w) := ⟨rfl, n, hn, rfl, rfl, fun h => nomatch h⟩

theorem header_ended (t : Nat) (wf : Bool) (body : Phase) (s : State) : Ends .readHeader s (header t wf body s) := by
  rcases header_ends_cases t wf body s with h | ⟨n, w, hn, h⟩ | ⟨n, w, hn, _, h⟩
  · rw [h]
    have hdispatch : Midway .readHeader s (s.dispatch t) := .of_wrote rfl rfl rfl
    exact .readFail hdispatch _
  · rw [h]
    exact .raise (.headerRead t w hn) _ _
  · rw [h, State.checkOrder]
    split
    · exact .raise (.headerRead t w hn) _ _
    · exact .enter (.headerRead t w hn) _

theorem rejectType_ended {s : State} (t : Nat) : Ends s.phase s (rejectType t s) := by
  unfold rejectType
  split
  next hphase =>
    rw [hphase]
    have hwrote : Midway .readHeader s { s with typeCode := BitVec.ofNat 6 t } := .of_wrote rfl rfl rfl
    exact .raiseStream hwrote _
  · exact .fault _ _ _

theorem execReservedRsv_ended (s : State) : Ends s.phase s (execReservedRsv s) := by
  unfold execReservedRsv
  split
  · exact .raise (.refl _ s) _ _
  · exact .fault _ _ _

/-! ## The bodies -/

theorem warmup_ended (following : Phase) (s : State) : Ends .readWarmup s (warmup following s) :=
  .readInto (.refl _ s) .warmup (by decide) fun _ hv => .enter hv following

theorem constantBody_ended (s : State) : Ends .readRaw s (constantBody s) := by
  unfold constantBody
  split
  next v rest _ =>
    refine .andThen fun u hu => ?_
    obtain ⟨_, rfl⟩ := writeWords_eq_next.mp hu
    exact .complete ((Midway.advanceTo (by decide) rest s).trans (.setBuffer .raw _ _)) .raw
  · exact .raise (.refl _ s) _ _
  · exact .raise (.refl _ s) _ _

theorem verbatimBody_ended (s : State) : Ends .readRaw s (verbatimBody s) :=
  .readInto (.refl _ s) .raw (by decide) fun _ hv => .complete hv .raw

theorem fixedRestore_ended (coeffs : List Int) (s : State) : Ends .restore s (fixedRestore coeffs s) := by
  refine .andThen fun v hv => .complete (.forEach (fun i a b hab => ?_) hv) .restore
  obtain ⟨_, _, _, _, _, rfl⟩ := fixedSample_eq_next hab
  exact .of_wrote rfl rfl rfl

theorem lpcRestore_ended (s : State) : Ends .restore s (lpcRestore s) := by
  unfold lpcRestore
  split
  · exact .fault _ _ _
  · refine .andThen fun v hv => .complete (.forEach (fun i a b hab => ?_) hv) .restore
    obtain ⟨_, _, _, _, _, rfl⟩ := lpcSample_eq_next hab
    exact .of_wrote rfl rfl rfl

theorem lpcParams_ended (s : State) : Ends .readPredParams s (lpcParams s) := by
  refine .withField (.refl _ s) (by decide) fun f u hu => ?_
  split
  · exact .raise hu _ _
  · refine .withField (hu.trans (.of_wrote rfl rfl rfl)) (by decide) fun v w hw => ?_
    split
    · exact .raise hw _ _
    · exact .readInto (hw.trans (.of_wrote rfl rfl rfl)) .params (by decide) fun _ ht => .enter ht _

theorem execConstant_ended (wf : Bool) (s : State) : Ends s.phase s (execConstant wf s) := by
  unfold execConstant
  split
  next h => rw [h]; exact header_ended 0 wf _ s
  next h => rw [h]; exact constantBody_ended s
  · exact .fault _ _ _

theorem execVerbatim_ended (wf : Bool) (s : State) : Ends s.phase s (execVerbatim wf s) := by
  unfold execVerbatim
  split
  next h => rw [h]; exact header_ended 1 wf _ s
  next h => rw [h]; exact verbatimBody_ended s
  · exact .fault _ _ _

theorem fixedPhases_ended (t : Nat) (coeffs : List Int) (wf : Bool) (s : State) :
    Ends s.phase s (fixedPhases t coeffs wf s) := by
  unfold fixedPhases
  split
  next h => rw [h]; exact header_ended t wf _ s
  next h => rw [h]; exact warmup_ended _ s
  next h => rw [h]; exact fixedRestore_ended coeffs s
  · exact .fault _ _ _

theorem execLpc_ended (o : BitVec 5) (wf : Bool) (s : State) : Ends s.phase s (execLpc o wf s) := by
  unfold execLpc
  split
  next h => rw [h]; exact header_ended _ wf _ s
  next h => rw [h]; exact warmup_ended _ s
  next h => rw [h]; exact lpcParams_ended s
  next h => rw [h]; exact lpcRestore_ended s
  · exact .fault _ _ _

/-! ## The residual section -/

theorem Midway.nextPartition (q j : Nat) {s u : State} (h : Midway .decodeResidual s u) :
    Ends .decodeResidual s (.next (nextPartition q j u)) := by
  unfold Machine.nextPartition
  split
  · exact .stay (h.trans (.of_wrote rfl rfl rfl))
  · exact .enter (u := { u with residual := none }) (h.trans (.of_wrote rfl rfl rfl)) .restore

theorem readPartition_ended {code : List Bool → CodeRead} {at_ : ResidualProgress} {s u : State}
    (h : Midway .decodeResidual s u) : Ends .decodeResidual s (readPartition code at_ u) :=
  .readInto h .residual (by decide) fun _ hv => hv.nextPartition _ _

theorem atResidualHeader_ended {s : State} {r : Result} (h : s.phase = .decodeResidual → Ends .decodeResidual s r) :
    Ends s.phase s (atResidualHeader s r) := by
  unfold atResidualHeader
  split
  next hphase _ => rw [hphase]; exact h hphase
  · exact .fault _ _ _

theorem atPartition_ended {method : BitVec 1} {s : State} {k : ResidualProgress → Result}
    (h : ∀ at_, Ends .decodeResidual s (k at_)) : Ends s.phase s (atPartition method s k) := by
  unfold atPartition
  split
  next hphase _ =>
    rw [hphase]
    split
    · exact h _
    · exact .fault _ _ _
  · exact .fault _ _ _

theorem residualHeader_ended (method : BitVec 1) (p : BitVec 4) (s : State) :
    Ends s.phase s (residualHeader method p s) := by
  refine atResidualHeader_ended fun _ => ?_
  have hwrote : Midway .decodeResidual s { s with method := method, partOrder := p } := .of_wrote rfl rfl rfl
  dsimp only
  split
  · exact .raiseStream hwrote _
  · split
    · exact .raiseStream hwrote _
    · exact .stay (.of_wrote rfl rfl rfl)

theorem ricePartition_ended (method : BitVec 1) (k : Nat) (s : State) : Ends s.phase s (ricePartition method k s) :=
  atPartition_ended fun _ => readPartition_ended (.refl _ s)

theorem escapePartition_ended (method : BitVec 1) (s : State) : Ends s.phase s (escapePartition method s) :=
  atPartition_ended fun _ => .withField (.refl _ s) (by decide) fun _ _ hu => readPartition_ended hu

/-- Every wire item that answers a next state has ended one of the three ways, with only its phase's registers written. -/
theorem exec_ended {i : Instr} (s : State) (hwire : (encode i).format ≠ .cmd) : Ends s.phase s (exec i s) := by
  cases i with
  | constant wf => exact execConstant_ended wf s
  | verbatim wf => exact execVerbatim_ended wf s
  | fixed0 wf => exact fixedPhases_ended _ _ wf s
  | fixed1 wf => exact fixedPhases_ended _ _ wf s
  | fixed2 wf => exact fixedPhases_ended _ _ wf s
  | fixed3 wf => exact fixedPhases_ended _ _ wf s
  | fixed4 wf => exact fixedPhases_ended _ _ wf s
  | lpc o wf => exact execLpc_ended o wf s
  | reservedRsv => exact execReservedRsv_ended s
  | reservedType2_3 o => exact rejectType_ended _
  | reservedType4_7 o => exact rejectType_ended _
  | reservedType13 => exact rejectType_ended _
  | reservedType14_15 o => exact rejectType_ended _
  | reservedType16_31 o => exact rejectType_ended _
  | resRice p => exact residualHeader_ended 0 p s
  | resRice2 p => exact residualHeader_ended 1 p s
  | resReserved x => exact atResidualHeader_ended fun _ => .raise (.refl _ s) _ _
  | partRice4 k => exact ricePartition_ended 0 _ s
  | partEsc4 => exact escapePartition_ended 0 s
  | partRice5 k => exact ricePartition_ended 1 _ s
  | partEsc5 => exact escapePartition_ended 1 s
  | _ => exact absurd rfl hwire

/-! ## What follows for the step -/

/-- Settles O53, by the three ends of an item (`exec_ended`). -/
theorem phaseWritesOnlyItsRegisters : Obligations.PhaseWritesOnlyItsRegisters := by
  intro i s t h hwire
  obtain ⟨u, hu, hend⟩ := exec_ended s hwire t h
  have hwrote := hu.wrote
  unfold Wrote at hwrote
  generalize s.phase = p at hwrote ⊢
  rcases hend with ⟨q, rfl⟩ | rfl | ⟨err, cause, rfl⟩
  · rw [hwrote]
    cases p <;> simp [State.enter]
  · rw [hwrote]
    cases p <;> simp [State.finish, State.enter, State.respond]
  · rw [hwrote]
    cases p <;> simp [raise]

/-- Settles O54: an item that has not failed has moved both by the bits it read (`Midway.moved`). -/
theorem cursorOnlyMovesForward : Obligations.CursorOnlyMovesForward := by
  intro i s t h _ hwire hpos hfailed
  obtain ⟨u, hu, hend⟩ := exec_ended s hwire t h
  obtain ⟨n, hn, hcursor, hsrc, hrestore⟩ := hu.moved
  have hsource := hu.wrote.source_eq
  rw [State.unread_length] at hn
  have hkept : t.cursor = u.cursor ∧ t.srcPos = u.srcPos ∧ t.source = u.source := by
    rcases hend with ⟨q, rfl⟩ | rfl | ⟨err, cause, rfl⟩
    · exact ⟨rfl, rfl, rfl⟩
    · exact ⟨rfl, rfl, rfl⟩
    · exact absurd rfl hfailed
  obtain ⟨htc, htp, hts⟩ := hkept
  rw [htc, htp, hts, hsource]
  exact ⟨by omega, by omega, by omega, by omega, fun hphase => by rw [hcursor, hrestore hphase, Nat.add_zero]⟩

/-! ## What no instruction touches -/

/-- From `s` to `t` the stream, the pending events, the host words and the configuration stay, and answers are only added. -/
def OnlyAnswers (s t : State) : Prop :=
  t.source = s.source ∧ t.inbox = s.inbox ∧ s.responses <+: t.responses ∧ t.hostMem = s.hostMem ∧
    t.truncEn = s.truncEn ∧ t.cfgBs = s.cfgBs ∧ t.cfgBps = s.cfgBps

theorem onlyAnswers_respond (s : State) (r : Response) : OnlyAnswers s (s.respond r) :=
  ⟨rfl, rfl, List.prefix_append _ _, rfl, rfl, rfl, rfl⟩

theorem Wrote.onlyAnswers {p : Phase} {s u : State} (h : Wrote p s u) : OnlyAnswers s u := by
  unfold Wrote at h
  rw [h]
  exact ⟨rfl, rfl, List.prefix_rfl, rfl, rfl, rfl, rfl⟩

theorem Ended.onlyAnswers {p : Phase} {s t : State} (h : Ended p s t) : OnlyAnswers s t := by
  obtain ⟨u, hu, hend⟩ := h
  obtain ⟨hsource, hinbox, hresponses, hrest⟩ := hu.wrote.onlyAnswers
  rcases hend with ⟨q, rfl⟩ | rfl | ⟨err, cause, rfl⟩
  · exact ⟨hsource, hinbox, hresponses, hrest⟩
  · exact ⟨hsource, hinbox, hresponses.trans (List.prefix_append _ _), hrest⟩
  · exact ⟨hsource, hinbox, hresponses.trans (List.prefix_append _ _), hrest⟩

/-- READ adds an answer, and may write host words (R108). -/
theorem execCmdRead_eq_next {dest len : Nat} {s t : State} (h : execCmdRead dest len s = .next t) :
    ∃ m r, t = { s with hostMem := m }.respond r ∧ (Memory.wf s.hostMem = true → Memory.wf m = true) := by
  unfold execCmdRead at h
  split at h
  · split at h
    · cases h; exact ⟨s.hostMem, _, rfl, id⟩
    · split at h
      · cases h
      · cases h; exact ⟨_, _, rfl, Memory.wf_writeRun _ _ _⟩
  · cases h; exact ⟨s.hostMem, _, rfl, id⟩
  · cases h; exact ⟨s.hostMem, _, rfl, id⟩

theorem execCmdQueryType_eq_next {s t : State} (h : execCmdQueryType s = .next t) : ∃ r, t = s.respond r := by
  unfold execCmdQueryType at h
  split at h <;> (cases h; exact ⟨_, rfl⟩)

theorem execCmdQueryWasted_eq_next {s t : State} (h : execCmdQueryWasted s = .next t) : ∃ r, t = s.respond r := by
  unfold execCmdQueryWasted at h
  split at h <;> (cases h; exact ⟨_, rfl⟩)

/-- START is answered BUSY, or latches the configuration and begins a decode, which fails at once where it is illegal (R107). -/
theorem execCmdStart_eq_next {bs bps : Nat} {tr : Bool} {s t : State} (h : execCmdStart bs bps tr s = .next t) :
    (s.phase.busy = true ∧ t = s.respond .busy) ∨
      (s.phase.busy = false ∧ configLegal bs bps = true ∧ t = s.started bs bps tr) ∨
      (s.phase.busy = false ∧ t = raise .invalidConfig .badConfig (s.started bs bps tr)) := by
  cases hbusy : s.phase.busy with
  | true =>
    cases h.symm.trans (execCmdStart_busy bs bps tr hbusy)
    exact .inl ⟨rfl, rfl⟩
  | false =>
    by_cases hlegal : configLegal bs bps = true
    · cases h.symm.trans (execCmdStart_legal tr hbusy hlegal)
      exact .inr (.inl ⟨rfl, hlegal, rfl⟩)
    · cases h.symm.trans (execCmdStart_illegal tr hbusy hlegal)
      exact .inr (.inr ⟨rfl, rfl⟩)

/-- Settles O52: a wire item's ends leave the host's side (`Ended.onlyAnswers`), the commands by their effects. -/
theorem instructionsLeaveHostAndStream : Obligations.InstructionsLeaveHostAndStream := by
  intro i s t h
  have hkept : OnlyAnswers s t →
      t.source = s.source ∧ t.inbox = s.inbox ∧ s.responses <+: t.responses ∧
      ((∀ d l, i ≠ .cmdRead d l) → t.hostMem = s.hostMem) ∧
      ((∀ bs bps tr, i ≠ .cmdStart bs bps tr) → i ≠ .cmdReset →
        t.truncEn = s.truncEn ∧ t.cfgBs = s.cfgBs ∧ t.cfgBps = s.cfgBps) :=
    fun ⟨hsource, hinbox, hresponses, hhost, hconfig⟩ => ⟨hsource, hinbox, hresponses, fun _ => hhost, fun _ _ => hconfig⟩
  by_cases hwire : (encode i).format ≠ .cmd
  · exact hkept (exec_ended s hwire t h).onlyAnswers
  · cases i with
    | cmdReset =>
      cases h
      exact ⟨rfl, rfl, List.prefix_append _ _, fun _ => rfl, fun _ hreset => absurd rfl hreset⟩
    | cmdStart bs bps tr =>
      rcases execCmdStart_eq_next h with ⟨_, rfl⟩ | ⟨_, _, rfl⟩ | ⟨_, rfl⟩
      · exact hkept (onlyAnswers_respond s _)
      · exact ⟨rfl, rfl, List.prefix_rfl, fun _ => rfl, fun hstart => absurd rfl (hstart bs bps tr)⟩
      · exact ⟨rfl, rfl, List.prefix_append _ _, fun _ => rfl, fun hstart => absurd rfl (hstart bs bps tr)⟩
    | cmdRead dest len =>
      obtain ⟨m, r, rfl, _⟩ := execCmdRead_eq_next h
      exact ⟨rfl, rfl, List.prefix_append _ _, fun hread => absurd rfl (hread dest len), fun _ _ => ⟨rfl, rfl, rfl⟩⟩
    | cmdQueryType =>
      obtain ⟨r, rfl⟩ := execCmdQueryType_eq_next h
      exact hkept (onlyAnswers_respond s r)
    | cmdQueryWasted =>
      obtain ⟨r, rfl⟩ := execCmdQueryWasted_eq_next h
      exact hkept (onlyAnswers_respond s r)
    | cmdQueryStatus =>
      cases h
      exact hkept (onlyAnswers_respond s _)
    | cmdReserved x =>
      cases h
      exact hkept (onlyAnswers_respond s _)
    | _ => exact absurd (fun h => nomatch h) hwire

end Sys2Proof.Machine
end

section
/-! PROOFS. The invariant at reset and through the operations that the phases share (R27, R42, R67, R117): what every state of a
decode has, with which of it a phase may be entered, and what a failure, a read and the wasted shift make of it. -/

namespace Sys2Proof.Machine

/-- Settles O46: every field by the reset values. -/
theorem invariantHoldsAtReset : Obligations.InvariantHoldsAtReset := by
  show EngineInv State.reset
  constructor
  case buffers => exact ⟨rfl, rfl, rfl, rfl⟩
  all_goals simp [State.reset, Phase.busy, Phase.pastHeader, phaseFits]

/-! ## What every state of a decode has

Each predicate is a plain conjunction, so that it carries over to an update of any field it does not mention. -/

/-- The buffers are canonical and the position lies within the stream (R35). -/
def Intact (s : State) : Prop :=
  Memory.wf s.x = true ∧ Memory.wf s.e = true ∧ Memory.wf s.c = true ∧ Memory.wf s.hostMem = true ∧
    s.srcPos ≤ s.source.length

/-- A decode is in progress: no fault, a legal configuration, and no more bits counted than the position has passed (R17). -/
def InDecode (s : State) : Prop :=
  Intact s ∧ s.cursor ≤ s.srcPos ∧ s.err = .none ∧ s.cause = .none ∧ configLegal s.cfgBs.toNat s.cfgBps.toNat = true

/-- A decode is in progress and its header has been read (R70 to R72). -/
def InBody (s : State) : Prop :=
  InDecode s ∧ typeReserved s.typeCode.toNat = false ∧ s.variant = variantOfType s.typeCode.toNat ∧
    s.order.toNat = orderOfType s.typeCode.toNat ∧ s.wasted.toNat < s.cfgBps.toNat ∧ s.order.toNat ≤ s.blockSize

/-- The LPC parameters have been read, where the variant has any (R86 to R89). -/
def Parametrized (s : State) : Prop :=
  s.variant = .lpc → 1 ≤ s.precision.toNat ∧ Memory.Exactly s.c s.order.toNat ∧
    ∀ k v, Memory.read s.c k = some v →
      -(2 : Int) ^ (s.precision.toNat - 1) ≤ v.toInt ∧ v.toInt < (2 : Int) ^ (s.precision.toNat - 1)

/-- All that comes before the residual section of a sub-frame with a predictor has been read (R67). -/
def InPredictor (s : State) : Prop :=
  InBody s ∧ (s.variant = .fixed ∨ s.variant = .lpc) ∧ Memory.Exactly s.x s.order.toNat ∧ Parametrized s

/-- No word of the block, the residuals or the coefficients is written, and no residual section has begun (R66). -/
def Unwritten (s : State) : Prop := s.x = [] ∧ s.e = [] ∧ s.c = [] ∧ s.residual = none

theorem InBody.inDecode {s : State} (h : InBody s) : InDecode s := h.1

theorem InBody.headerRead {s : State} (h : InBody s) : HeaderRead s := by
  obtain ⟨_, hlegal, hvariant, horder, hwasted, hfits⟩ := h
  exact ⟨hlegal, hvariant, horder, hwasted, hfits⟩

theorem Parametrized.paramsRead {s : State} (h : Parametrized s) (hlpc : s.variant = .lpc) : ParamsRead s := by
  obtain ⟨hprecision, hcoefficients, hrange⟩ := h hlpc
  exact ⟨hprecision, hcoefficients, hrange⟩

/-! ## Entering a phase with the invariant -/

section
variable {s : State}

/-- What the invariant asks in every phase of a decode. -/
theorem InDecode.common (h : InDecode s) :
    BuffersCanonical s ∧ s.srcPos ≤ s.source.length ∧ s.cursor ≤ s.srcPos ∧ (s.err = .none ∧ s.cause = .none) ∧
      configLegal s.cfgBs.toNat s.cfgBps.toNat = true := by
  obtain ⟨⟨hx, he, hc, hhost, hpos⟩, hcursor, herr, hcause, hconfig⟩ := h
  exact ⟨⟨hx, he, hc, hhost⟩, hpos, hcursor, ⟨herr, hcause⟩, hconfig⟩

theorem EngineInv.readHeader (h : InDecode s) (hphase : s.phase = .readHeader) (hnew : Unwritten s) : EngineInv s := by
  obtain ⟨hx, he, hc, hresidual⟩ := hnew
  constructor
  all_goals simp [hphase, h.common, hx, he, hc, hresidual, Phase.busy, Phase.pastHeader, phaseFits]

theorem EngineInv.readRaw (h : InBody s) (hphase : s.phase = .readRaw)
    (hvariant : s.variant = .constant ∨ s.variant = .verbatim) (hnew : Unwritten s) : EngineInv s := by
  obtain ⟨hx, he, _, hresidual⟩ := hnew
  constructor
  case header => exact fun _ => h.headerRead
  all_goals simp [hphase, h.inDecode.common, hx, he, hresidual, hvariant, Phase.busy, phaseFits]

theorem EngineInv.readWarmup (h : InBody s) (hphase : s.phase = .readWarmup)
    (hvariant : s.variant = .fixed ∨ s.variant = .lpc) (hnew : Unwritten s) : EngineInv s := by
  obtain ⟨hx, he, hc, hresidual⟩ := hnew
  constructor
  case header => exact fun _ => h.headerRead
  all_goals simp [hphase, h.inDecode.common, hx, he, hc, hresidual, hvariant, Phase.busy, phaseFits]

theorem EngineInv.readPredParams (h : InBody s) (hphase : s.phase = .readPredParams) (hvariant : s.variant = .lpc)
    (hx : Memory.Exactly s.x s.order.toNat) (he : s.e = []) (hc : s.c = []) (hresidual : s.residual = none) :
    EngineInv s := by
  constructor
  case header => exact fun _ => h.headerRead
  all_goals simp [hphase, h.inDecode.common, hx, he, hc, hresidual, hvariant, Phase.busy, phaseFits]

theorem EngineInv.decodeResidual (h : InPredictor s) (hphase : s.phase = .decodeResidual)
    (he : s.residual = none → s.e = []) (hat : ∀ at_, s.residual = some at_ → ResidualAt s at_) : EngineInv s := by
  obtain ⟨hbody, hvariant, hx, hparams⟩ := h
  constructor
  case header => exact fun _ => hbody.headerRead
  case params => exact fun hlpc _ => hparams.paramsRead hlpc
  case residual => exact fun at_ h => ⟨hphase, hat at_ h⟩
  case unwrittenE => exact fun _ _ => he
  all_goals simp [hphase, hbody.inDecode.common, hx, hvariant, Phase.busy, phaseFits]

theorem EngineInv.restore (h : InPredictor s) (hphase : s.phase = .restore)
    (he : Memory.Exactly s.e (s.blockSize - s.order.toNat)) (hresidual : s.residual = none) : EngineInv s := by
  obtain ⟨hbody, hvariant, hx, hparams⟩ := h
  constructor
  case header => exact fun _ => hbody.headerRead
  case params => exact fun hlpc _ => hparams.paramsRead hlpc
  all_goals simp [hphase, hbody.inDecode.common, hx, he, hresidual, hvariant, Phase.busy, phaseFits]

theorem EngineInv.done (h : InBody s) (hphase : s.phase = .done) (hx : Memory.Exactly s.x s.blockSize)
    (hresidual : s.residual = none) : EngineInv s := by
  constructor
  case header => exact fun _ => h.headerRead
  all_goals simp [hphase, h.inDecode.common, hx, hresidual, Phase.busy, phaseFits]

/-- A failure leaves the buffers as they are, and nothing else is asked of a failed decode (R117). -/
theorem EngineInv.raise (h : Intact s) {err : Err} {cause : Cause} (hpair : faultPair err cause = true) :
    EngineInv (raise err cause s) := by
  obtain ⟨hx, he, hc, hhost, hpos⟩ := h
  constructor
  case buffers => exact ⟨hx, he, hc, hhost⟩
  case position => exact raise_srcPos_le err cause hpos
  case fault => exact fun _ => hpair
  all_goals simp [Phase.busy, Phase.pastHeader, phaseFits]

end

/-! ## What the invariant gives back -/

theorem EngineInv.intact {s : State} (h : EngineInv s) : Intact s :=
  ⟨h.buffers.x, h.buffers.e, h.buffers.c, h.buffers.hostMem, h.position⟩

theorem EngineInv.inDecode {s : State} (h : EngineInv s) (hbusy : s.phase.busy = true) : InDecode s := by
  obtain ⟨herr, hcause⟩ := h.noFault (fun hp => by rw [hp] at hbusy; cases hbusy)
  exact ⟨h.intact, h.counted hbusy, herr, hcause, h.config (.inl hbusy)⟩

theorem EngineInv.inBody {s : State} (h : EngineInv s) (hbusy : s.phase.busy = true) (hpast : s.phase.pastHeader = true) :
    InBody s := by
  obtain ⟨hlegal, hvariant, horder, hwasted, hfits⟩ := h.header hpast
  exact ⟨h.inDecode hbusy, hlegal, hvariant, horder, hwasted, hfits⟩

theorem EngineInv.inPredictor {s : State} (h : EngineInv s) (hphase : s.phase = .decodeResidual ∨ s.phase = .restore) :
    InPredictor s := by
  have hfits := h.fits
  refine ⟨h.inBody ?_ ?_, ?_, h.warmupX (.inr hphase), fun hlpc => ?_⟩
  · rcases hphase with hp | hp <;> rw [hp] <;> rfl
  · rcases hphase with hp | hp <;> rw [hp] <;> rfl
  · rcases hphase with hp | hp <;> simpa [hp, phaseFits] using hfits
  · obtain ⟨hprecision, hcoefficients, hrange⟩ := h.params hlpc hphase
    exact ⟨hprecision, hcoefficients, hrange⟩

theorem EngineInv.unwritten {s : State} (h : EngineInv s) (hphase : s.phase = .readHeader ∨ s.phase = .readWarmup) :
    Unwritten s := by
  have hresidual : s.residual = none := h.residual_eq_none (by rcases hphase with hp | hp <;> simp [hp])
  rcases hphase with hp | hp
  · exact ⟨h.unwrittenX (.inl hp), h.unwrittenE (by simp [hp, Phase.busy]) (by simp [hp]) hresidual,
      h.unwrittenC (.inl hp), hresidual⟩
  · exact ⟨h.unwrittenX (.inr (.inr hp)), h.unwrittenE (by simp [hp, Phase.busy]) (by simp [hp]) hresidual,
      h.unwrittenC (.inr (.inl hp)), hresidual⟩

/-! ## The shared operations -/

theorem Memory.exactly_writeRun_of_nil {m : Memory} {n : Nat} {vs : List Word} (hm : m = []) (hlen : vs.length = n) :
    Memory.Exactly (Memory.writeRun m 0 vs) n := by
  rw [hm, ← hlen, ← Nat.zero_add vs.length]
  exact Memory.exactly_nil.writeRun vs

theorem InDecode.consumed {s : State} {n : Nat} (h : InDecode s) (hn : n ≤ s.unread.length) : InDecode (s.consumed n) := by
  obtain ⟨⟨hx, he, hc, hhost, hpos⟩, hcursor, hrest⟩ := h
  rw [State.unread_length] at hn
  refine ⟨⟨hx, he, hc, hhost, ?_⟩, Nat.add_le_add_right hcursor n, hrest⟩
  show s.srcPos + n ≤ s.source.length
  omega

theorem InDecode.advanceTo {s : State} (h : InDecode s) (rest : List Bool) : InDecode (s.advanceTo rest) :=
  h.consumed (Nat.sub_le _ _)

theorem InDecode.setBuffer {s : State} (h : InDecode s) (b : Buffer) (base : Nat) (vs : List Word) :
    InDecode (s.setBuffer b (Memory.writeRun (s.buffer b) base vs)) := by
  obtain ⟨⟨hx, he, hc, hhost⟩, hrest⟩ := h
  cases b with
  | samples => exact ⟨⟨Memory.wf_writeRun _ base vs hx, he, hc, hhost⟩, hrest⟩
  | residuals => exact ⟨⟨hx, Memory.wf_writeRun _ base vs he, hc, hhost⟩, hrest⟩
  | coefficients => exact ⟨⟨hx, he, Memory.wf_writeRun _ base vs hc, hhost⟩, hrest⟩

/-- The answer `r` is a next state with the invariant. -/
def AnswersInv (r : Result) : Prop := ∃ t, r = .next t ∧ EngineInv t

theorem AnswersInv.raiseStream {s : State} (h : InDecode s) {cause : Cause}
    (hpair : faultPair .invalidStream cause = true) : AnswersInv (.next (raiseStream cause s)) := ⟨_, rfl, .raise h.1 hpair⟩

theorem faultPair_read (cls : ReadClass) (tr : Bool) : faultPair (cls.err tr) cls.cause = true := by
  cases cls with
  | field => cases tr <;> rfl
  | payload => rfl

theorem AnswersInv.readFail {s : State} (h : InDecode s) (cls : ReadClass) : AnswersInv (.next (readFail cls s)) :=
  ⟨_, rfl, .raise h.1 (faultPair_read cls s.truncEn)⟩

theorem AnswersInv.withField {n : Nat} {cls : ReadClass} {s : State} {k : Nat → State → Result} (h : InDecode s)
    (hk : ∀ v rest, v < 2 ^ n → InDecode (s.advanceTo rest) → AnswersInv (k v (s.advanceTo rest))) :
    AnswersInv (withField cls n s k) := by
  unfold Machine.withField
  split
  · exact .readFail h cls
  next v rest hfield => exact hk v rest (takeBits_some hfield).1 (h.advanceTo rest)

/-- A run of reads inside its buffer fails or writes all of its words. -/
theorem AnswersInv.readInto {base n : Nat} {cls : ReadClass} {b : Buffer} {code : List Bool → CodeRead} {s : State}
    {k : State → Result} (h : InDecode s) (hcode : LeavesTail code) (hcap : base + n ≤ b.capacity)
    (hk : ∀ vs rest, vs = (readRun code n s.unread).1 → vs.length = n →
      InDecode ((s.setBuffer b (Memory.writeRun (s.buffer b) base vs)).advanceTo rest) →
      AnswersInv (k ((s.setBuffer b (Memory.writeRun (s.buffer b) base vs)).advanceTo rest))) :
    AnswersInv (readInto cls b base n code s k) := by
  have hwritten := h.setBuffer b base (readRun code n s.unread).1
  rcases readInto_cases (cls := cls) (code := code) (s := s) (k := k) hcap with
    ⟨rest, hend, heq⟩ | ⟨_, heq⟩ | ⟨_, heq⟩
  · rw [heq]
    exact hk _ rest rfl (readRun_complete hcode (Prod.ext rfl hend)).1 (hwritten.advanceTo rest)
  · rw [heq]
    exact .readFail hwritten cls
  · rw [heq]
    exact .raiseStream hwritten rfl

theorem AnswersInv.fetchItem {f : Format} {short s : State} (h : InDecode s) (hshort : InDecode short)
    (hitem : ∀ i rest, decode f s.unread { } = .item i rest → InDecode (s.advanceTo rest) →
      AnswersInv (exec i (s.advanceTo rest))) : AnswersInv (fetchItem f short s).outcome := by
  cases hdecode : decode f s.unread { } with
  | item i rest => rw [fetchItem_item hdecode]; exact hitem i rest hdecode (h.advanceTo rest)
  | rejected why => rw [fetchItem_rejected hdecode]; exact .readFail hshort .field

/-- The wasted shift of a whole block ends the decode (R76). -/
theorem complete_answersInv {s : State} (h : InBody s) (hx : Memory.Exactly s.x s.blockSize)
    (hresidual : s.residual = none) : AnswersInv (complete s) := by
  obtain ⟨t, ht, hframe, hwf, hread⟩ := complete_next hx.written.holds
  obtain ⟨⟨⟨hwfx, hintact⟩, hdecode⟩, hheader⟩ := h
  have hbody : InBody t := by rw [hframe]; exact ⟨⟨⟨hwf hwfx, hintact⟩, hdecode⟩, hheader⟩
  have hsize : t.blockSize = s.blockSize := by rw [hframe]; rfl
  refine ⟨t, ht, .done hbody (by rw [hframe]) (fun i => ?_) (by rw [hframe]; exact hresidual)⟩
  rw [hread, hsize]
  split
  next hi => simp [hi]
  · exact hx i

end Sys2Proof.Machine
end

section
/-! PROOFS. The invariant through the engine's own steps (R66, R67): from every state of a decode that has it, whatever the
next item is, the step answers a next state, and that state has it again. -/

namespace Sys2Proof.Machine

/-! ## READ_HEADER -/

theorem InDecode.shortHeader {s : State} (h : InDecode s) : InDecode s.shortHeader := by
  unfold State.shortHeader
  split
  · split
    · exact h
    · exact h
  · exact h

theorem InDecode.headerRead {s : State} {n : Nat} (h : InDecode s) (t : Nat) (w : BitVec 5) (hn : n ≤ s.unread.length) :
    InDecode (s.headerRead t n w) :=
  InDecode.consumed (s := s.dispatch t) h hn

theorem InDecode.bps_range {s : State} (h : InDecode s) : 1 ≤ s.cfgBps.toNat ∧ s.cfgBps.toNat ≤ 32 := by
  obtain ⟨_, _, _, _, hconfig⟩ := h
  exact ((configLegal_iff _ _).mp hconfig).2

/-- The body that a type code selects is one that its variant goes through (R67, R71). -/
theorem variantOfType_cases (t : Nat) :
    (t < 2 ∧ (variantOfType t = .constant ∨ variantOfType t = .verbatim)) ∨
      (2 ≤ t ∧ (variantOfType t = .fixed ∨ variantOfType t = .lpc)) := by
  unfold variantOfType
  split_ifs <;> simp <;> omega

/-- The header fails, or enters the body of its type code (R69 to R72). -/
theorem header_answersInv {t : Nat} {s : State} (wf : Bool) (h : InDecode s) (hnew : Unwritten s) (ht : t < 64)
    (hlegal : typeReserved t = false) :
    AnswersInv (header t wf (if t < 2 then .readRaw else .readWarmup) s) := by
  rcases header_ends_cases t wf (if t < 2 then .readRaw else .readWarmup) s with
    heq | ⟨n, w, hn, heq⟩ | ⟨n, w, hn, hw, heq⟩
  · rw [heq]
    exact .readFail (s := s.dispatch t) h .field
  · rw [heq]
    exact .raiseStream (h.headerRead t w hn) rfl
  · have hread := h.headerRead t w hn
    rw [heq, State.checkOrder]
    split
    · exact .raiseStream hread rfl
    next hfits =>
      obtain ⟨hpos, hle⟩ := h.bps_range
      have hcode : (BitVec.ofNat 6 t).toNat = t := Nat.mod_eq_of_lt ht
      have hbody : InBody (s.headerRead t n w) :=
        ⟨hread, (congrArg typeReserved hcode).trans hlegal, congrArg variantOfType hcode.symm,
          (s.headerRead_order_toNat t n w).trans (congrArg orderOfType hcode.symm), hw hpos hle, Nat.not_lt.mp hfits⟩
      refine ⟨_, rfl, ?_⟩
      rcases variantOfType_cases t with ⟨hraw, hvariant⟩ | ⟨hpredictor, hvariant⟩
      · rw [if_pos hraw]
        exact .readRaw hbody rfl hvariant hnew
      · rw [if_neg (Nat.not_lt.mpr hpredictor)]
        exact .readWarmup hbody rfl hvariant hnew

theorem readHeader_answersInv {s : State} (h : InDecode s) (hphase : s.phase = .readHeader) (hnew : Unwritten s) :
    AnswersInv (engineFetch s).outcome := by
  rw [engineFetch, hphase]
  refine .fetchItem h h.shortHeader fun i rest hitem hdecode => ?_
  have hphase : (s.advanceTo rest).phase = .readHeader := hphase
  rcases decodeHeader_item hitem with rfl | ⟨t, wf, ht, rfl⟩
  · rw [exec, execReservedRsv, hphase]
    exact .raiseStream hdecode rfl
  · cases hlegal : typeReserved t with
    | true =>
      obtain ⟨code, hexec⟩ := exec_instrOfType_reserved hlegal wf (s.advanceTo rest)
      rw [hexec, rejectType, hphase]
      exact .raiseStream (s := { s.advanceTo rest with typeCode := BitVec.ofNat 6 code }) hdecode rfl
    | false =>
      rw [exec_instrOfType_readHeader ht hlegal wf hphase]
      exact header_answersInv wf hdecode hnew ht hlegal

/-! ## READ_RAW -/

theorem constantBody_answersInv {s : State} (h : InBody s) (hnew : s.x = []) (hresidual : s.residual = none) :
    AnswersInv (constantBody s) := by
  have ⟨hdecode, hheader⟩ := h
  unfold constantBody
  split
  next v rest _ =>
    have hcap : 0 + (List.replicate s.blockSize v).length ≤ Buffer.capacity .samples := by
      rw [List.length_replicate]
      exact s.samples_fit le_rfl
    rw [writeWords_inside _ hcap, andThen_next]
    refine complete_answersInv ⟨(hdecode.advanceTo rest).setBuffer .samples 0 _, hheader⟩ ?_ hresidual
    exact Memory.exactly_writeRun_of_nil hnew List.length_replicate
  · exact .readFail hdecode .field
  · exact .raiseStream hdecode rfl

theorem verbatimBody_answersInv {s : State} (h : InBody s) (hnew : s.x = []) (hresidual : s.residual = none) :
    AnswersInv (verbatimBody s) :=
  .readInto h.inDecode (readS_leavesTail _) (s.samples_fit le_rfl) fun _ _ _ hlen hread =>
    complete_answersInv ⟨hread, h.2⟩ (Memory.exactly_writeRun_of_nil hnew hlen) hresidual

theorem readRaw_answersInv {s : State} (h : InBody s) (hphase : s.phase = .readRaw)
    (hvariant : s.variant = .constant ∨ s.variant = .verbatim) (hnew : s.x = []) (hresidual : s.residual = none) :
    AnswersInv (exec s.inFlight s) := by
  have ⟨_, _, htype, _⟩ := h
  rw [htype] at hvariant
  have hcode := lt_two_of_variantOfType hvariant
  rw [State.inFlight]
  obtain h0 | h1 : s.typeCode.toNat = 0 ∨ s.typeCode.toNat = 1 := by omega
  · rw [h0]
    simp only [instrOfType, exec, execConstant, hphase]
    exact constantBody_answersInv h hnew hresidual
  · rw [h1]
    simp only [instrOfType, exec, execVerbatim, hphase]
    exact verbatimBody_answersInv h hnew hresidual

/-! ## READ_WARMUP and READ_PRED_PARAMS -/

theorem warmup_answersInv {s : State} {following : Phase} (h : InBody s) (hnew : s.x = [])
    (hfollowing : ∀ m rest, InBody ({ s with x := m }.advanceTo rest) → Memory.Exactly m s.order.toNat →
      EngineInv (({ s with x := m }.advanceTo rest).enter following)) : AnswersInv (warmup following s) := by
  have ⟨_, _, _, _, _, hfits⟩ := h
  exact .readInto h.inDecode (readS_leavesTail _) (s.samples_fit hfits) fun vs rest _ hlen hread =>
    ⟨_, rfl, hfollowing _ rest ⟨hread, h.2⟩ (Memory.exactly_writeRun_of_nil hnew hlen)⟩

/-- The two predictors: the instruction in progress and the variant, by the type code (R51, R71). -/
theorem InBody.predictor_cases {s : State} (h : InBody s) (hvariant : s.variant = .fixed ∨ s.variant = .lpc) :
    (s.variant = .fixed ∧ ∃ coeffs, coeffs.length = s.order.toNat ∧
      exec s.inFlight s = fixedPhases s.typeCode.toNat coeffs (decide (s.wasted ≠ 0)) s) ∨
    (s.variant = .lpc ∧ ∃ o, exec s.inFlight s = execLpc o (decide (s.wasted ≠ 0)) s) := by
  obtain ⟨_, hlegal, htype, horder, _⟩ := h
  rw [htype] at hvariant ⊢
  rw [State.inFlight, horder]
  rcases fixed_or_lpc_of_two_le s.typeCode.isLt hlegal (two_le_of_variantOfType hvariant) with hfixed | hlpc
  · obtain ⟨coeffs, hlen, hexec, _⟩ := exec_fixedInstr (n := s.typeCode.toNat - 8) (by omega) (decide (s.wasted ≠ 0))
    refine .inl ⟨variantOfType_fixed hfixed, coeffs, by rw [hlen, orderOfType_fixed hfixed], ?_⟩
    rw [instrOfType_fixed hfixed, hexec, Nat.add_sub_cancel' hfixed.1]
  · refine .inr ⟨variantOfType_lpc hlpc.1, BitVec.ofNat 5 s.typeCode.toNat, ?_⟩
    rw [instrOfType_lpc hlpc.1]
    rfl

theorem readWarmup_answersInv {s : State} (h : InBody s) (hphase : s.phase = .readWarmup)
    (hvariant : s.variant = .fixed ∨ s.variant = .lpc) (hnew : Unwritten s) : AnswersInv (exec s.inFlight s) := by
  obtain ⟨hx, he, hc, hresidual⟩ := hnew
  rcases h.predictor_cases hvariant with ⟨hfixed, coeffs, _, hexec⟩ | ⟨hlpc, o, hexec⟩
  · rw [hexec, fixedPhases, hphase]
    refine warmup_answersInv h hx fun m rest hbody hm => .decodeResidual ?_ rfl (fun _ => he) ?_
    · exact ⟨hbody, hvariant, hm, fun hlpc => nomatch hlpc.symm.trans hfixed⟩
    · exact fun at_ hat => nomatch hat.symm.trans hresidual
  · rw [hexec, execLpc, hphase]
    exact warmup_answersInv h hx fun m rest hbody hm => .readPredParams hbody rfl hlpc hm he hc hresidual

/-- Every word of a run of signed fields lies in the range of the width (R9, R33). -/
theorem readRun_readS_range {n count : Nat} {bits : List Bool} (hn : n < 32) {v : Word}
    (hv : v ∈ (readRun (readS (n + 1)) count bits).1) : -(2 : Int) ^ n ≤ v.toInt ∧ v.toInt < (2 : Int) ^ n := by
  induction count generalizing bits with
  | zero => simp [readRun] at hv
  | succ count ih =>
    cases hfield : takeBits (n + 1) bits with
    | none => simp [readRun, readS, hfield] at hv
    | some field =>
      obtain ⟨u, rest⟩ := field
      simp only [readRun, readS, hfield, List.mem_cons] at hv
      rcases hv with rfl | hv
      · rw [wrap32_sext hn (takeBits_some hfield).1]
        exact sext_succ_bounds (takeBits_some hfield).1
      · exact ih hv

/-- An LPC decode whose warm-up is read and nothing after it (R86). -/
def BeforeParams (s : State) : Prop :=
  InBody s ∧ s.variant = .lpc ∧ Memory.Exactly s.x s.order.toNat ∧ s.e = [] ∧ s.c = [] ∧ s.residual = none

theorem BeforeParams.inDecode {s : State} (h : BeforeParams s) : InDecode s := h.1.inDecode

theorem BeforeParams.advanceTo {s : State} (h : BeforeParams s) (rest : List Bool) : BeforeParams (s.advanceTo rest) :=
  ⟨⟨h.inDecode.advanceTo rest, h.1.2⟩, h.2⟩

theorem lpcCoefficients_answersInv {s : State} (h : BeforeParams s) (hprecision : 1 ≤ s.precision.toNat) :
    AnswersInv (readInto .field .coefficients 0 s.order.toNat (readS s.precision.toNat) s fun t =>
      .next (t.enter .decodeResidual)) := by
  obtain ⟨⟨hdecode, hheader⟩, hvariant, hx, he, hc, hresidual⟩ := h
  have ⟨_, _, horder, _⟩ := hheader
  have hcap : 0 + s.order.toNat ≤ Buffer.capacity .coefficients := by
    rw [Nat.zero_add, horder]
    exact orderOfType_le _
  refine .readInto hdecode (readS_leavesTail _) hcap fun vs rest hvs hlen hread => ⟨_, rfl, ?_⟩
  refine .decodeResidual ⟨⟨hread, hheader⟩, .inr hvariant, hx, fun _ => ⟨hprecision, ?_, fun k v hk => ?_⟩⟩ rfl
    (fun _ => he) (fun at_ hat => nomatch hat.symm.trans hresidual)
  · exact Memory.exactly_writeRun_of_nil hc hlen
  · have hk : Memory.read (Memory.writeRun s.c 0 vs) k = some v := hk
    have hmem : v ∈ vs := by
      rw [hc, Memory.read_writeRun] at hk
      split at hk
      · exact List.mem_of_getElem? hk
      · cases hk
    have hwidth : s.precision.toNat - 1 + 1 = s.precision.toNat := Nat.sub_add_cancel hprecision
    have hbound := s.precision.isLt
    rw [hvs, ← hwidth] at hmem
    exact readRun_readS_range (by omega) hmem

theorem shiftRead_answersInv {s : State} (v : Nat) (h : BeforeParams s) (hprecision : 1 ≤ s.precision.toNat) :
    AnswersInv (s.shiftRead v) := by
  unfold State.shiftRead
  split
  · exact .raiseStream h.inDecode rfl
  · exact lpcCoefficients_answersInv (s := { s with shift := BitVec.ofNat 4 v }) h hprecision

theorem lpcParams_answersInv {s : State} (h : BeforeParams s) : AnswersInv (lpcParams s) := by
  refine .withField h.inDecode fun f rest hf hread => ?_
  split
  · exact .raiseStream hread rfl
  next hlegal =>
    have hprecision : (BitVec.ofNat 4 (f + 1)).toNat = f + 1 := Nat.mod_eq_of_lt (by omega)
    have hnext : BeforeParams { s.advanceTo rest with precision := BitVec.ofNat 4 (f + 1) } := h.advanceTo rest
    refine .withField (k := fun v u => u.shiftRead v) hnext.inDecode fun v rest' _ _ => ?_
    exact shiftRead_answersInv v (hnext.advanceTo rest') (hprecision.symm ▸ Nat.le_add_left 1 f)

theorem readPredParams_answersInv {s : State} (h : BeforeParams s) (hphase : s.phase = .readPredParams) :
    AnswersInv (exec s.inFlight s) := by
  have ⟨hbody, hvariant, _⟩ := h
  rcases hbody.predictor_cases (.inr hvariant) with ⟨hfixed, _⟩ | ⟨_, o, hexec⟩
  · exact nomatch hvariant.symm.trans hfixed
  · rw [hexec, execLpc, hphase]
    exact lpcParams_answersInv h

/-! ## DECODE_RESIDUAL -/

theorem InDecode.shortResidualHeader {s : State} (h : InDecode s) : InDecode s.shortResidualHeader := by
  unfold State.shortResidualHeader
  split
  · exact h
  · exact h

theorem residualHeader_answersInv {s : State} (m : BitVec 1) (p : BitVec 4) (h : InPredictor s)
    (hphase : s.phase = .decodeResidual) (hresidual : s.residual = none) (he : s.e = []) :
    AnswersInv (residualHeader m p s) := by
  have ⟨⟨hdecode, _⟩, _⟩ := h
  rw [residualHeader, atResidualHeader_here hphase hresidual]
  dsimp only
  split
  · exact .raiseStream (s := { s with method := m, partOrder := p }) hdecode rfl
  next hlarge =>
    split
    · exact .raiseStream (s := { s with method := m, partOrder := p }) hdecode rfl
    next haligned =>
      refine ⟨_, rfl, .decodeResidual h hphase nofun ?_⟩
      rintro _ ⟨⟩
      refine ⟨State.partitionCount_pos _, Nat.not_lt.mp hlarge, not_not.mp haligned, rfl, ?_⟩
      show Memory.Exactly s.e 0
      rw [he]
      exact Memory.exactly_nil

theorem residualSection_answersInv {s : State} (h : InPredictor s) (hphase : s.phase = .decodeResidual)
    (hresidual : s.residual = none) (he : s.e = []) : AnswersInv (engineFetch s).outcome := by
  have ⟨⟨hdecode, hheader⟩, hpredictor⟩ := h
  rw [engineFetch, hphase, hresidual]
  refine .fetchItem hdecode hdecode.shortResidualHeader fun i rest hitem hread => ?_
  have hnow : InPredictor (s.advanceTo rest) := ⟨⟨hread, hheader⟩, hpredictor⟩
  rcases decodeResidualHeader_item hitem with ⟨x, rfl⟩ | ⟨p, rfl⟩ | ⟨p, rfl⟩
  · rw [exec, execResReserved, atResidualHeader_here (s := s.advanceTo rest) hphase hresidual]
    exact .raiseStream hread rfl
  · exact residualHeader_answersInv 0 p hnow hphase hresidual he
  · exact residualHeader_answersInv 1 p hnow hphase hresidual he

theorem ResidualAt.advanceTo {s : State} {at_ : ResidualProgress} (h : ResidualAt s at_) (rest : List Bool) :
    ResidualAt (s.advanceTo rest) at_ := ⟨h.inside, h.large, h.aligned, h.index, h.written⟩

/-- The next index in `E` is the number of residuals of the partitions before (R57). -/
theorem ResidualAt.index_eq {s : State} {at_ : ResidualProgress} (h : ResidualAt s at_) :
    at_.j = at_.q * s.partitionSamples - s.order.toNat := by
  rw [h.index]
  split
  next hzero => simp [hzero]
  · rfl

theorem ResidualAt.end_eq {s : State} {at_ : ResidualProgress} (h : ResidualAt s at_) :
    at_.j + s.residualCount at_.q = (at_.q + 1) * s.partitionSamples - s.order.toNat := by
  rw [h.index_eq, State.residualCount_end h.large]

theorem ResidualAt.fits {s : State} {at_ : ResidualProgress} (h : ResidualAt s at_) :
    at_.j + s.residualCount at_.q ≤ Buffer.capacity .residuals := by
  have hle : (at_.q + 1) * s.partitionSamples ≤ s.blockSize :=
    State.partitionCount_mul_partitionSamples h.aligned ▸ Nat.mul_le_mul_right _ h.inside
  have hbs := s.blockSize_le
  rw [h.end_eq]
  show _ ≤ 65535
  omega

/-- A partition fails, or the next one is to be read, or after the last one the block is to be restored (R100, R101). -/
theorem readPartition_answersInv {s : State} {at_ : ResidualProgress} {code : List Bool → CodeRead}
    (hcode : LeavesTail code) (h : InPredictor s) (hphase : s.phase = .decodeResidual) (hat : ResidualAt s at_) :
    AnswersInv (readPartition code at_ s) := by
  have ⟨⟨hdecode, hheader⟩, hpredictor⟩ := h
  refine .readInto hdecode hcode hat.fits fun vs rest _ hlen hread => ⟨_, rfl, ?_⟩
  have hnow : InPredictor ((s.setBuffer .residuals (Memory.writeRun s.e at_.j vs)).advanceTo rest) :=
    ⟨⟨hread, hheader⟩, hpredictor⟩
  have hwritten := hat.written.writeRun vs
  rw [hlen, hat.end_eq] at hwritten
  rw [hat.end_eq, nextPartition]
  split
  next hmore =>
    refine .decodeResidual hnow hphase nofun ?_
    rintro _ ⟨⟩
    exact ⟨hmore, hat.large, hat.aligned, rfl, hwritten⟩
  next hlast =>
    have hcount : at_.q + 1 = s.partitionCount := Nat.le_antisymm hat.inside (Nat.not_lt.mp hlast)
    rw [hcount, State.partitionCount_mul_partitionSamples hat.aligned] at hwritten
    exact .restore hnow rfl hwritten rfl

/-- Whichever parameter the format of the current method reads, its item reads the partition (R101, R105). -/
theorem partition_answersInv {s : State} {at_ : ResidualProgress} (h : InPredictor s)
    (hphase : s.phase = .decodeResidual) (hresidual : s.residual = some at_) (hat : ResidualAt s at_) :
    AnswersInv (engineFetch s).outcome := by
  have ⟨⟨hdecode, hheader⟩, hpredictor⟩ := h
  rw [engineFetch, hphase, hresidual]
  refine .fetchItem hdecode hdecode fun i rest hitem hread => ?_
  have hrice : ∀ m k, s.method = m → AnswersInv (ricePartition m k (s.advanceTo rest)) := by
    intro m k hmethod
    rw [ricePartition, atPartition_here (s := s.advanceTo rest) hphase hresidual hmethod]
    exact readPartition_answersInv (readRice_leavesTail k) ⟨⟨hread, hheader⟩, hpredictor⟩ hphase (hat.advanceTo rest)
  have hescape : ∀ m, s.method = m → AnswersInv (escapePartition m (s.advanceTo rest)) := by
    intro m hmethod
    rw [escapePartition, atPartition_here (s := s.advanceTo rest) hphase hresidual hmethod]
    exact .withField hread fun n rest' _ hread' =>
      readPartition_answersInv (readRaw_leavesTail Config.escapeRawSigned n) ⟨⟨hread', hheader⟩, hpredictor⟩ hphase
        ((hat.advanceTo rest).advanceTo rest')
  rcases BitVec.eq_zero_or_eq_one s.method with hmethod | hmethod
  · rw [State.partitionFormat_zero hmethod] at hitem
    rcases decodePartition4_item hitem with rfl | ⟨k, rfl⟩
    · exact hescape 0 hmethod
    · exact hrice 0 k.toNat hmethod
  · rw [State.partitionFormat_one hmethod] at hitem
    rcases decodePartition5_item hitem with rfl | ⟨k, rfl⟩
    · exact hescape 1 hmethod
    · exact hrice 1 k.toNat hmethod

/-! ## RESTORE -/

/-- `u` is `s` with the samples before index `i` restored, and the accumulator at any value. -/
def SamplesBefore (s : State) (i : Nat) (u : State) : Prop :=
  ∃ m a, u = s.withSamples m a ∧ Memory.wf m = true ∧ Memory.Exactly m i

/-- A restoration loop whose passes each write the next sample writes the block, and the decode is DONE (R79, R90). -/
theorem restoreLoop_answersInv {s : State} {body : Nat → State → Result} (h : InPredictor s) (hresidual : s.residual = none)
    (hbody : ∀ i m a, s.order.toNat ≤ i → i < s.blockSize → Memory.Written m i →
      ∃ v acc, body i (s.withSamples m a) = .next (s.withSamples (Memory.write m i v) acc)) :
    AnswersInv (andThen (forEach body (s.blockSize - s.order.toNat) s.order.toNat s) complete) := by
  obtain ⟨⟨⟨⟨hwf, hintact⟩, hdecode⟩, hheader⟩, _, hx, _⟩ := h
  have ⟨_, _, _, _, hfits⟩ := hheader
  obtain ⟨u, hu, m, a, rfl, hwf', hm⟩ := forEach_carries (body := body) (SamplesBefore s)
    (s.blockSize - s.order.toNat) s.order.toNat s ⟨s.x, s.acc, rfl, hwf, hx⟩ (by
      rintro i _ hlo hhi ⟨m, a, rfl, hwf, hm⟩
      obtain ⟨v, acc, hnext⟩ := hbody i m a hlo (by omega) hm.written
      exact ⟨_, hnext, _, acc, rfl, Memory.wf_write m i v hwf, hm.writeRun [v]⟩)
  rw [Nat.add_sub_cancel' hfits] at hm
  rw [hu, andThen_next]
  exact complete_answersInv ⟨⟨⟨hwf', hintact⟩, hdecode⟩, hheader⟩ hm hresidual

theorem fixedRestore_answersInv {s : State} {coeffs : List Int} (h : InPredictor s) (hresidual : s.residual = none)
    (hlen : coeffs.length = s.order.toNat) (he : Memory.Exactly s.e (s.blockSize - s.order.toNat)) :
    AnswersInv (fixedRestore coeffs s) := by
  refine restoreLoop_answersInv h hresidual fun i m a hlo hhi hm => ?_
  obtain ⟨e, hread⟩ := he.written (i - s.order.toNat) (by omega)
  obtain ⟨past, hpast⟩ := hm.readDown (hlen.trans_le hlo)
  exact ⟨_, a, fixedSample_next (s := s.withSamples m a) (hhi.trans_le s.blockSize_le) hread hpast⟩

theorem lpcRestore_answersInv {s : State} (h : InPredictor s) (hresidual : s.residual = none)
    (hc : Memory.Exactly s.c s.order.toNat) (he : Memory.Exactly s.e (s.blockSize - s.order.toNat)) :
    AnswersInv (lpcRestore s) := by
  rw [lpcRestore, hc.written.holds.readUp]
  refine restoreLoop_answersInv h hresidual fun i m a hlo hhi hm => ?_
  obtain ⟨e, hread⟩ := he.written (i - s.order.toNat) (by omega)
  obtain ⟨past, hpast⟩ := hm.readDown hlo
  exact ⟨_, _, lpcSample_next (s := s.withSamples m a) (hhi.trans_le s.blockSize_le) hread
    (by rw [List.length_map, List.length_map, List.length_range]; exact hpast)⟩

theorem restore_answersInv {s : State} (h : InPredictor s) (hphase : s.phase = .restore) (hresidual : s.residual = none)
    (he : Memory.Exactly s.e (s.blockSize - s.order.toNat)) : AnswersInv (exec s.inFlight s) := by
  have ⟨hbody, hvariant, _, hparams⟩ := h
  rcases hbody.predictor_cases hvariant with ⟨_, coeffs, hlen, hexec⟩ | ⟨hlpc, o, hexec⟩
  · rw [hexec, fixedPhases, hphase]
    exact fixedRestore_answersInv h hresidual hlen he
  · obtain ⟨_, hc, _⟩ := hparams hlpc
    rw [hexec, execLpc, hphase]
    exact lpcRestore_answersInv h hresidual hc he

/-! ## The engine's own step -/

/-- In every phase of a decode the engine's next action answers a state with the invariant again. -/
theorem engineFetch_answersInv {s : State} (h : EngineInv s) (hbusy : s.phase.busy = true) :
    AnswersInv (engineFetch s).outcome := by
  have hfits := h.fits
  have hresidual : s.phase ≠ .decodeResidual → s.residual = none := h.residual_eq_none
  cases hphase : s.phase with
  | readHeader => exact readHeader_answersInv (h.inDecode hbusy) hphase (h.unwritten (.inl hphase))
  | readRaw =>
    rw [hphase] at hfits
    rw [engineFetch_inFlight (.inl hphase)]
    exact readRaw_answersInv (h.inBody hbusy (by rw [hphase]; rfl)) hphase (of_decide_eq_true hfits)
      (h.unwrittenX (.inr (.inl hphase))) (hresidual (by simp [hphase]))
  | readWarmup =>
    rw [hphase] at hfits
    rw [engineFetch_inFlight (.inr (.inl hphase))]
    exact readWarmup_answersInv (h.inBody hbusy (by rw [hphase]; rfl)) hphase (of_decide_eq_true hfits)
      (h.unwritten (.inr hphase))
  | readPredParams =>
    rw [hphase] at hfits
    have hnone := hresidual (by simp [hphase])
    rw [engineFetch_inFlight (.inr (.inr (.inl hphase)))]
    exact readPredParams_answersInv ⟨h.inBody hbusy (by rw [hphase]; rfl), of_decide_eq_true hfits,
      h.warmupX (.inl hphase), h.unwrittenE hbusy (by simp [hphase]) hnone, h.unwrittenC (.inr (.inr hphase)), hnone⟩ hphase
  | decodeResidual =>
    have hpredictor := h.inPredictor (.inl hphase)
    cases hat : s.residual with
    | none => exact residualSection_answersInv hpredictor hphase hat (h.unwrittenE hbusy (by simp [hphase]) hat)
    | some at_ => exact partition_answersInv hpredictor hphase hat (h.residual at_ hat).2
  | restore =>
    rw [engineFetch_inFlight (.inr (.inr (.inr hphase)))]
    exact restore_answersInv (h.inPredictor (.inr hphase)) hphase (hresidual (by simp [hphase])) (h.restoreE hphase)
  | _ => rw [hphase] at hbusy; cases hbusy

end Sys2Proof.Machine
end

section
/-! PROOFS. The invariant through the host's events (R106 to R113) and so through every step: the engine never stops but when the
stream is changed during a decode. -/

namespace Sys2Proof.Machine

/-! ## The host's side of the state -/

/-- The invariant says nothing of the host but that its words are canonical and the position lies within its stream. -/
theorem EngineInv.of_sameEngine {s t : State} (h : EngineInv s) (hsame : SameEngine s t) (hwf : Memory.wf t.hostMem = true)
    (hpos : t.srcPos ≤ t.source.length) (hcounted : s.phase.busy = true → s.cursor ≤ t.srcPos) : EngineInv t := by
  unfold SameEngine at hsame
  generalize t.inbox = inbox, t.responses = responses, t.hostMem = hostMem, t.source = source, t.srcPos = srcPos
    at hsame hwf hpos hcounted
  subst hsame
  obtain ⟨⟨hx, he, hc, _⟩, _, _, hnone, hfault, hconfig, hheader, hfits, hparams, hunwrittenX, hwarmupX, hdoneX, hunwrittenC,
    hunwrittenE, hresidual, hrestoreE⟩ := h
  refine ⟨⟨hx, he, hc, hwf⟩, hpos, hcounted, hnone, hfault, hconfig, fun hp => ?_, hfits, fun hlpc hp => ?_, hunwrittenX,
    hwarmupX, hdoneX, hunwrittenC, hunwrittenE, fun at_ hat => ?_, hrestoreE⟩
  · obtain ⟨hlegal, hvariant, horder, hwasted, hblock⟩ := hheader hp
    exact ⟨hlegal, hvariant, horder, hwasted, hblock⟩
  · obtain ⟨hprecision, hcoefficients, hrange⟩ := hparams hlpc hp
    exact ⟨hprecision, hcoefficients, hrange⟩
  · obtain ⟨hp, hinside, hlarge, haligned, hindex, hwritten⟩ := hresidual at_ hat
    exact ⟨hp, hinside, hlarge, haligned, hindex, hwritten⟩

theorem EngineInv.withInbox {s : State} (h : EngineInv s) (inbox : List Arrival) : EngineInv { s with inbox := inbox } :=
  h.of_sameEngine rfl h.buffers.hostMem h.position h.counted

theorem EngineInv.respond {s : State} (h : EngineInv s) (r : Response) : EngineInv (s.respond r) :=
  h.of_sameEngine rfl h.buffers.hostMem h.position h.counted

theorem EngineInv.withStream {s : State} (h : EngineInv s) (hidle : s.phase.busy = false) (inbox : List Arrival)
    (bits : List Bool) (pos : Nat) :
    EngineInv { s with inbox := inbox, source := bits, srcPos := min pos bits.length } :=
  h.of_sameEngine rfl h.buffers.hostMem (Nat.min_le_right _ _) fun hbusy => by rw [hidle] at hbusy; cases hbusy

/-! ## Commands -/

theorem EngineInv.resetEngine {s : State} (h : EngineInv s) : EngineInv (resetEngine s) := by
  constructor
  case buffers => exact ⟨rfl, rfl, rfl, h.buffers.hostMem⟩
  case position => exact s.unspecified_le _
  all_goals simp [Machine.resetEngine, State.reset, Phase.busy, Phase.pastHeader, phaseFits]

theorem EngineInv.started_intact {s : State} (h : EngineInv s) (bs bps : Nat) (tr : Bool) : Intact (s.started bs bps tr) :=
  ⟨rfl, rfl, rfl, h.buffers.hostMem, h.position⟩

/-- A legal configuration fits its registers, so it is legal as latched (R107). -/
theorem configLegal_latch {bs bps : Nat} (h : configLegal bs bps = true) :
    configLegal (latch 16 bs).toNat (latch 6 bps).toNat = true := by
  have ⟨⟨_, hbs⟩, _, hbps⟩ := (configLegal_iff _ _).mp h
  rw [latch_of_lt (by omega), latch_of_lt (by omega), BitVec.toNat_ofNat, BitVec.toNat_ofNat, Nat.mod_eq_of_lt (by omega),
    Nat.mod_eq_of_lt (by omega)]
  exact h

theorem execCmdStart_answersInv {s : State} (bs bps : Nat) (tr : Bool) (h : EngineInv s) :
    AnswersInv (execCmdStart bs bps tr s) := by
  cases hbusy : s.phase.busy with
  | true => exact ⟨_, execCmdStart_busy bs bps tr hbusy, h.respond _⟩
  | false =>
    have hintact := h.started_intact bs bps tr
    by_cases hlegal : configLegal bs bps = true
    · refine ⟨_, execCmdStart_legal tr hbusy hlegal, .readHeader ?_ rfl ⟨rfl, rfl, rfl, rfl⟩⟩
      exact ⟨hintact, Nat.zero_le _, rfl, rfl, configLegal_latch hlegal⟩
    · exact ⟨_, execCmdStart_illegal tr hbusy hlegal, .raise hintact rfl⟩

/-- In DONE every word of the block is there to be read (R108). -/
theorem execCmdRead_answersInv {s : State} (dest len : Nat) (h : EngineInv s) : AnswersInv (execCmdRead dest len s) := by
  by_cases hdone : s.phase = .done
  · rcases Nat.lt_or_ge len s.blockSize with hshort | hwhole
    · exact ⟨_, execCmdRead_short hdone hshort, h.respond _⟩
    · refine ⟨_, execCmdRead_whole hdone hwhole (h.doneX hdone).written.holds, ?_⟩
      exact h.of_sameEngine rfl (Memory.wf_writeRun _ _ _ h.buffers.hostMem) h.position h.counted
  · by_cases hfailed : s.phase = .failed
    · exact ⟨_, execCmdRead_failed hfailed, h.respond _⟩
    · exact ⟨_, execCmdRead_notReady hdone hfailed, h.respond _⟩

theorem execCmdQueryType_answersInv {s : State} (h : EngineInv s) : AnswersInv (execCmdQueryType s) := by
  unfold execCmdQueryType
  split
  · exact ⟨_, rfl, h.respond _⟩
  · exact ⟨_, rfl, h.respond _⟩

theorem execCmdQueryWasted_answersInv {s : State} (h : EngineInv s) : AnswersInv (execCmdQueryWasted s) := by
  unfold execCmdQueryWasted
  split
  · exact ⟨_, rfl, h.respond _⟩
  · exact ⟨_, rfl, h.respond _⟩

/-- Whatever command a code selects, it answers in every phase (R106). -/
theorem exec_command_answersInv {s : State} (code : Nat) (args : CommandArgs) (h : EngineInv s) :
    AnswersInv (exec (commandOfCode code args) s) := by
  unfold commandOfCode
  split_ifs
  · exact ⟨_, rfl, h.resetEngine.respond _⟩
  · exact execCmdStart_answersInv _ _ _ h
  · exact execCmdRead_answersInv _ _ h
  · exact execCmdQueryType_answersInv h
  · exact execCmdQueryWasted_answersInv h
  · exact ⟨_, rfl, h.respond _⟩
  · exact ⟨_, rfl, h.respond _⟩

/-! ## Every step -/

/-- The host breaks the stream where an event other than a command has arrived during a decode (R47). -/
theorem hostBreaksStream_iff {s : State} :
    hostBreaksStream s = true ↔
      ∃ e rest, s.inbox = ⟨0, e⟩ :: rest ∧ s.phase.busy = true ∧ ∀ c, e ≠ .command c := by
  unfold hostBreaksStream
  cases s.inbox with
  | nil => simp
  | cons a rest =>
    obtain ⟨w, e⟩ := a
    cases e <;> simp [and_comm]

theorem supplyStream_idle {s : State} (bits : List Bool) (pos : Nat) (hidle : s.phase.busy = false) :
    supplyStream bits pos s = .without { s with source := bits, srcPos := min pos bits.length } :=
  if_neg (by simp [hidle])

theorem supplyStream_busy {s : State} (bits : List Bool) (pos : Nat) (hbusy : s.phase.busy = true) :
    supplyStream bits pos s = .stop .streamChanged := if_pos hbusy

/-- An event that is taken leads on, unless it is a stream and a decode is in progress. -/
theorem takeEvent_answersInv {s : State} (e : HostEvent) (h : EngineInv s)
    (hstream : s.phase.busy = true → ∃ c, e = .command c) : AnswersInv (takeEvent e s).outcome := by
  have hsupply : ∀ bits pos, s.phase.busy = false → AnswersInv (supplyStream bits pos s).outcome := fun bits pos hidle =>
    ⟨_, by rw [supplyStream_idle bits pos hidle]; rfl, h.withStream hidle s.inbox bits pos⟩
  cases e with
  | command c =>
    rw [takeEvent_command]
    exact exec_command_answersInv c.code.toNat c.args h
  | supply bits pos => exact hsupply bits pos (Bool.eq_false_iff.mpr fun hbusy => nomatch hstream hbusy)
  | supplyBytes bytes pos => exact hsupply (bitsOfBytes bytes) pos (Bool.eq_false_iff.mpr fun hbusy => nomatch hstream hbusy)

/-- With no event arriving the engine makes its own move, and waits between decodes (R126). -/
theorem engineMove_answersInv {s : State} (h : EngineInv s) : AnswersInv (engineFetch s).outcome := by
  cases hbusy : s.phase.busy with
  | true => exact engineFetch_answersInv h hbusy
  | false => exact ⟨s, by rw [engineFetch_idle hbusy]; rfl, h⟩

/-- The safety of every step: unless the host changes the stream, it answers a state with the invariant. -/
theorem step_answersInv {s : State} (h : EngineInv s) (hstream : hostBreaksStream s = false) : AnswersInv (step s) := by
  rw [step_eq_outcome]
  cases hin : s.inbox with
  | nil =>
    rw [fetch_of_engineMoves (.inl ⟨hin, rfl⟩)]
    exact engineMove_answersInv h
  | cons a rest =>
    obtain ⟨w, e⟩ := a
    by_cases hwaits : s.phase.busy = true ∧ w ≠ 0
    · obtain ⟨hbusy, hw⟩ := hwaits
      obtain ⟨w, rfl⟩ := Nat.exists_eq_succ_of_ne_zero hw
      rw [fetch_of_engineMoves (.inr ⟨hbusy, w, e, rest, hin, rfl⟩)]
      exact engineMove_answersInv (h.withInbox _)
    · have hnow : s.phase.busy = true → w = 0 := fun hbusy => not_not.mp fun hw => hwaits ⟨hbusy, hw⟩
      rw [fetch_event hin hnow]
      refine takeEvent_answersInv e (h.withInbox rest) fun hbusy => ?_
      by_contra hcommand
      rw [hnow hbusy] at hin
      exact Bool.eq_false_iff.mp hstream
        (hostBreaksStream_iff.mpr ⟨e, rest, hin, hbusy, fun c hc => hcommand ⟨c, hc⟩⟩)

theorem step_of_hostBreaksStream {s : State} (h : hostBreaksStream s = true) : step s = .fault .streamChanged := by
  obtain ⟨e, rest, hin, hbusy, hcommand⟩ := hostBreaksStream_iff.mp h
  have hfetch := fetch_event hin fun _ => rfl
  cases e with
  | command c => exact absurd rfl (hcommand c)
  | supply bits pos => exact step_stop (hfetch.trans (supplyStream_busy bits pos hbusy))
  | supplyBytes bytes pos => exact step_stop (hfetch.trans (supplyStream_busy (bitsOfBytes bytes) pos hbusy))

/-- Settles O47: the step answers one state, which has the invariant (`step_answersInv`). -/
theorem stepKeepsInvariant : Obligations.StepKeepsInvariant := by
  intro s t h hstep
  cases hstream : hostBreaksStream s with
  | true => exact nomatch hstep.symm.trans (step_of_hostBreaksStream hstream)
  | false =>
    obtain ⟨u, hu, hinv⟩ := step_answersInv h hstream
    cases hstep.symm.trans hu
    exact hinv

/-- Settles O48, by `step_answersInv` and `step_of_hostBreaksStream`. -/
theorem stepStopsOnlyWhenStreamChanges : Obligations.StepStopsOnlyWhenStreamChanges := by
  refine fun s h => ⟨fun hstream => ?_, step_of_hostBreaksStream⟩
  obtain ⟨t, ht, _⟩ := step_answersInv h hstream
  exact ⟨t, ht⟩

end Sys2Proof.Machine
end
